-- ==== Sys2Proof/Word.lean ====
section
/-! DEFINITION. The word types of the FAPU (00_scope.md R7, R12): host words of 32 bits, DATA bytes, the signed
64-bit limb words, and the 5-bit register slots of a command word. -/

namespace Sys2Proof

/-- One byte of the DATA window (R34). -/
abbrev Byte := BitVec 8

/-- One 32-bit host word: a command word, ARG, RESULT, or the value of a bus access (R47). -/
abbrev Word := BitVec 32

/-- One limb word, `i64`: 64 bits, read as a signed two's-complement integer (R7, R12). -/
abbrev Limb := BitVec 64

/-- A 5-bit slot of a command word (R68): the index of a field register, or the raw value of a point or selector slot. -/
abbrev Slot := Fin 32

/-- The limb vector of a field register, limb 0 first (R22). -/
abbrev Limbs := List Limb

end Sys2Proof
end

