-- ==== Sys2Proof/Config.lean ====
section
/-! DEFINITION. What is fixed when an FAPU is built (00_scope.md R4 to R8, 10_state.md R21): the modulus configuration and
the base of the host window. LAT is not here: no rule's result depends on it (R43, R193; log entry 4). -/

namespace Sys2Proof

/-- The seven configurations, MODULUS_ID 0 to 6 (R5). The values 7 to 15 are not configurations and have no constructor. -/
inductive ModulusId where
  | p221 | p222 | p251 | p255 | p382 | p414 | p521
  deriving DecidableEq, Repr

namespace ModulusId

/-- The number the ID register reports (R5, R51). -/
def number : ModulusId → Nat
  | p221 => 0 | p222 => 1 | p251 => 2 | p255 => 3 | p382 => 4 | p414 => 5 | p521 => 6

/-- The modulus exponent n of p = 2^n − c (R5). -/
def n : ModulusId → Nat
  | p221 => 221 | p222 => 222 | p251 => 251 | p255 => 255 | p382 => 382 | p414 => 414 | p521 => 521

/-- The modulus constant c of p = 2^n − c (R5). -/
def c : ModulusId → Nat
  | p221 => 3 | p222 => 117 | p251 => 9 | p255 => 19 | p382 => 105 | p414 => 17 | p521 => 1

/-- N, the number of limbs (R5). -/
def limbCount : ModulusId → Nat
  | p221 => 8 | p222 => 8 | p251 => 9 | p255 => 9 | p382 => 14 | p414 => 15 | p521 => 19

/-- B, the width in bits of every limb below the top one (R5). -/
def limbWidth : ModulusId → Nat
  | p255 => 29
  | p221 | p222 | p251 | p382 | p414 | p521 => 28

/-- T = n − B·(N−1), the value bits of the top limb (R5). -/
def topWidth (m : ModulusId) : Nat := m.n - m.limbWidth * (m.limbCount - 1)

/-- nb = ⌈n/8⌉, the packed byte width (R5). -/
def byteCount (m : ModulusId) : Nat := (m.n + 7) / 8

/-- The prime p = 2^n − c (R5). -/
def p (m : ModulusId) : Nat := 2 ^ m.n - m.c

/-- Whether the SQRT command exists: p ≡ 5 (mod 8) (R5, R129). -/
def hasSqrt (m : ModulusId) : Bool := m.p % 8 == 5

/-- What R6 says every configuration satisfies: (N−1)·B < n ≤ N·B, 17 ≤ T ≤ 29, B ∈ {28, 29}, 1 ≤ c < 2^7, 2^n > 2·c. It is proved
of all seven (`configuration_bounds`, Sys2Proof/Laws/Limbs.lean). -/
structure Bounds (m : ModulusId) : Prop where
  lowerLimbsNarrower : (m.limbCount - 1) * m.limbWidth < m.n
  limbsWideEnough : m.n ≤ m.limbCount * m.limbWidth
  topWidthAtLeast : 17 ≤ m.topWidth
  topWidthAtMost : m.topWidth ≤ 29
  limbWidthChoice : m.limbWidth = 28 ∨ m.limbWidth = 29
  cPositive : 1 ≤ m.c
  cSmall : m.c < 2 ^ 7
  modulusLarge : 2 ^ m.n > 2 * m.c

end ModulusId

/-- The parameters one FAPU instance is built with (R4, R8). `basePage` is FAPU_BASE / 4096: the base is 4 KiB aligned. -/
structure Params where
  modulus : ModulusId
  basePage : Nat
  deriving DecidableEq, Repr

/-- FAPU_BASE, the physical address of the host register window (R8, R46). -/
def Params.base (q : Params) : Nat := 4096 * q.basePage

end Sys2Proof
end

