-- ==== Sys2Proof/Syntax.lean ====
section
/-! DEFINITION. The commands of the FAPU (30_encoding.md R72): one constructor for each of the 32 rows of
spec/opcode_table.json. An operand is the 5-bit slot it stands in; which slots are point or selector slots, and what they may
hold, is Sys2Proof/WellFormed.lean's. -/

namespace Sys2Proof

/-- One command. Operands stand in slot order d, a, b, m (R68, R77). -/
inductive Instr where
  | nop
  | mov (d a : Slot)
  | ldc (d k : Slot)
  | unpack (d : Slot)
  | pack (a : Slot)
  | norm (d : Slot)
  | add (d a b : Slot)
  | sub (d a b : Slot)
  | neg (d a : Slot)
  | sadd (d a : Slot)
  | ssub (d a : Slot)
  | smul (d a : Slot)
  | mul (d a b : Slot)
  | sqr (d a : Slot)
  | inv (d a : Slot)
  | div (d a b : Slot)
  | leg (d a : Slot)
  | sqrt (d a : Slot)
  | eq (a b : Slot)
  | bit (a : Slot)
  | fill (d : Slot)
  | andm (d a m : Slot)
  | orm (d a b : Slot)
  | csel (d a b m : Slot)
  | seta (a : Slot)
  | setd (a : Slot)
  | pzero (d : Slot)
  | pinit (d a b : Slot)
  | padd (d a b : Slot)
  | pdbl (d a : Slot)
  | ptpl (d a : Slot)
  | pmul (d a b : Slot)
  deriving DecidableEq, Repr

end Sys2Proof
end

