-- ==== Sys2Proof/WellFormed.lean ====
section
/-! DEFINITION. Which commands have an encoding (30_encoding.md R69, R74): a point slot holds 0 to 7, the LDC selector slot
holds 0 to 3. A field-register slot (kinds F, R and M) holds every index 0 to 31, so it needs no check. -/

namespace Sys2Proof

/-- A P slot: bits [4:3] are 00 (R69). -/
def pointSlotOk (k : Slot) : Bool := decide (k.val < 8)

/-- The K slot of LDC: bits [4:2] are 000 (R69). -/
def selectorSlotOk (k : Slot) : Bool := decide (k.val < 4)

/-- The command has an encoding: every point and selector slot is in its range. -/
def Instr.wellFormed : Instr → Bool
  | .ldc _ k => selectorSlotOk k
  | .pzero d => pointSlotOk d
  | .pinit d _ _ => pointSlotOk d
  | .padd d a b => pointSlotOk d && pointSlotOk a && pointSlotOk b
  | .pdbl d a => pointSlotOk d && pointSlotOk a
  | .ptpl d a => pointSlotOk d && pointSlotOk a
  | .pmul d a _ => pointSlotOk d && pointSlotOk a
  | .nop | .mov _ _ | .unpack _ | .pack _ | .norm _ | .add _ _ _ | .sub _ _ _ | .neg _ _ | .sadd _ _ | .ssub _ _
  | .smul _ _ | .mul _ _ _ | .sqr _ _ | .inv _ _ | .div _ _ _ | .leg _ _ | .sqrt _ _ | .eq _ _ | .bit _ | .fill _
  | .andm _ _ _ | .orm _ _ _ | .csel _ _ _ _ | .seta _ | .setd _ => true

end Sys2Proof
end

