-- ==== Sys2Proof/Decode.lean ====
section
/-! DEFINITION. The command encoding (30_encoding.md): the fields of a command word (R68), the decoder (R69, R71 to R74), the
opcode table as masks and matches (R72), and the encoder (R80). The decoder is total: every 32-bit word is a command or is
rejected by name. -/

namespace Sys2Proof

/-! ### The fields of a command word (R68) -/

/-- The 5-bit slot whose lowest bit is bit `lo` of the word. -/
def slotAt (lo : Nat) (w : Word) : Slot := ⟨(w.toNat >>> lo) % 32, Nat.mod_lt _ (by decide)⟩

/-- op, bits [31:26]. -/
def opField (w : Word) : Nat := w.toNat >>> 26

/-- d, bits [25:21]. -/
def slotD (w : Word) : Slot := slotAt 21 w

/-- a, bits [20:16]. -/
def slotA (w : Word) : Slot := slotAt 16 w

/-- b, bits [15:11]. -/
def slotB (w : Word) : Slot := slotAt 11 w

/-- m, bits [10:6]. -/
def slotM (w : Word) : Slot := slotAt 6 w

/-- z, bits [5:0], reserved. -/
def zField (w : Word) : Nat := w.toNat % 64

/-! ### The decoder (R69, R71, R73, R74) -/

/-- Why a word is no command. Each of them makes the CMD write raise E_ILLEGAL (R166). -/
inductive DecodeError where
  /-- bits [31:26] hold one of the 32 reserved opcode values (R73). -/
  | reservedOpcode
  /-- bits [5:0] are not 000000 (R74). -/
  | reservedBits
  /-- an unused slot is not 00000 (R74). -/
  | unusedSlot
  /-- a point slot holds 8 to 31 (R74). -/
  | pointIndex
  /-- the selector slot of LDC holds 4 to 31 (R74). -/
  | selector
  deriving DecidableEq, Repr

/-- The command `i`, read from the word `w`, if z is zero, the slots `unused` are zero and every point and selector slot is
in its range (R74). -/
def checked (w : Word) (unused points selectors : List Slot) (i : Instr) : Except DecodeError Instr :=
  if zField w ≠ 0 then .error .reservedBits
  else if unused.any (fun k => k != 0) then .error .unusedSlot
  else if points.any (fun k => !pointSlotOk k) then .error .pointIndex
  else if selectors.any (fun k => !selectorSlotOk k) then .error .selector
  else .ok i

/-- The command a word names, or why it names none (R71, R72). -/
def decode (w : Word) : Except DecodeError Instr :=
  let d := slotD w
  let a := slotA w
  let b := slotB w
  let m := slotM w
  match opField w with
  | 0x00 => checked w [d, a, b, m] [] [] .nop
  | 0x01 => checked w [b, m] [] [] (.mov d a)
  | 0x02 => checked w [b, m] [] [a] (.ldc d a)
  | 0x03 => checked w [a, b, m] [] [] (.unpack d)
  | 0x04 => checked w [d, b, m] [] [] (.pack a)
  | 0x05 => checked w [a, b, m] [] [] (.norm d)
  | 0x08 => checked w [m] [] [] (.add d a b)
  | 0x09 => checked w [m] [] [] (.sub d a b)
  | 0x0A => checked w [b, m] [] [] (.neg d a)
  | 0x0B => checked w [b, m] [] [] (.sadd d a)
  | 0x0C => checked w [b, m] [] [] (.ssub d a)
  | 0x0D => checked w [b, m] [] [] (.smul d a)
  | 0x10 => checked w [m] [] [] (.mul d a b)
  | 0x11 => checked w [b, m] [] [] (.sqr d a)
  | 0x14 => checked w [b, m] [] [] (.inv d a)
  | 0x15 => checked w [m] [] [] (.div d a b)
  | 0x16 => checked w [b, m] [] [] (.leg d a)
  | 0x17 => checked w [b, m] [] [] (.sqrt d a)
  | 0x18 => checked w [d, m] [] [] (.eq a b)
  | 0x19 => checked w [d, b, m] [] [] (.bit a)
  | 0x1A => checked w [a, b, m] [] [] (.fill d)
  | 0x1B => checked w [b] [] [] (.andm d a m)
  | 0x1C => checked w [m] [] [] (.orm d a b)
  | 0x1D => checked w [] [] [] (.csel d a b m)
  | 0x20 => checked w [d, b, m] [] [] (.seta a)
  | 0x21 => checked w [d, b, m] [] [] (.setd a)
  | 0x28 => checked w [a, b, m] [d] [] (.pzero d)
  | 0x29 => checked w [m] [d] [] (.pinit d a b)
  | 0x2A => checked w [m] [d, a, b] [] (.padd d a b)
  | 0x2B => checked w [b, m] [d, a] [] (.pdbl d a)
  | 0x2C => checked w [b, m] [d, a] [] (.ptpl d a)
  | 0x2D => checked w [m] [d, a] [] (.pmul d a b)
  | _ => .error .reservedOpcode

/-- The command the decoder reads from an instruction of `nbits` bits whose bits are `w`, bit 0 the least significant bit
(a command is one 32-bit word, R67); none where it refuses. -/
def decodeTableWord (nbits w : Nat) : Option Instr :=
  match decode (BitVec.ofNat 32 (w % 2 ^ nbits)) with
  | .ok i => some i
  | .error _ => none

/-! ### The opcode table (R72) -/

/-- One row of the opcode map: a word v is this command when `v AND mask = pattern`. `pattern` is the column "match". -/
structure OpcodeRow where
  mnemonic : String
  pattern : Word
  mask : Word
  deriving DecidableEq, Repr

/-- The rows of R72 for opcodes 0x00 to 0x11. -/
def opcodeRowsLow : List OpcodeRow :=
  [⟨"NOP", 0x00000000, 0xFFFFFFFF⟩, ⟨"MOV", 0x04000000, 0xFC00FFFF⟩, ⟨"LDC", 0x08000000, 0xFC1CFFFF⟩,
   ⟨"UNPACK", 0x0C000000, 0xFC1FFFFF⟩, ⟨"PACK", 0x10000000, 0xFFE0FFFF⟩, ⟨"NORM", 0x14000000, 0xFC1FFFFF⟩,
   ⟨"ADD", 0x20000000, 0xFC0007FF⟩, ⟨"SUB", 0x24000000, 0xFC0007FF⟩, ⟨"NEG", 0x28000000, 0xFC00FFFF⟩,
   ⟨"SADD", 0x2C000000, 0xFC00FFFF⟩, ⟨"SSUB", 0x30000000, 0xFC00FFFF⟩, ⟨"SMUL", 0x34000000, 0xFC00FFFF⟩,
   ⟨"MUL", 0x40000000, 0xFC0007FF⟩, ⟨"SQR", 0x44000000, 0xFC00FFFF⟩]

/-- The rows of R72 for opcodes 0x14 to 0x1D. -/
def opcodeRowsMiddle : List OpcodeRow :=
  [⟨"INV", 0x50000000, 0xFC00FFFF⟩, ⟨"DIV", 0x54000000, 0xFC0007FF⟩, ⟨"LEG", 0x58000000, 0xFC00FFFF⟩,
   ⟨"SQRT", 0x5C000000, 0xFC00FFFF⟩, ⟨"EQ", 0x60000000, 0xFFE007FF⟩, ⟨"BIT", 0x64000000, 0xFFE0FFFF⟩,
   ⟨"FILL", 0x68000000, 0xFC1FFFFF⟩, ⟨"ANDM", 0x6C000000, 0xFC00F83F⟩, ⟨"ORM", 0x70000000, 0xFC0007FF⟩,
   ⟨"CSEL", 0x74000000, 0xFC00003F⟩]

/-- The rows of R72 for opcodes 0x20 to 0x2D. -/
def opcodeRowsHigh : List OpcodeRow :=
  [⟨"SETA", 0x80000000, 0xFFE0FFFF⟩, ⟨"SETD", 0x84000000, 0xFFE0FFFF⟩, ⟨"PZERO", 0xA0000000, 0xFF1FFFFF⟩,
   ⟨"PINIT", 0xA4000000, 0xFF0007FF⟩, ⟨"PADD", 0xA8000000, 0xFF18C7FF⟩, ⟨"PDBL", 0xAC000000, 0xFF18FFFF⟩,
   ⟨"PTPL", 0xB0000000, 0xFF18FFFF⟩, ⟨"PMUL", 0xB4000000, 0xFF1807FF⟩]

/-- The 32 rows of R72. -/
def opcodeTable : List OpcodeRow := opcodeRowsLow ++ opcodeRowsMiddle ++ opcodeRowsHigh

/-- The word satisfies (v AND mask) = match for this row (R71). -/
def OpcodeRow.selects (r : OpcodeRow) (w : Word) : Bool := (w &&& r.mask) == r.pattern

/-- The mnemonic of a command, as R72 spells it. -/
def Instr.mnemonic : Instr → String
  | .nop => "NOP" | .mov _ _ => "MOV" | .ldc _ _ => "LDC" | .unpack _ => "UNPACK" | .pack _ => "PACK" | .norm _ => "NORM"
  | .add _ _ _ => "ADD" | .sub _ _ _ => "SUB" | .neg _ _ => "NEG" | .sadd _ _ => "SADD" | .ssub _ _ => "SSUB"
  | .smul _ _ => "SMUL" | .mul _ _ _ => "MUL" | .sqr _ _ => "SQR" | .inv _ _ => "INV" | .div _ _ _ => "DIV"
  | .leg _ _ => "LEG" | .sqrt _ _ => "SQRT" | .eq _ _ => "EQ" | .bit _ => "BIT" | .fill _ => "FILL"
  | .andm _ _ _ => "ANDM" | .orm _ _ _ => "ORM" | .csel _ _ _ _ => "CSEL" | .seta _ => "SETA" | .setd _ => "SETD"
  | .pzero _ => "PZERO" | .pinit _ _ _ => "PINIT" | .padd _ _ _ => "PADD" | .pdbl _ _ => "PDBL" | .ptpl _ _ => "PTPL"
  | .pmul _ _ _ => "PMUL"

/-! ### The encoder (R80) -/

/-- (op << 26) | (d << 21) | (a << 16) | (b << 11) | (m << 6): the fields do not overlap, so the word is their sum. -/
def commandWord (op : Nat) (d a b m : Slot) : Word :=
  BitVec.ofNat 32 (op * 2 ^ 26 + d.val * 2 ^ 21 + a.val * 2 ^ 16 + b.val * 2 ^ 11 + m.val * 2 ^ 6)

/-- The command word of a command: its opcode and each operand in its slot, unused slots 0 (R72, R80). -/
def encode : Instr → Word
  | .nop => commandWord 0x00 0 0 0 0
  | .mov d a => commandWord 0x01 d a 0 0
  | .ldc d k => commandWord 0x02 d k 0 0
  | .unpack d => commandWord 0x03 d 0 0 0
  | .pack a => commandWord 0x04 0 a 0 0
  | .norm d => commandWord 0x05 d 0 0 0
  | .add d a b => commandWord 0x08 d a b 0
  | .sub d a b => commandWord 0x09 d a b 0
  | .neg d a => commandWord 0x0A d a 0 0
  | .sadd d a => commandWord 0x0B d a 0 0
  | .ssub d a => commandWord 0x0C d a 0 0
  | .smul d a => commandWord 0x0D d a 0 0
  | .mul d a b => commandWord 0x10 d a b 0
  | .sqr d a => commandWord 0x11 d a 0 0
  | .inv d a => commandWord 0x14 d a 0 0
  | .div d a b => commandWord 0x15 d a b 0
  | .leg d a => commandWord 0x16 d a 0 0
  | .sqrt d a => commandWord 0x17 d a 0 0
  | .eq a b => commandWord 0x18 0 a b 0
  | .bit a => commandWord 0x19 0 a 0 0
  | .fill d => commandWord 0x1A d 0 0 0
  | .andm d a m => commandWord 0x1B d a 0 m
  | .orm d a b => commandWord 0x1C d a b 0
  | .csel d a b m => commandWord 0x1D d a b m
  | .seta a => commandWord 0x20 0 a 0 0
  | .setd a => commandWord 0x21 0 a 0 0
  | .pzero d => commandWord 0x28 d 0 0 0
  | .pinit d a b => commandWord 0x29 d a b 0
  | .padd d a b => commandWord 0x2A d a b 0
  | .pdbl d a => commandWord 0x2B d a 0 0
  | .ptpl d a => commandWord 0x2C d a 0 0
  | .pmul d a b => commandWord 0x2D d a b 0

end Sys2Proof
end

