-- ==== Sys2Proof/Machine/State.lean ====
section
/-! DEFINITION. Everything the FAPU holds (10_state.md), the turns the outside world and the execution unit take next, the
reasons a step can stop, and the machine right after reset (R42). -/

namespace Sys2Proof.Machine

/-! ### Registers -/

/-- What a field register holds (R24): a field element in lazy form, or a Mask. -/
inductive Tag where
  | field
  | mask
  deriving DecidableEq, Repr

/-- A field register F0 to F31: {valid, tag, limb[0..N−1]} (R22). -/
structure FieldReg where
  valid : Bool
  tag : Tag
  limbs : Limbs
  deriving DecidableEq, Repr

/-- A curve-parameter register, CA or CD: {valid, limb[0..N−1]}, its tag FIELD implied (R31). -/
structure CurveReg where
  valid : Bool
  limbs : Limbs
  deriving DecidableEq, Repr

/-- A field register after reset (R42): invalid, tag FIELD. The spec leaves its limbs unspecified and unobservable: they are
zero here. DESIGN CHOICE (log entry 3). -/
def FieldReg.atReset (m : ModulusId) : FieldReg :=
  { valid := false, tag := .field, limbs := List.replicate m.limbCount 0 }

/-- CA or CD after reset (R42): invalid. Its limbs, unspecified and unobservable, are zero. DESIGN CHOICE (log entry 3). -/
def CurveReg.atReset (m : ModulusId) : CurveReg :=
  { valid := false, limbs := List.replicate m.limbCount 0 }

/-- The DATA window as (index, byte) pairs: indices strictly rising, none at or above 68, no byte 0x00 listed (R34, R42).
An unlisted index reads as its reset value 0x00. -/
abbrev Memory := List Host.Cell

/-- The interface errors (R162). -/
inductive ErrorCode where
  /-- E_BUSY: a write to CMD, ARG or DATA while a command is in flight (R165). -/
  | busy
  /-- E_ILLEGAL: a CMD word that matches no row of the opcode table (R166). -/
  | illegal
  /-- E_UNINIT: a register the command reads is invalid (R168). -/
  | uninit
  /-- E_TYPE: the tag of a register the command reads does not match its slot (R169). -/
  | type
  /-- E_ARG: BIT with an index at or above n (R170). -/
  | arg
  /-- E_UNSUPPORTED: SQRT where p mod 8 ≠ 5 (R167). -/
  | unsupported
  deriving DecidableEq, Repr

/-! ### The command in flight -/

/-- The values a command will write at completion (R36), in the order they are applied (R189): normalizing write-backs into
source registers, destination registers, CA, CD, RESULT, DATA. An absent part is not written. -/
structure Results where
  writeBacks : List (Slot × FieldReg) := []
  dests : List (Slot × FieldReg) := []
  ca : Option CurveReg := none
  cd : Option CurveReg := none
  result : Option Word := none
  data : Option (List Byte) := none
  deriving DecidableEq, Repr

/-- The in-flight record {op, results} (R36). -/
structure Inflight where
  op : Instr
  results : Results
  deriving DecidableEq, Repr

/-! ### Who moves next -/

/-- One move of an agent (R20). A host access names a physical address and its width in bytes. -/
inductive Turn where
  /-- The host reads: BusRead. -/
  | read (addr bytes : Nat)
  /-- The host writes `value`: BusWrite. -/
  | write (addr bytes : Nat) (value : Word)
  /-- The execution unit takes its one step, *complete*, if a command is in flight (R20, R190). -/
  | complete
  /-- The hardware reset input is asserted (R181). -/
  | hardReset
  deriving DecidableEq, Repr

/-- The whole state. The last two fields are the model's own, not the FAPU's: `agenda` is the turns that are to come, the
next one first, and `readData` is what the last host read returned (log entries 1 and 2). -/
structure State where
  /-- The parameters the instance is built with (R4, R8). No step changes them (R21). -/
  params : Params
  /-- F0 to F31 (R22). P0 to P7 are names of these (R26). -/
  regs : Vector FieldReg 32
  /-- CA, the curve parameter a (R31). -/
  ca : CurveReg
  /-- CD, the curve parameter d (R31). -/
  cd : CurveReg
  /-- ARG (R32). -/
  arg : Word
  /-- RESULT (R33). -/
  result : Word
  /-- DATA[0..67] (R34). -/
  data : Memory
  /-- STATUS.DONE (R35). -/
  done : Bool
  /-- STATUS.ERR (R35). -/
  err : Bool
  /-- STATUS.ECODE (R35). -/
  ecode : BitVec 4
  /-- CTRL.IE (R35). -/
  ie : Bool
  /-- The in-flight state (R36). STATUS.BUSY is 1 exactly when it is not none, so BUSY is not stored a second time. -/
  inflight : Option Inflight
  /-- The turns to come, the next one first. -/
  agenda : List Turn
  /-- What the last host read returned. -/
  readData : Word
  deriving DecidableEq, Repr

/-! ### Reasons to stop -/

/-- The FAPU itself never stops with a fault: its errors are recorded in STATUS and the machine goes on (R161). -/
inductive Fault where
  /-- Raised by a host access whose physical address is outside FAPU_BASE to FAPU_BASE + 0xFFF: no such address exists in
  the host window (R46). Safe: the model stops where the platform would send the access elsewhere. -/
  | outsideWindow
  deriving DecidableEq, Repr

/-- Why the model has no step. -/
inductive Refusal where
  /-- Raised by an arm of `exec` whose command has no meaning yet. Safe. -/
  | notModelled (mnemonic : String)
  /-- Raised by a host access that is not 32 bits wide or whose offset is not a multiple of 4: outside the interface, and "a
  model refuses such an access (it has no step)" (R47). Safe. -/
  | notAlignedWord
  deriving DecidableEq, Repr

/-- The three outcomes of a step. -/
abbrev Outcome := Host.Outcome State Fault Refusal

/-! ### Reset -/

/-- Every piece of state at the value of R42, for an instance built with `q`. -/
def State.resetWith (q : Params) : State where
  params := q
  regs := Vector.replicate 32 (FieldReg.atReset q.modulus)
  ca := CurveReg.atReset q.modulus
  cd := CurveReg.atReset q.modulus
  arg := 0
  result := 0
  data := []
  done := false
  err := false
  ecode := 0
  ie := false
  inflight := none
  agenda := []
  readData := 0

/-- The machine right after reset (R42), as the instance P221 (MODULUS_ID 0) with its window at address 0. The spec takes both
parameters as arguments: the choice of these two is a DESIGN CHOICE (log entry 5). -/
def State.reset : State := State.resetWith { modulus := .p221, basePage := 0 }

end Sys2Proof.Machine
end

