-- ==== Sys2Proof/Machine/Flags.lean ====
section
/-! DEFINITION. STATUS, CTRL and the interrupt: the error codes (60_exceptions.md R162), the words STATUS and CTRL read as
(20_memory.md R52, R53), and irq (10_state.md R37). -/

namespace Sys2Proof.Machine

/-- The code STATUS.ECODE holds for an error (R162). -/
def ErrorCode.code : ErrorCode → BitVec 4
  | .busy => 1
  | .illegal => 2
  | .uninit => 3
  | .type => 4
  | .arg => 5
  | .unsupported => 6

/-- STATUS.BUSY: a command is in flight (R35, R36). -/
def State.busy (s : State) : Bool := s.inflight.isSome

/-- A flag as the number it contributes at bit 0. -/
def bit01 (b : Bool) : Nat := if b then 1 else 0

/-- The word STATUS reads as: BUSY | (DONE << 1) | (ERR << 2) | (ECODE << 8) (R53). -/
def State.statusWord (s : State) : Word :=
  BitVec.ofNat 32 (bit01 s.busy + 2 * bit01 s.done + 4 * bit01 s.err + 256 * s.ecode.toNat)

/-- The word CTRL reads as: IE << 2 (R52). -/
def State.ctrlWord (s : State) : Word := BitVec.ofNat 32 (4 * bit01 s.ie)

/-- The interrupt output, a level: irq = IE ∧ (DONE ∨ ERR) (R37, R175). -/
def State.irq (s : State) : Bool := s.ie && (s.done || s.err)

/-- LEG's RESULT for the canonical value v of x^((p−1)/2): 0 for 0, 1 for 1, and −1 as a 32-bit word for p − 1. There is no
fourth value (R125, R127). -/
def legendreWord (v : Int) : Word :=
  if v = 0 then 0x00000000 else if v = 1 then 0x00000001 else 0xFFFFFFFF

/-- RESULT of EQ and BIT: 0 or 1 (R133, R135). -/
def flagWord (b : Bool) : Word := if b then 1 else 0

end Sys2Proof.Machine
end

