-- ==== Sys2Proof/Machine/Ops.lean ====
section
/-! DEFINITION. The named operations over the state: the DATA window (20_memory.md), the field and point registers
(10_state.md), recording an error and clearing it (60_exceptions.md R164, R172), reset (R181), and the issue and completion
of a command (70_reset_and_hazards.md R186, R189, R190). -/

namespace Sys2Proof.Machine

/-! ### The DATA window -/

/-- The number of bytes of the DATA window (R34). -/
def dataSize : Nat := 68

/-- What a DATA index that is not listed reads as: the reset value 0x00 (R42). -/
def unlistedByte : Byte := 0

/-- Byte j of DATA. -/
def Memory.read : Memory → Nat → Byte
  | [], _ => unlistedByte
  | (b, x) :: m, a => if a = b then x else Memory.read m a

/-- Write byte a of DATA. Writing the value an unlisted index reads as removes the entry, so equal contents are equal lists. -/
def Memory.write : Memory → Nat → Byte → Memory
  | [], a, v => if v = unlistedByte then [] else [(a, v)]
  | (b, x) :: m, a, v =>
    if a < b then (if v = unlistedByte then (b, x) :: m else (a, v) :: (b, x) :: m)
    else if a = b then (if v = unlistedByte then m else (a, v) :: m)
    else (b, x) :: Memory.write m a v

/-- Write consecutive bytes, the first at index a. -/
def Memory.writeBytes (m : Memory) (a : Nat) : List Byte → Memory
  | [] => m
  | v :: vs => (m.write a v).writeBytes (a + 1) vs

/-- The canonical form from index `lo` on: indices strictly rising, below 68, no unlisted value listed. -/
def Memory.wfFrom (lo : Nat) : Memory → Bool
  | [] => true
  | (a, v) :: m => decide (lo ≤ a) && decide (a < dataSize) && !(v == unlistedByte) && Memory.wfFrom (a + 1) m

/-- The canonical form of the DATA window. -/
def Memory.wf (m : Memory) : Bool := Memory.wfFrom 0 m

/-- Byte j of a 32-bit word, byte 0 the least significant (R48). -/
def byteOf (v : Word) (j : Nat) : Byte := BitVec.ofNat 8 (v.toNat >>> (8 * j))

/-- The word DATAw reads as: Σ DATA[4w+j]·2^(8j) (R57). -/
def Memory.readWord (m : Memory) (w : Nat) : Word :=
  BitVec.ofNat 32 ((m.read (4 * w)).toNat + (m.read (4 * w + 1)).toNat * 2 ^ 8 + (m.read (4 * w + 2)).toNat * 2 ^ 16
    + (m.read (4 * w + 3)).toNat * 2 ^ 24)

/-- Write DATAw: DATA[4w+j] becomes byte j of v, j = 0 to 3 (R57). -/
def Memory.writeWord (m : Memory) (w : Nat) (v : Word) : Memory :=
  m.writeBytes (4 * w) [byteOf v 0, byteOf v 1, byteOf v 2, byteOf v 3]

/-- The integer of the k bytes from index a on, little-endian: Σ DATA[a+j]·2^(8j) (R59). -/
def Memory.readInt (m : Memory) (a : Nat) : Nat → Nat
  | 0 => 0
  | k + 1 => (m.read a).toNat + 2 ^ 8 * m.readInt (a + 1) k

/-! ### Registers -/

/-- The configuration of the instance (R4). -/
def State.modulus (s : State) : ModulusId := s.params.modulus

/-- Read field register i. -/
def State.reg (s : State) (i : Slot) : FieldReg := s.regs[i.val]

/-- Write field register i. -/
def State.setReg (s : State) (i : Slot) (r : FieldReg) : State := { s with regs := s.regs.set i.val r i.isLt }

/-- The field register that holds coordinate j (0 X, 1 Y, 2 Z, 3 T) of point register k: F[4k+j] (R26). The point index is
the slot's low 3 bits (R69). -/
def coordSlot (k : Slot) (j : Fin 4) : Slot := ⟨4 * (k.val % 8) + j.val, by omega⟩

/-- Write CA. -/
def State.setCa (s : State) (r : CurveReg) : State := { s with ca := r }

/-- Write CD. -/
def State.setCd (s : State) (r : CurveReg) : State := { s with cd := r }

/-- Write ARG. -/
def State.setArg (s : State) (v : Word) : State := { s with arg := v }

/-- Write RESULT. -/
def State.setResult (s : State) (v : Word) : State := { s with result := v }

/-- Write the DATA window. -/
def State.setData (s : State) (m : Memory) : State := { s with data := m }

/-- Write STATUS.DONE. -/
def State.setDone (s : State) (b : Bool) : State := { s with done := b }

/-- Write STATUS.ERR and STATUS.ECODE together (R35). -/
def State.setError (s : State) (b : Bool) (code : BitVec 4) : State := { s with err := b, ecode := code }

/-- Write CTRL.IE. -/
def State.setIe (s : State) (b : Bool) : State := { s with ie := b }

/-- Write the in-flight state, and with it BUSY. -/
def State.setInflight (s : State) (f : Option Inflight) : State := { s with inflight := f }

/-- Replace the turns to come. -/
def State.setAgenda (s : State) (l : List Turn) : State := { s with agenda := l }

/-- Record what a host read returns. -/
def State.setReadData (s : State) (v : Word) : State := { s with readData := v }

/-! ### Errors: the FAPU's whole exception mechanism (R161, R177) -/

/-- `raise Error(code)` (R164): only the first error since reset or the last ERRCLR is recorded, and nothing else changes. -/
def raiseError (e : ErrorCode) (s : State) : State := if s.err then s else s.setError true e.code

/-- ERRCLR, the way back from an error: ERR and ECODE become 0 and nothing else changes (R172). -/
def clearError (s : State) : State := s.setError false 0

/-! ### Reset (R181, R182) -/

/-- The FAPU's state takes the values of R42. The parameters are not state, and what the host does next and what it has read
are not the FAPU's, so the three stay. -/
def resetFapu (s : State) : State :=
  { State.resetWith s.params with agenda := s.agenda, readData := s.readData }

/-! ### Issue and completion (R186, R189, R190) -/

/-- The order of the checks a CMD write passes before the command's own ones (R163, R186): with ERR = 1 the write is ignored,
with BUSY = 1 it raises E_BUSY, and only otherwise does the rest of the issue procedure run. -/
def gate (s : State) (rest : State) : State :=
  if s.err then s else if s.busy then raiseError .busy s else rest

/-- The issue procedure for a decoded command (R186): behind the gate, the first failing check is raised, and a command that
passes them all is put in flight with the results computed from the state at issue. -/
def issue (op : Instr) (failed : Option ErrorCode) (results : Results) (s : State) : Outcome :=
  .next (gate s (match failed with
    | some e => raiseError e s
    | none => s.setInflight (some { op := op, results := results })))

/-- The issue procedure for a word that matches no row: E_ILLEGAL behind the gate (R166, R186). -/
def issueIllegal (s : State) : Outcome := .next (gate s (raiseError .illegal s))

/-- Write a list of registers, later entries over earlier ones. -/
def State.setRegs (s : State) : List (Slot × FieldReg) → State
  | [] => s
  | (i, r) :: rest => (s.setReg i r).setRegs rest

/-- Write an optional part of the results. -/
def writeIf {α : Type} (f : State → α → State) (v : Option α) (s : State) : State :=
  match v with
  | none => s
  | some x => f s x

/-- Apply the pending writes in the order of R189: write-backs, destinations, CA, CD, RESULT, DATA. -/
def Results.apply (r : Results) (s : State) : State :=
  writeIf (fun s bs => s.setData (s.data.writeBytes 0 bs)) r.data
    (writeIf State.setResult r.result
      (writeIf State.setCd r.cd
        (writeIf State.setCa r.ca
          ((s.setRegs r.writeBacks).setRegs r.dests))))

/-- The completion step (R190): the pending writes, then nothing in flight, BUSY = 0 and DONE = 1. It is enabled only while a
command is in flight. Otherwise the execution unit has no step and nothing changes. -/
def complete (s : State) : State :=
  match s.inflight with
  | none => s
  | some f => ((f.results.apply s).setInflight none).setDone true

end Sys2Proof.Machine
end

