-- ==== Sys2Proof/Machine/Limbs.lean ====
section
/-! DEFINITION. The limb primitives (00_scope.md R13, R15; 40_representation.md R86 to R89; 42_multiply_reduce.md R115;
43_exponentiation.md R120). They work on vectors of integers, limb 0 first, as the pseudocode does: intermediate values are
mathematical integers (R12, R83), and a result is narrowed to 64-bit words only where a register is written. -/

namespace Sys2Proof.Machine

/-! ### Integers -/

/-- 2^k as an integer. -/
def pow2 (k : Nat) : Int := ((2 ^ k : Nat) : Int)

/-- x >> k: floor(x / 2^k), toward minus infinity (R13). -/
def asr (x : Int) (k : Nat) : Int := x / pow2 k

/-- x mod 2^k, in [0, 2^k) (R13). -/
def lowBits (x : Int) (k : Nat) : Int := x % pow2 k

/-- bits(x)[i:i], as 0 or 1 (R13). -/
def bitOf (x : Int) (i : Nat) : Int := asr x i % 2

/-! ### Limb vectors -/

/-- The signed integers a register's words stand for. -/
def toInts (w : Limbs) : List Int := w.map BitVec.toInt

/-- The 64-bit words of a vector of integers. -/
def toLimbs (w : List Int) : Limbs := w.map (BitVec.ofInt 64)

/-- Σ w[i]·2^(B·i). -/
def valueAt (B : Nat) : List Int → Int
  | [] => 0
  | x :: w => x + pow2 B * valueAt B w

/-- V(w) = Σ w[i]·2^(B·i) (R15). -/
def vInt (m : ModulusId) (w : List Int) : Int := valueAt m.limbWidth w

/-- val(w) = V(w) mod p, in [0, p) (R15). -/
def val (m : ModulusId) (w : List Int) : Int := vInt m w % (m.p : Int)

/-- The top limb w[N−1]. -/
def topLimb (w : List Int) : Int := w.getLastD 0

/-- Replace the top limb t by f t. -/
def mapTop (f : Int → Int) : List Int → List Int
  | [] => []
  | [t] => [f t]
  | x :: y :: w => x :: mapTop f (y :: w)

/-- Add k to limb 0. -/
def addLow (k : Int) : List Int → List Int
  | [] => []
  | x :: w => (x + k) :: w

/-- One carry pass from limb 0 upward: each limb but the top one keeps its low B bits and passes the rest to the next. -/
def carryPass (B : Nat) : Int → List Int → List Int
  | _, [] => []
  | q, [t] => [t + q]
  | q, x :: y :: w => lowBits (x + q) B :: carryPass B (asr (x + q) B) (y :: w)

/-- stash(w) = w[N−1] >> T (R88). -/
def stash (m : ModulusId) (w : List Int) : Int := asr (topLimb w) m.topWidth

/-- fold(w) = V(w) − stash(w)·p (R88). -/
def fold (m : ModulusId) (w : List Int) : Int := vInt m w - stash m w * (m.p : Int)

/-- settle(s) (R86): the stash of the combined top limb is folded into limb 0 as c·stash, then one carry pass runs upward. The
top limb is not masked at the end. -/
def settle (m : ModulusId) (s : List Int) : List Int :=
  let cin := stash m s
  carryPass m.limbWidth 0 (addLow (m.c * cin) (mapTop (fun t => t - cin * pow2 m.topWidth) s))

/-- The vector of k limbs of R: every limb but the top one is B bits of R, the top one is the rest. -/
def splitAt (B : Nat) : Nat → Int → List Int
  | 0, _ => []
  | 1, R => [R]
  | k + 2, R => lowBits R B :: splitAt B (k + 1) (asr R B)

/-- split(R) (R87). For x in [0, p) this is canon(x). -/
def split (m : ModulusId) (R : Int) : List Int := splitAt m.limbWidth m.limbCount R

/-- normalize(w) (R89). -/
def normalize (m : ModulusId) (w : List Int) : List Int :=
  let u := settle m w
  let t := settle m (addLow m.c u)
  let k := stash m t
  let U := fold m u
  split m (U - k * (m.p : Int))

/-- reduce(P) (R115): the bits of P from n up come back times c, then one settle. -/
def reduce (m : ModulusId) (P : Int) : List Int :=
  settle m (split m (lowBits P m.n + m.c * asr P m.n))

/-! ### The field primitives (R143) -/

/-- add(x, y) = settle(x + y) (R100). -/
def fieldAdd (m : ModulusId) (x y : List Int) : List Int := settle m (List.zipWith (fun a b => a + b) x y)

/-- sub(x, y) = settle(x − y) (R101). -/
def fieldSub (m : ModulusId) (x y : List Int) : List Int := settle m (List.zipWith (fun a b => a - b) x y)

/-- mul(x, y) = reduce(V(x)·V(y)): only the exact integer product is architectural (R114, R116). -/
def fieldMul (m : ModulusId) (x y : List Int) : List Int := reduce m (vInt m x * vInt m y)

/-- The squaring and multiplying steps of EXP for the exponent bits j − 1 down to 0 (R120). -/
def expSteps (m : ModulusId) (x : List Int) (e : Nat) : Nat → List Int → List Int
  | 0, r => r
  | j + 1, r =>
    let r2 := fieldMul m r r
    expSteps m x e j (if e.testBit j then fieldMul m r2 x else r2)

/-- EXP(x, e) for e > 0 (R120): from ONE, over the bits of e from its most significant one down. -/
def exp (m : ModulusId) (x : List Int) (e : Nat) : List Int := expSteps m x e (e.log2 + 1) (split m 1)

/-! ### Word operations against a Mask (R138 to R140) -/

/-- The word every limb of a Mask holds: all ones for bit 1, all zeros for bit 0 (R25, R137). -/
def maskWord (b : Bool) : Limb := if b then BitVec.allOnes 64 else 0

/-- limb[i] = u[i] AND M[i] (R138). -/
def andWords (u : List Int) (M : Limbs) : List Int :=
  List.zipWith (fun x w => (BitVec.ofInt 64 x &&& w).toInt) u M

/-- limb[i] = u[i] OR v[i] (R139). -/
def orWords (u v : List Int) : List Int :=
  List.zipWith (fun x y => (BitVec.ofInt 64 x ||| BitVec.ofInt 64 y).toInt) u v

/-- limb[i] = (u[i] AND M[i]) OR (v[i] AND NOT M[i]) (R140). -/
def blendWords (u v : List Int) (M : Limbs) : List Int :=
  List.zipWith (fun xy w => ((BitVec.ofInt 64 xy.1 &&& w) ||| (BitVec.ofInt 64 xy.2 &&& ~~~w)).toInt) (List.zip u v) M

/-- csel(x, y, M): x where the mask bit is 1, y where it is 0, both normalized (R140, R143). -/
def fieldCsel (m : ModulusId) (x y : List Int) (M : Limbs) : List Int :=
  blendWords (normalize m x) (normalize m y) M

/-! ### The representation invariants (R25, R28, R29) -/

/-- INV(w) on N limbs (R28): every limb below the top one is in [0, 2^B), the top one strictly between −2^32 and 2^32. -/
def lazyForm (m : ModulusId) (w : List Int) : Bool :=
  w.length == m.limbCount && w.dropLast.all (fun x => decide (0 ≤ x) && decide (x < pow2 m.limbWidth))
    && decide (-pow2 32 < topLimb w) && decide (topLimb w < pow2 32)

/-- The canonical form on N limbs (R29): V(w) < p, the lower limbs in [0, 2^B), the top one in [0, 2^T). -/
def canonical (m : ModulusId) (w : List Int) : Bool :=
  w.length == m.limbCount && w.dropLast.all (fun x => decide (0 ≤ x) && decide (x < pow2 m.limbWidth))
    && decide (0 ≤ topLimb w) && decide (topLimb w < pow2 m.topWidth) && decide (vInt m w < (m.p : Int))

/-! ### Register contents -/

/-- A register record written with a field element: valid, tag FIELD (R14). -/
def fieldReg (w : List Int) : FieldReg := { valid := true, tag := .field, limbs := toLimbs w }

/-- A register record written with a Mask of one bit: valid, tag MASK (R137). -/
def maskReg (m : ModulusId) (b : Bool) : FieldReg :=
  { valid := true, tag := .mask, limbs := List.replicate m.limbCount (maskWord b) }

/-- A curve-parameter register written with a limb vector: valid (R144, R145). -/
def curveReg (w : Limbs) : CurveReg := { valid := true, limbs := w }

end Sys2Proof.Machine
end

