-- ==== Sys2Proof/Machine/Operands.lean ====
section
/-! DEFINITION. Every operand form: the sources a command names in its slots (30_encoding.md R69), the checks on them
(60_exceptions.md R168, R169), the operands that come from ARG and DATA (R70), and the pending writes of each destination
form (70_reset_and_hazards.md R189). -/

namespace Sys2Proof.Machine

/-! ### Sources -/

/-- A register or group of registers a command reads. -/
inductive Source where
  /-- an R slot: a field register of either tag (MOV). -/
  | any (i : Slot)
  /-- an F slot: a field register with tag FIELD. -/
  | field (i : Slot)
  /-- an M slot: a field register with tag MASK. -/
  | mask (i : Slot)
  /-- a P slot: the four field registers of a point, each with tag FIELD. -/
  | point (k : Slot)
  /-- CA and CD, read by PADD, PDBL, PTPL and PMUL. -/
  | curve
  deriving DecidableEq, Repr

/-- The four field registers of point k (R26). -/
def coordSlots (k : Slot) : List Slot := [coordSlot k 0, coordSlot k 1, coordSlot k 2, coordSlot k 3]

/-- Every register of the source has valid = 1 (R168). -/
def Source.valid (s : State) : Source → Bool
  | .any i | .field i | .mask i => (s.reg i).valid
  | .point k => (coordSlots k).all (fun i => (s.reg i).valid)
  | .curve => s.ca.valid && s.cd.valid

/-- Every register of the source has the tag its slot needs (R169). CA and CD have the implied tag FIELD (R31). -/
def Source.typed (s : State) : Source → Bool
  | .any _ => true
  | .field i => (s.reg i).tag == .field
  | .mask i => (s.reg i).tag == .mask
  | .point k => (coordSlots k).all (fun i => (s.reg i).tag == .field)
  | .curve => true

/-- The operand check that fails first, if any: E_UNINIT for an invalid source, then E_TYPE for a wrong tag (R163). -/
def operandError (sources : List Source) (s : State) : Option ErrorCode :=
  if sources.all (Source.valid s) then
    if sources.all (Source.typed s) then none else some .type
  else some .uninit

/-- The limb vector of field register i, as integers. -/
def State.ints (s : State) (i : Slot) : List Int := toInts (s.reg i).limbs

/-- A point as four limb vectors (R143). -/
structure Point where
  X : List Int
  Y : List Int
  Z : List Int
  T : List Int
  deriving DecidableEq, Repr

/-- P[k] (R26). -/
def State.point (s : State) (k : Slot) : Point :=
  { X := s.ints (coordSlot k 0), Y := s.ints (coordSlot k 1), Z := s.ints (coordSlot k 2), T := s.ints (coordSlot k 3) }

/-- CA's limb vector, as integers. -/
def State.caInts (s : State) : List Int := toInts s.ca.limbs

/-- CD's limb vector, as integers. -/
def State.cdInts (s : State) : List Int := toInts s.cd.limbs

/-! ### Operands outside the command word (R70) -/

/-- k = sext_32(ARG), for SADD, SSUB and SMUL. -/
def State.smallOperand (s : State) : Int := s.arg.toInt

/-- idx = zext_32(ARG), for BIT. -/
def State.bitIndex (s : State) : Nat := s.arg.toNat

/-- bit = bits(ARG)[0:0], for FILL. -/
def State.fillBit (s : State) : Bool := s.arg.getLsbD 0

/-- X = Σ DATA[j]·2^(8j) over j < nb, for UNPACK (R94). -/
def State.packedInteger (s : State) : Nat := s.data.readInt 0 s.modulus.byteCount

/-- pack_bytes(x) (R95): byte j of x for j < nb, zero for nb ≤ j ≤ 67. -/
def packBytes (m : ModulusId) (x : Int) : List Byte :=
  (List.range dataSize).map (fun j => if j < m.byteCount then BitVec.ofInt 8 (asr x (8 * j)) else 0)

/-! ### Destinations -/

/-- F[d] <- w. -/
def writeField (d : Slot) (w : List Int) : List (Slot × FieldReg) := [(d, fieldReg w)]

/-- P[d] <- Q: all four registers are written (R26). -/
def writePoint (d : Slot) (Q : Point) : List (Slot × FieldReg) :=
  [(coordSlot d 0, fieldReg Q.X), (coordSlot d 1, fieldReg Q.Y), (coordSlot d 2, fieldReg Q.Z), (coordSlot d 3, fieldReg Q.T)]

end Sys2Proof.Machine
end

