-- ==== Sys2Proof/Machine/AddSub.lean ====
section
/-! DEFINITION. Addition, subtraction, negation and the small-operand commands (41_add_sub.md R99 to R105): ADD, SUB, NEG, SADD,
SSUB, SMUL. Each forms a vector of integers limb by limb and settles it once. -/

namespace Sys2Proof.Machine

/-- ADD Fd, Fa, Fb (R100). -/
def execAdd (d a b : Slot) (s : State) : Outcome :=
  issue (.add d a b) (operandError [.field a, .field b] s)
    { dests := writeField d (fieldAdd s.modulus (s.ints a) (s.ints b)) } s

/-- SUB Fd, Fa, Fb (R101). -/
def execSub (d a b : Slot) (s : State) : Outcome :=
  issue (.sub d a b) (operandError [.field a, .field b] s)
    { dests := writeField d (fieldSub s.modulus (s.ints a) (s.ints b)) } s

/-- NEG Fd, Fa (R102): MODULUS − x. -/
def execNeg (d a : Slot) (s : State) : Outcome :=
  issue (.neg d a) (operandError [.field a] s)
    { dests := writeField d (fieldSub s.modulus (split s.modulus s.modulus.p) (s.ints a)) } s

/-- SADD Fd, Fa (R103): k is added to limb 0. -/
def execSadd (d a : Slot) (s : State) : Outcome :=
  issue (.sadd d a) (operandError [.field a] s)
    { dests := writeField d (settle s.modulus (addLow s.smallOperand (s.ints a))) } s

/-- SSUB Fd, Fa (R104): k is subtracted from limb 0, on integers. -/
def execSsub (d a : Slot) (s : State) : Outcome :=
  issue (.ssub d a) (operandError [.field a] s)
    { dests := writeField d (settle s.modulus (addLow (-s.smallOperand) (s.ints a))) } s

/-- SMUL Fd, Fa (R105): every limb is multiplied by k. -/
def execSmul (d a : Slot) (s : State) : Outcome :=
  issue (.smul d a) (operandError [.field a] s)
    { dests := writeField d (settle s.modulus ((s.ints a).map (fun x => x * s.smallOperand))) } s

end Sys2Proof.Machine
end

