-- ==== Sys2Proof/Machine/Curve.lean ====
section
/-! DEFINITION. The curve parameters, the point commands and the scalar ladder (45_curve.md R143 to R159): SETA, SETD, PZERO,
PINIT, PADD, PDBL, PTPL, PMUL. No input is checked for lying on the curve (R153). -/

namespace Sys2Proof.Machine

/-- SETA Fa (R144): CA <- F[a], limbs and stash copied. -/
def execSeta (a : Slot) (s : State) : Outcome :=
  issue (.seta a) (operandError [.field a] s) { ca := some (curveReg (s.reg a).limbs) } s

/-- SETD Fa (R145): CD <- F[a], limbs and stash copied. -/
def execSetd (a : Slot) (s : State) : Outcome :=
  issue (.setd a) (operandError [.field a] s) { cd := some (curveReg (s.reg a).limbs) } s

/-- The identity (0, 1, 1, 0) (R146, 90_conflicts.md C2). -/
def identityPoint (m : ModulusId) : Point := { X := split m 0, Y := split m 1, Z := split m 1, T := split m 0 }

/-- PZERO Pd (R146). -/
def execPzero (d : Slot) (s : State) : Outcome :=
  issue (.pzero d) none { dests := writePoint d (identityPoint s.modulus) } s

/-- The affine lift (x, y, 1, x·y) (R147, 90_conflicts.md C2). -/
def liftPoint (m : ModulusId) (x y : List Int) : Point := { X := x, Y := y, Z := split m 1, T := fieldMul m x y }

/-- PINIT Pd, Fa, Fb (R147). -/
def execPinit (d a b : Slot) (s : State) : Outcome :=
  issue (.pinit d a b) (operandError [.field a, .field b] s)
    { dests := writePoint d (liftPoint s.modulus (s.ints a) (s.ints b)) } s

/-- (E·F, G·H, F·G, E·H), the coordinates both point formulas end with (R148, R150). -/
def productPoint (m : ModulusId) (E F G H : List Int) : Point :=
  { X := fieldMul m E F, Y := fieldMul m G H, Z := fieldMul m F G, T := fieldMul m E H }

/-- padd(P1, P2) with the curve parameters CA, CD (R148). -/
def pointAdd (m : ModulusId) (ca cd : List Int) (P1 P2 : Point) : Point :=
  let A := fieldMul m P1.X P2.X
  let Bq := fieldMul m P1.Y P2.Y
  let C := fieldMul m (fieldMul m P1.T cd) P2.T
  let Dz := fieldMul m P1.Z P2.Z
  let E := fieldSub m (fieldSub m (fieldMul m (fieldAdd m P1.X P1.Y) (fieldAdd m P2.X P2.Y)) A) Bq
  let F := fieldSub m Dz C
  let G := fieldAdd m Dz C
  let H := fieldSub m Bq (fieldMul m ca A)
  productPoint m E F G H

/-- pdbl(P1) with the curve parameter CA (R150). T1 is not read. -/
def pointDouble (m : ModulusId) (ca : List Int) (P1 : Point) : Point :=
  let A := fieldMul m P1.X P1.X
  let Bq := fieldMul m P1.Y P1.Y
  let zz := fieldMul m P1.Z P1.Z
  let C := fieldAdd m zz zz
  let Dd := fieldMul m ca A
  let t := fieldAdd m P1.X P1.Y
  let E := fieldSub m (fieldSub m (fieldMul m t t) A) Bq
  let G := fieldAdd m Dd Bq
  let F := fieldSub m G C
  let H := fieldSub m Dd Bq
  productPoint m E F G H

/-- PADD Pd, Pa, Pb (R149). -/
def execPadd (d a b : Slot) (s : State) : Outcome :=
  issue (.padd d a b) (operandError [.point a, .point b, .curve] s)
    { dests := writePoint d (pointAdd s.modulus s.caInts s.cdInts (s.point a) (s.point b)) } s

/-- PDBL Pd, Pa (R151). -/
def execPdbl (d a : Slot) (s : State) : Outcome :=
  issue (.pdbl d a) (operandError [.point a, .curve] s)
    { dests := writePoint d (pointDouble s.modulus s.caInts (s.point a)) } s

/-- PTPL Pd, Pa (R152): padd(pdbl(P), P). -/
def execPtpl (d a : Slot) (s : State) : Outcome :=
  issue (.ptpl d a) (operandError [.point a, .curve] s)
    { dests := writePoint d
        (pointAdd s.modulus s.caInts s.cdInts (pointDouble s.modulus s.caInts (s.point a)) (s.point a)) } s

/-- csel on each coordinate: P where the mask bit is 1, Q where it is 0 (R155). -/
def pointCsel (m : ModulusId) (P Q : Point) (M : Limbs) : Point :=
  { X := fieldCsel m P.X Q.X M, Y := fieldCsel m P.Y Q.Y M, Z := fieldCsel m P.Z Q.Z M, T := fieldCsel m P.T Q.T M }

/-- One ladder step with the mask M of the scalar's bit (R155): both doublings and the sum are formed whatever the bit, and
the pair becomes (r0 + r1, 2·r1) for bit 1 and (2·r0, r0 + r1) for bit 0. -/
def ladderStep (m : ModulusId) (ca cd : List Int) (M : Limbs) (r : Point × Point) : Point × Point :=
  let d0 := pointDouble m ca r.1
  let d1 := pointDouble m ca r.2
  let s := pointAdd m ca cd r.1 r.2
  (pointCsel m s d0 M, pointCsel m d1 s M)

/-- The ladder steps for the bits i − 1 down to 0 of the scalar K (R154, R159). -/
def ladderSteps (m : ModulusId) (ca cd : List Int) (K : Int) : Nat → Point × Point → Point × Point
  | 0, r => r
  | i + 1, r =>
    ladderSteps m ca cd K i (ladderStep m ca cd (List.replicate m.limbCount (maskWord (bitOf K i == 1))) r)

/-- The ladder from r0 = the identity and r1 = P, over all n bits: its result is r0 (R156, R157). -/
def ladder (m : ModulusId) (ca cd : List Int) (K : Int) (P : Point) : Point :=
  (ladderSteps m ca cd K m.n (identityPoint m, P)).1

/-- PMUL Pd, Pa, Fb (R159): the scalar is normalized, written back, and drives the ladder. -/
def execPmul (d a b : Slot) (s : State) : Outcome :=
  let K := normalize s.modulus (s.ints b)
  issue (.pmul d a b) (operandError [.point a, .field b, .curve] s)
    { writeBacks := writeField b K
      dests := writePoint d (ladder s.modulus s.caInts s.cdInts (vInt s.modulus K) (s.point a)) } s

end Sys2Proof.Machine
end

