-- ==== Sys2Proof/Machine/Exponent.lean ====
section
/-! DEFINITION. The fixed-exponent commands (43_exponentiation.md R122 to R129): INV, DIV, LEG, SQRT. -/

namespace Sys2Proof.Machine

/-- e_inv = p − 2 (R122). -/
def invExponent (m : ModulusId) : Nat := m.p - 2

/-- e_leg = (p − 1)/2 (R122). -/
def legExponent (m : ModulusId) : Nat := (m.p - 1) / 2

/-- e_sq = (p + 3)/8 (R122). -/
def sqrtExponent (m : ModulusId) : Nat := (m.p + 3) / 8

/-- e_qr = (p − 1)/4 (R122). -/
def quarticExponent (m : ModulusId) : Nat := (m.p - 1) / 4

/-- INV Fd, Fa (R123). The inverse of zero is 0, with no error. -/
def execInv (d a : Slot) (s : State) : Outcome :=
  issue (.inv d a) (operandError [.field a] s)
    { dests := writeField d (exp s.modulus (s.ints a) (invExponent s.modulus)) } s

/-- DIV Fd, Fa, Fb (R124): the limb vector of INV followed by MUL. -/
def execDiv (d a b : Slot) (s : State) : Outcome :=
  issue (.div d a b) (operandError [.field a, .field b] s)
    { dests := writeField d
        (fieldMul s.modulus (s.ints a) (exp s.modulus (s.ints b) (invExponent s.modulus))) } s

/-- LEG Fd, Fa (R125): the canonical value of x^((p−1)/2), and RESULT = 0, 1 or −1. -/
def execLeg (d a : Slot) (s : State) : Outcome :=
  let w := normalize s.modulus (exp s.modulus (s.ints a) (legExponent s.modulus))
  issue (.leg d a) (operandError [.field a] s)
    { dests := writeField d w, result := some (legendreWord (vInt s.modulus w)) } s

/-- The SQRT correction constant I = 2^((p−1)/4) mod p, in the configurations that have SQRT (R128). A configuration without
SQRT has no such constant, and 0 stands in its place: no command reads it there. -/
def sqrtConstant : ModulusId → Nat
  | .p221 => 0x8c06d788863cdd6e73800ee6c4e4e461267b23c06b158a371015618
  | .p255 => 0x2b8324804fc1df0b2b4d00993dfbd7a72f431806ad2fe478c4ee1b274a0ea0b0
  | .p222 | .p251 | .p382 | .p414 | .p521 => 0

/-- SQRT's limb vector (R129): β = x^((p+3)/8) where x^((p−1)/4) is 1, and β·I otherwise, normalized. -/
def fieldSqrt (m : ModulusId) (x : List Int) : List Int :=
  let beta := exp m x (sqrtExponent m)
  let q := normalize m (exp m x (quarticExponent m))
  let alt := fieldMul m beta (split m (sqrtConstant m))
  if vInt m q = 1 then normalize m beta else normalize m alt

/-- SQRT Fd, Fa (R129): E_UNSUPPORTED where p mod 8 ≠ 5, before the operand checks (R163). -/
def execSqrt (d a : Slot) (s : State) : Outcome :=
  issue (.sqrt d a)
    (if s.modulus.hasSqrt then operandError [.field a] s else some .unsupported)
    { dests := writeField d (fieldSqrt s.modulus (s.ints a)) } s

end Sys2Proof.Machine
end

