-- ==== Sys2Proof/Machine/Movement.lean ====
section
/-! DEFINITION. Data movement (40_representation.md R91 to R97): NOP, LDC, MOV, UNPACK, PACK, NORM. -/

namespace Sys2Proof.Machine

/-- NOP (R91): no results. -/
def execNop (s : State) : Outcome := issue .nop none {} s

/-- MOV Fd, Fa (R93): limbs and tag are copied, stash included. -/
def execMov (d a : Slot) (s : State) : Outcome :=
  issue (.mov d a) (operandError [.any a] s) { dests := [(d, s.reg a)] } s

/-- The integer an LDC selector names: ZERO, ONE, M_ONE (= p − 1), MODULUS (= p), by the slot's low 2 bits (R92). -/
def selectedConstant (m : ModulusId) (k : Slot) : Int :=
  match k.val % 4 with
  | 0 => 0
  | 1 => 1
  | 2 => (m.p : Int) - 1
  | _ => (m.p : Int)

/-- LDC Fd, #sel (R92). -/
def execLdc (d k : Slot) (s : State) : Outcome :=
  issue (.ldc d k) none { dests := writeField d (split s.modulus (selectedConstant s.modulus k)) } s

/-- UNPACK Fd (R94): no range check and no reduction. -/
def execUnpack (d : Slot) (s : State) : Outcome :=
  issue (.unpack d) none { dests := writeField d (split s.modulus s.packedInteger) } s

/-- PACK Fa (R96): normalize, write back, and write all 68 bytes of DATA. -/
def execPack (a : Slot) (s : State) : Outcome :=
  let w := normalize s.modulus (s.ints a)
  issue (.pack a) (operandError [.field a] s)
    { writeBacks := writeField a w, data := some (packBytes s.modulus (vInt s.modulus w)) } s

/-- NORM Fd (R97): slot d is source and destination. -/
def execNorm (d : Slot) (s : State) : Outcome :=
  issue (.norm d) (operandError [.field d] s) { dests := writeField d (normalize s.modulus (s.ints d)) } s

end Sys2Proof.Machine
end

