-- ==== Sys2Proof/Machine/Multiply.lean ====
section
/-! DEFINITION. The multiply-reduce commands (42_multiply_reduce.md R114 to R117): MUL, SQR. -/

namespace Sys2Proof.Machine

/-- MUL Fd, Fa, Fb (R116). -/
def execMul (d a b : Slot) (s : State) : Outcome :=
  issue (.mul d a b) (operandError [.field a, .field b] s)
    { dests := writeField d (fieldMul s.modulus (s.ints a) (s.ints b)) } s

/-- SQR Fd, Fa (R117): the limb vector of MUL Fd, Fa, Fa. -/
def execSqr (d a : Slot) (s : State) : Outcome :=
  issue (.sqr d a) (operandError [.field a] s)
    { dests := writeField d (fieldMul s.modulus (s.ints a) (s.ints a)) } s

end Sys2Proof.Machine
end

