-- ==== Sys2Proof/Machine/Select.lean ====
section
/-! DEFINITION. Equality, bit extraction, masks and selection (44_compare_select.md R131 to R140): EQ, BIT, FILL, ANDM, ORM,
CSEL. The normalized sources are written back before the destination (R131, R189). -/

namespace Sys2Proof.Machine

/-- EQ Fa, Fb (R133): RESULT is 1 when the normalized vectors are equal limb for limb. -/
def execEq (a b : Slot) (s : State) : Outcome :=
  let u := normalize s.modulus (s.ints a)
  let v := normalize s.modulus (s.ints b)
  issue (.eq a b) (operandError [.field a, .field b] s)
    { writeBacks := writeField a u ++ writeField b v, result := some (flagWord (u == v)) } s

/-- BIT's result: bit (idx mod B) of limb (idx / B) of the canonical vector (R135). -/
def limbBit (m : ModulusId) (u : List Int) (idx : Nat) : Int :=
  bitOf (u.getD (idx / m.limbWidth) 0) (idx % m.limbWidth)

/-- BIT Fa (R135, R136): E_ARG when idx ≥ n, after the operand checks. -/
def execBit (a : Slot) (s : State) : Outcome :=
  let u := normalize s.modulus (s.ints a)
  issue (.bit a)
    ((operandError [.field a] s).or (if s.bitIndex < s.modulus.n then none else some .arg))
    { writeBacks := writeField a u, result := some (flagWord (limbBit s.modulus u s.bitIndex == 1)) } s

/-- FILL Fd (R137): a Mask of bit 0 of ARG. -/
def execFill (d : Slot) (s : State) : Outcome :=
  issue (.fill d) none { dests := [(d, maskReg s.modulus s.fillBit)] } s

/-- ANDM Fd, Fa, Fm (R138). -/
def execAndm (d a m : Slot) (s : State) : Outcome :=
  let u := normalize s.modulus (s.ints a)
  issue (.andm d a m) (operandError [.field a, .mask m] s)
    { writeBacks := writeField a u, dests := writeField d (andWords u (s.reg m).limbs) } s

/-- ORM Fd, Fa, Fb (R139): two field values, not a Mask (90_conflicts.md C12). -/
def execOrm (d a b : Slot) (s : State) : Outcome :=
  let u := normalize s.modulus (s.ints a)
  let v := normalize s.modulus (s.ints b)
  issue (.orm d a b) (operandError [.field a, .field b] s)
    { writeBacks := writeField a u ++ writeField b v, dests := writeField d (orWords u v) } s

/-- CSEL Fd, Fa, Fb, Fm (R140): a where the mask bit is 1, b where it is 0. -/
def execCsel (d a b m : Slot) (s : State) : Outcome :=
  let u := normalize s.modulus (s.ints a)
  let v := normalize s.modulus (s.ints b)
  issue (.csel d a b m) (operandError [.field a, .field b, .mask m] s)
    { writeBacks := writeField a u ++ writeField b v, dests := writeField d (blendWords u v (s.reg m).limbs) } s

end Sys2Proof.Machine
end

