-- ==== Sys2Proof/Machine/Dispatch.lean ====
section
/-! DEFINITION. The meaning of each command: one arm per constructor of Instr, in the order of the opcode table (R72). -/

namespace Sys2Proof.Machine

def exec (i : Instr) (s : State) : Host.Outcome State Fault Refusal :=
  match i with
  | .nop => Sys2Proof.Machine.execNop s
  | .mov d a => Sys2Proof.Machine.execMov d a s
  | .ldc d k => Sys2Proof.Machine.execLdc d k s
  | .unpack d => Sys2Proof.Machine.execUnpack d s
  | .pack a => Sys2Proof.Machine.execPack a s
  | .norm d => Sys2Proof.Machine.execNorm d s
  | .add d a b => Sys2Proof.Machine.execAdd d a b s
  | .sub d a b => Sys2Proof.Machine.execSub d a b s
  | .neg d a => Sys2Proof.Machine.execNeg d a s
  | .sadd d a => Sys2Proof.Machine.execSadd d a s
  | .ssub d a => Sys2Proof.Machine.execSsub d a s
  | .smul d a => Sys2Proof.Machine.execSmul d a s
  | .mul d a b => Sys2Proof.Machine.execMul d a b s
  | .sqr d a => Sys2Proof.Machine.execSqr d a s
  | .inv d a => Sys2Proof.Machine.execInv d a s
  | .div d a b => Sys2Proof.Machine.execDiv d a b s
  | .leg d a => Sys2Proof.Machine.execLeg d a s
  | .sqrt d a => Sys2Proof.Machine.execSqrt d a s
  | .eq a b => Sys2Proof.Machine.execEq a b s
  | .bit a => Sys2Proof.Machine.execBit a s
  | .fill d => Sys2Proof.Machine.execFill d s
  | .andm d a m => Sys2Proof.Machine.execAndm d a m s
  | .orm d a b => Sys2Proof.Machine.execOrm d a b s
  | .csel d a b m => Sys2Proof.Machine.execCsel d a b m s
  | .seta a => Sys2Proof.Machine.execSeta a s
  | .setd a => Sys2Proof.Machine.execSetd a s
  | .pzero d => Sys2Proof.Machine.execPzero d s
  | .pinit d a b => Sys2Proof.Machine.execPinit d a b s
  | .padd d a b => Sys2Proof.Machine.execPadd d a b s
  | .pdbl d a => Sys2Proof.Machine.execPdbl d a s
  | .ptpl d a => Sys2Proof.Machine.execPtpl d a s
  | .pmul d a b => Sys2Proof.Machine.execPmul d a b s

end Sys2Proof.Machine
end

