-- ==== Sys2Proof/Machine/Bus.lean ====
section
/-! DEFINITION. The host register window (20_memory.md R45 to R58): which accesses the FAPU takes, the register map (R49), what
each read returns and what each write does. -/

namespace Sys2Proof.Machine

/-- The word a read of the window at byte offset `off` returns (R49 to R58). Reserved offsets and CMD read as 0. -/
def readWindow (off : Nat) (s : State) : Word :=
  if off = 0x000 then BitVec.ofNat 32 (0x46500100 + s.modulus.number)
  else if off = 0x004 then s.ctrlWord
  else if off = 0x008 then s.statusWord
  else if off = 0x010 then s.arg
  else if off = 0x014 then s.result
  else if off = 0x018 then BitVec.ofNat 32 s.modulus.n
  else if off = 0x01C then BitVec.ofNat 32 s.modulus.c
  else if off = 0x020 then BitVec.ofNat 32 s.modulus.byteCount
  else if 0x040 ≤ off ∧ off ≤ 0x080 then s.data.readWord ((off - 0x040) / 4)
  else 0

/-- A CTRL write (R52): SRST resets and the other bits are ignored; otherwise ERRCLR clears the error and IE takes bit 2. -/
def writeCtrl (v : Word) (s : State) : State :=
  if v.getLsbD 0 then resetFapu s
  else (if v.getLsbD 1 then clearError s else s).setIe (v.getLsbD 2)

/-- A STATUS write (R53): bit 1 clears DONE, the other bits are ignored. -/
def writeStatus (v : Word) (s : State) : State := if v.getLsbD 1 then s.setDone false else s

/-- A CMD write (R54): the issue procedure of R186. The decoded command's own issue procedure is its `exec`. -/
def writeCmd (v : Word) (s : State) : Outcome :=
  match decode v with
  | .ok i => exec i s
  | .error _ => issueIllegal s

/-- An ARG or DATA write with BUSY = 1 is discarded and raises E_BUSY; with BUSY = 0 it is accepted, ERR = 1 or not (R55,
R57, R165, R171). -/
def unlessBusy (s accepted : State) : State := if s.busy then raiseError .busy s else accepted

/-- An ARG write (R55). -/
def writeArg (v : Word) (s : State) : State := unlessBusy s (s.setArg v)

/-- A write of DATAw (R57). -/
def writeData (w : Nat) (v : Word) (s : State) : State := unlessBusy s (s.setData (s.data.writeWord w v))

/-- A write of the window at byte offset `off` (R49 to R57). A write to a read-only or reserved offset has no effect (R50). -/
def writeWindow (off : Nat) (v : Word) (s : State) : Outcome :=
  if off = 0x004 then .next (writeCtrl v s)
  else if off = 0x008 then .next (writeStatus v s)
  else if off = 0x00C then writeCmd v s
  else if off = 0x010 then .next (writeArg v s)
  else if 0x040 ≤ off ∧ off ≤ 0x080 then .next (writeData ((off - 0x040) / 4) v s)
  else .next s

/-- The physical address is in the window FAPU_BASE to FAPU_BASE + 0xFFF (R46). -/
def inWindow (s : State) (addr : Nat) : Bool := addr / 4096 == s.params.basePage

/-- The offset the FAPU decodes: bits [11:0] of the address (R46). -/
def windowOffset (addr : Nat) : Nat := addr % 4096

/-- A host access the interface has: in the window, 32 bits wide, at an offset that is a multiple of 4 (R46, R47). Otherwise
the model has no step. -/
def hostAccess (addr bytes : Nat) (s : State) (effect : Nat → Outcome) : Outcome :=
  if inWindow s addr then
    if bytes = 4 ∧ windowOffset addr % 4 = 0 then effect (windowOffset addr) else .refused .notAlignedWord
  else .fault .outsideWindow

/-- BusRead: the state of the FAPU does not change (R50, R58); the host receives the word. -/
def busRead (addr bytes : Nat) (s : State) : Outcome :=
  hostAccess addr bytes s (fun off => .next (s.setReadData (readWindow off s)))

/-- BusWrite. -/
def busWrite (addr bytes : Nat) (v : Word) (s : State) : Outcome :=
  hostAccess addr bytes s (fun off => writeWindow off v s)

/-- One turn of an agent (R20), or the hardware reset input (R181). -/
def takeTurn (t : Turn) (s : State) : Outcome :=
  match t with
  | .read addr bytes => busRead addr bytes s
  | .write addr bytes v => busWrite addr bytes v s
  | .complete => .next (complete s)
  | .hardReset => .next (resetFapu s)

/-- The address of the CMD register (R49). -/
def cmdAddress (s : State) : Nat := s.params.base + 0x00C

end Sys2Proof.Machine
end

