-- ==== Sys2Proof/Machine/Step.lean ====
section
/-! DEFINITION. One step: the next turn of the agenda, or, when no host access is to come, the execution unit's own step.
A command reaches the FAPU as a write of CMD (10_state.md R41), so the place a "fetch" reads is the head of the agenda. -/

namespace Sys2Proof.Machine

/-- One step of the machine (R20). With no turn to come the execution unit still completes the command in flight, since a
command in flight completes after finitely many host steps (R194); with none in flight the machine idles. -/
def step (s : State) : Host.Outcome State Fault Refusal :=
  match s.agenda with
  | [] => .next (complete s)
  | t :: rest => takeTurn t (s.setAgenda rest)

/-- The state in which the host's next access is the write of the command word `w` to CMD, so that the very next step issues
it (log entry 6). `w` is the instruction's `nbits` bits, the bits above them zero. -/
def State.withFetchWord (s : State) (nbits w : Nat) : State :=
  s.setAgenda (.write (cmdAddress s) 4 (BitVec.ofNat 32 (w % 2 ^ nbits)) :: s.agenda)

end Sys2Proof.Machine
end

