-- ==== Sys2Proof/Safety.lean ====
section
/-! DEFINITION. The terms claims are stated in: the invariant of the reachable states, when the FAPU takes a command, what its
operands must hold, which registers the spec says a command reads and writes, what a register holds afterwards, and the point
formulas over a commutative ring. -/

namespace Sys2Proof.Machine

/-! ### The invariant (10_state.md R25, R28, R35) -/

/-- What a field register may hold: N limbs, and when it is valid a lazy-form vector (tag FIELD) or a Mask (tag MASK). -/
def FieldReg.ok (m : ModulusId) (r : FieldReg) : Bool :=
  r.limbs.length == m.limbCount &&
    (!r.valid || match r.tag with
      | .field => lazyForm m (toInts r.limbs)
      | .mask => r.limbs == List.replicate m.limbCount (maskWord true) || r.limbs == List.replicate m.limbCount (maskWord false))

/-- What CA and CD may hold: N limbs, in lazy form when valid. -/
def CurveReg.ok (m : ModulusId) (r : CurveReg) : Bool :=
  r.limbs.length == m.limbCount && (!r.valid || lazyForm m (toInts r.limbs))

/-- What the results of a command in flight may be: every pending register is valid and holds what a register may hold, and a
pending DATA is the whole window. -/
def Results.ok (m : ModulusId) (r : Results) : Bool :=
  (r.writeBacks ++ r.dests).all (fun w => w.2.ok m && w.2.valid) &&
    r.ca.all (fun c => c.ok m && c.valid) && r.cd.all (fun c => c.ok m && c.valid) &&
    r.data.all (fun bs => bs.length == dataSize)

/-- The invariant of every reachable state: registers and pending results hold what they may, DATA is canonical, the command in
flight is well formed, and ECODE is one of the codes 1 to 6 when ERR = 1 and 0 when ERR = 0. -/
structure State.Inv (s : State) : Prop where
  regs : ∀ i, (s.reg i).ok s.modulus = true
  ca : s.ca.ok s.modulus = true
  cd : s.cd.ok s.modulus = true
  data : s.data.wf = true
  inflight : s.inflight.all (fun f => f.op.wellFormed && f.results.ok s.modulus) = true
  ecode : if s.err then 1 ≤ s.ecode.toNat ∧ s.ecode.toNat ≤ 6 else s.ecode = 0

/-! ### Safe runs -/

/-- A faulted run: ERR = 1, a command the host meant to issue did not issue (R173). -/
def State.Faulted (s : State) : Prop := s.err = true

/-- The FAPU takes the next command: no error recorded and no command in flight (R186). -/
def State.Ready (s : State) : Prop := s.err = false ∧ s.inflight = none

/-- `t` is `s` with the command `i` accepted: only the in-flight state differs, and it holds `i` (R186). -/
def Accepted (i : Instr) (s t : State) : Prop := ∃ r, t = s.setInflight (some { op := i, results := r })

/-- The command `i` issued in `s` is accepted, and the execution unit's next step, the completion, gives `u`: the command's own
effect (R186, R190). -/
def Runs (i : Instr) (s u : State) : Prop := ∃ t, exec i s = .next t ∧ Accepted i s t ∧ complete t = u

/-- Two outcomes of the same kind: both a next state, and the two are related; or both a stop for the same reason. -/
def SameOutcome (rel : State → State → Prop) : Outcome → Outcome → Prop
  | .next u, .next v => rel u v
  | .fault a, .fault b => a = b
  | .refused a, .refused b => a = b
  | .next _, .fault _ | .next _, .refused _ | .fault _, .next _ | .fault _, .refused _ | .refused _, .next _
  | .refused _, .fault _ => False

/-- Every piece of state the spec gives the FAPU holds its reset value (R42). The limbs of the registers, which R42 leaves
unspecified, are not named. -/
structure AtReset (u : State) : Prop where
  regs : ∀ i, (u.reg i).valid = false ∧ (u.reg i).tag = .field
  ca : u.ca.valid = false
  cd : u.cd.valid = false
  arg : u.arg = 0x00000000
  result : u.result = 0x00000000
  data : ∀ j, u.data.read j = 0x00
  busy : u.busy = false
  done : u.done = false
  err : u.err = false
  ecode : u.ecode = 0
  ie : u.ie = false
  inflight : u.inflight = none
  irq : u.irq = false

/-! ### The slots of each opcode (30_encoding.md R69, R72, R74) -/

/-- The kinds of slot of R69: F, R, M, P, K and "-". -/
inductive SlotKind where
  | field
  | any
  | mask
  | point
  | selector
  | unused
  deriving DecidableEq, Repr

/-- The values a slot of the kind may hold (R69): an unused slot 0, a point slot 0 to 7, the selector slot 0 to 3, any other 0 to
31. -/
def SlotKind.admits : SlotKind → Slot → Bool
  | .unused, k => k == 0
  | .point, k => decide (k.val < 8)
  | .selector, k => decide (k.val < 4)
  | .field, _ | .any, _ | .mask, _ => true

/-- The columns "op" and "d a b m" of a row of R72. -/
structure SlotRow where
  op : Nat
  d : SlotKind := .unused
  a : SlotKind := .unused
  b : SlotKind := .unused
  m : SlotKind := .unused
  deriving DecidableEq, Repr

/-- The slot columns of R72 for opcodes 0x00 to 0x11. -/
def slotRowsLow : List SlotRow :=
  [{ op := 0x00 }, { op := 0x01, d := .any, a := .any }, { op := 0x02, d := .field, a := .selector }, { op := 0x03, d := .field },
   { op := 0x04, a := .field }, { op := 0x05, d := .field }, { op := 0x08, d := .field, a := .field, b := .field },
   { op := 0x09, d := .field, a := .field, b := .field }, { op := 0x0A, d := .field, a := .field },
   { op := 0x0B, d := .field, a := .field }, { op := 0x0C, d := .field, a := .field }, { op := 0x0D, d := .field, a := .field },
   { op := 0x10, d := .field, a := .field, b := .field }, { op := 0x11, d := .field, a := .field }]

/-- The slot columns of R72 for opcodes 0x14 to 0x1D. -/
def slotRowsMiddle : List SlotRow :=
  [{ op := 0x14, d := .field, a := .field }, { op := 0x15, d := .field, a := .field, b := .field },
   { op := 0x16, d := .field, a := .field }, { op := 0x17, d := .field, a := .field }, { op := 0x18, a := .field, b := .field },
   { op := 0x19, a := .field }, { op := 0x1A, d := .field }, { op := 0x1B, d := .field, a := .field, m := .mask },
   { op := 0x1C, d := .field, a := .field, b := .field }, { op := 0x1D, d := .field, a := .field, b := .field, m := .mask }]

/-- The slot columns of R72 for opcodes 0x20 to 0x2D. -/
def slotRowsHigh : List SlotRow :=
  [{ op := 0x20, a := .field }, { op := 0x21, a := .field }, { op := 0x28, d := .point },
   { op := 0x29, d := .point, a := .field, b := .field }, { op := 0x2A, d := .point, a := .point, b := .point },
   { op := 0x2B, d := .point, a := .point }, { op := 0x2C, d := .point, a := .point },
   { op := 0x2D, d := .point, a := .point, b := .field }]

/-- The slot columns of the 32 rows of R72. -/
def slotTable : List SlotRow := slotRowsLow ++ slotRowsMiddle ++ slotRowsHigh

/-- The word has the row's opcode and some slot holds a value its kind does not admit (R74). -/
def SlotRow.RefusesSlots (r : SlotRow) (w : Word) : Prop :=
  opField w = r.op ∧ (r.d.admits (slotD w) && r.a.admits (slotA w) && r.b.admits (slotB w) && r.m.admits (slotM w)) = false

/-! ### The register map (20_memory.md R49) -/

/-- The reserved offsets: 0x024 to 0x03C and 0x084 to 0xFFC, multiples of 4. -/
def ReservedOffset (off : Nat) : Prop := off % 4 = 0 ∧ (0x024 ≤ off ∧ off ≤ 0x03C ∨ 0x084 ≤ off ∧ off ≤ 0xFFC)

/-- The registers that ignore writes: ID, RESULT, NBITS, CVAL, NBYTES. -/
def ReadOnlyOffset (off : Nat) : Prop := off = 0x000 ∨ off = 0x014 ∨ off = 0x018 ∨ off = 0x01C ∨ off = 0x020

/-- The offsets a write to which is discarded while a command is in flight: CMD, ARG, DATA0 to DATA16 (R165). -/
def GuardedOffset (off : Nat) : Prop := off = 0x00C ∨ off = 0x010 ∨ ∃ w, w ≤ 16 ∧ off = 0x040 + 4 * w

/-- A host read of the register at offset `off`. -/
def State.readAt (s : State) (off : Nat) : Turn := .read (s.params.base + off) 4

/-- A host write of `v` to the register at offset `off`. -/
def State.writeAt (s : State) (off : Nat) (v : Word) : Turn := .write (s.params.base + off) 4 v

/-! ### Operands and results -/

/-- Register i is valid with tag FIELD: usable in an F slot. -/
def State.FieldAt (s : State) (i : Slot) : Prop := (s.reg i).valid = true ∧ (s.reg i).tag = .field

/-- Register i is a valid Mask of bit b: usable in an M slot (R25). -/
def State.MaskAt (s : State) (i : Slot) (b : Bool) : Prop :=
  (s.reg i).valid = true ∧ (s.reg i).tag = .mask ∧ (s.reg i).limbs = List.replicate s.modulus.limbCount (maskWord b)

/-- Point k is usable: its four registers are valid with tag FIELD (R26). -/
def State.PointAt (s : State) (k : Slot) : Prop := ∀ j : Fin 4, s.FieldAt (coordSlot k j)

/-- CA and CD are valid (R143). -/
def State.CurveSet (s : State) : Prop := s.ca.valid = true ∧ s.cd.valid = true

/-- p as an integer. -/
def State.pInt (s : State) : Int := (s.modulus.p : Int)

/-- val(F[i]), in [0, p) (R15). -/
def State.valAt (s : State) (i : Slot) : Int := val s.modulus (s.ints i)

/-- The register is a valid FIELD register in lazy form whose value is v (R28, R84). -/
def FieldReg.Holds (m : ModulusId) (r : FieldReg) (v : Int) : Prop :=
  r.valid = true ∧ r.tag = .field ∧ lazyForm m (toInts r.limbs) = true ∧ val m (toInts r.limbs) = v

/-- The register is a valid FIELD register with the canonical vector of v (R29, R87). -/
def FieldReg.HoldsCanonical (m : ModulusId) (r : FieldReg) (v : Int) : Prop :=
  r.valid = true ∧ r.tag = .field ∧ canonical m (toInts r.limbs) = true ∧ vInt m (toInts r.limbs) = v

/-- The register is a valid FIELD register in lazy form that represents x modulo p. -/
def FieldReg.HoldsMod (m : ModulusId) (r : FieldReg) (x : ZMod m.p) : Prop :=
  r.valid = true ∧ r.tag = .field ∧ lazyForm m (toInts r.limbs) = true ∧ ((vInt m (toInts r.limbs) : Int) : ZMod m.p) = x

end Sys2Proof.Machine

namespace Sys2Proof

open Machine (coordSlot coordSlots)

/-! ### What the spec says a command reads and writes (60_exceptions.md R168, R169; 44_compare_select.md R131) -/

/-- The field registers a command reads from slots that need tag FIELD: F sources, and the four registers of P sources. -/
def Instr.fieldReads : Instr → List Slot
  | .nop | .mov _ _ | .ldc _ _ | .unpack _ | .fill _ | .pzero _ => []
  | .pack a | .bit a | .seta a | .setd a => [a]
  | .norm d => [d]
  | .add _ a b | .sub _ a b | .mul _ a b | .div _ a b | .orm _ a b | .pinit _ a b => [a, b]
  | .eq a b => [a, b]
  | .neg _ a | .sadd _ a | .ssub _ a | .smul _ a | .sqr _ a | .inv _ a | .leg _ a | .sqrt _ a => [a]
  | .andm _ a _ => [a]
  | .csel _ a b _ => [a, b]
  | .padd _ a b => coordSlots a ++ coordSlots b
  | .pdbl _ a | .ptpl _ a => coordSlots a
  | .pmul _ a b => coordSlots a ++ [b]

/-- The field registers a command reads from M slots, which need tag MASK. -/
def Instr.maskReads : Instr → List Slot
  | .andm _ _ m => [m]
  | .csel _ _ _ m => [m]
  | .nop | .mov _ _ | .ldc _ _ | .unpack _ | .pack _ | .norm _ | .add _ _ _ | .sub _ _ _ | .neg _ _ | .sadd _ _ | .ssub _ _
  | .smul _ _ | .mul _ _ _ | .sqr _ _ | .inv _ _ | .div _ _ _ | .leg _ _ | .sqrt _ _ | .eq _ _ | .bit _ | .fill _
  | .orm _ _ _ | .seta _ | .setd _ | .pzero _ | .pinit _ _ _ | .padd _ _ _ | .pdbl _ _ | .ptpl _ _ | .pmul _ _ _ => []

/-- The field registers a command reads whatever their tag: MOV's R source. -/
def Instr.anyReads : Instr → List Slot
  | .mov _ a => [a]
  | .nop | .ldc _ _ | .unpack _ | .pack _ | .norm _ | .add _ _ _ | .sub _ _ _ | .neg _ _ | .sadd _ _ | .ssub _ _
  | .smul _ _ | .mul _ _ _ | .sqr _ _ | .inv _ _ | .div _ _ _ | .leg _ _ | .sqrt _ _ | .eq _ _ | .bit _ | .fill _
  | .andm _ _ _ | .orm _ _ _ | .csel _ _ _ _ | .seta _ | .setd _ | .pzero _ | .pinit _ _ _ | .padd _ _ _ | .pdbl _ _
  | .ptpl _ _ | .pmul _ _ _ => []

/-- PADD, PDBL, PTPL and PMUL read CA and CD (R168). -/
def Instr.readsCurve : Instr → Bool
  | .padd _ _ _ | .pdbl _ _ | .ptpl _ _ | .pmul _ _ _ => true
  | .nop | .mov _ _ | .ldc _ _ | .unpack _ | .pack _ | .norm _ | .add _ _ _ | .sub _ _ _ | .neg _ _ | .sadd _ _ | .ssub _ _
  | .smul _ _ | .mul _ _ _ | .sqr _ _ | .inv _ _ | .div _ _ _ | .leg _ _ | .sqrt _ _ | .eq _ _ | .bit _ | .fill _
  | .andm _ _ _ | .orm _ _ _ | .csel _ _ _ _ | .seta _ | .setd _ | .pzero _ | .pinit _ _ _ => false

/-- The source registers a command normalizes and writes back (R131). NORM's is its destination. -/
def Instr.writtenBack : Instr → List Slot
  | .pack a | .bit a => [a]
  | .eq a b => [a, b]
  | .andm _ a _ => [a]
  | .orm _ a b => [a, b]
  | .csel _ a b _ => [a, b]
  | .pmul _ _ b => [b]
  | .nop | .mov _ _ | .ldc _ _ | .unpack _ | .norm _ | .add _ _ _ | .sub _ _ _ | .neg _ _ | .sadd _ _ | .ssub _ _
  | .smul _ _ | .mul _ _ _ | .sqr _ _ | .inv _ _ | .div _ _ _ | .leg _ _ | .sqrt _ _ | .fill _ | .seta _ | .setd _
  | .pzero _ | .pinit _ _ _ | .padd _ _ _ | .pdbl _ _ | .ptpl _ _ => []

/-- The destination registers of a command: F[d], or the four registers of P[d]. -/
def Instr.destinations : Instr → List Slot
  | .nop | .pack _ | .eq _ _ | .bit _ | .seta _ | .setd _ => []
  | .mov d _ | .ldc d _ | .unpack d | .norm d | .neg d _ | .sadd d _ | .ssub d _ | .smul d _ | .sqr d _ | .inv d _
  | .leg d _ | .sqrt d _ | .fill d => [d]
  | .add d _ _ | .sub d _ _ | .mul d _ _ | .div d _ _ | .orm d _ _ | .andm d _ _ => [d]
  | .csel d _ _ _ => [d]
  | .pzero d | .pdbl d _ | .ptpl d _ => coordSlots d
  | .pinit d _ _ | .padd d _ _ | .pmul d _ _ => coordSlots d

end Sys2Proof

namespace Sys2Proof.Machine

/-! ### The check a command fails first (60_exceptions.md R163, 70_reset_and_hazards.md R186) -/

/-- SQRT in a configuration whose p is not ≡ 5 (mod 8) (R167). -/
def Unsupported (i : Instr) (s : State) : Prop := (∃ d a, i = .sqrt d a) ∧ s.modulus.p % 8 ≠ 5

/-- Some register the command reads has valid = 0 (R168). -/
def ReadsInvalid (i : Instr) (s : State) : Prop :=
  (∃ j ∈ i.fieldReads ++ i.maskReads ++ i.anyReads, (s.reg j).valid = false) ∨
    (i.readsCurve = true ∧ (s.ca.valid = false ∨ s.cd.valid = false))

/-- Some register the command reads has the wrong tag for its slot (R169). -/
def ReadsMistyped (i : Instr) (s : State) : Prop :=
  (∃ j ∈ i.fieldReads, (s.reg j).tag = .mask) ∨ (∃ j ∈ i.maskReads, (s.reg j).tag = .field)

/-- BIT with zext_32(ARG) ≥ n (R170). -/
def IndexTooLarge (i : Instr) (s : State) : Prop := (∃ a, i = .bit a) ∧ s.modulus.n ≤ s.arg.toNat

/-! ### The point formulas over a commutative ring (45_curve.md R148, R150, R155) -/

/-- A point in extended coordinates (X:Y:Z:T). -/
structure RingPoint (R : Type) where
  X : R
  Y : R
  Z : R
  T : R

variable {R : Type} [CommRing R]

/-- The unified addition law for a·x² + y² = 1 + d·x²·y², multiplied out. -/
def ringAdd (a d : R) (P Q : RingPoint R) : RingPoint R :=
  { X := (P.X * Q.Y + P.Y * Q.X) * (P.Z * Q.Z - d * P.T * Q.T)
    Y := (P.Z * Q.Z + d * P.T * Q.T) * (P.Y * Q.Y - a * P.X * Q.X)
    Z := (P.Z * Q.Z - d * P.T * Q.T) * (P.Z * Q.Z + d * P.T * Q.T)
    T := (P.X * Q.Y + P.Y * Q.X) * (P.Y * Q.Y - a * P.X * Q.X) }

/-- The dedicated doubling, multiplied out. -/
def ringDouble (a : R) (P : RingPoint R) : RingPoint R :=
  { X := 2 * P.X * P.Y * (a * P.X ^ 2 + P.Y ^ 2 - 2 * P.Z ^ 2)
    Y := (a * P.X ^ 2 + P.Y ^ 2) * (a * P.X ^ 2 - P.Y ^ 2)
    Z := (a * P.X ^ 2 + P.Y ^ 2 - 2 * P.Z ^ 2) * (a * P.X ^ 2 + P.Y ^ 2)
    T := 2 * P.X * P.Y * (a * P.X ^ 2 - P.Y ^ 2) }

/-- The ladder's pair (r0, r1) after the bits i − 1 down to 0 of K: (r0 + r1, 2·r1) for a bit 1, (2·r0, r0 + r1) for a bit 0. -/
def ringLadder (a d : R) (K : Nat) : Nat → RingPoint R × RingPoint R → RingPoint R × RingPoint R
  | 0, r => r
  | i + 1, r =>
    ringLadder a d K i
      (if K.testBit i then (ringAdd a d r.1 r.2, ringDouble a r.2) else (ringDouble a r.1, ringAdd a d r.1 r.2))

/-- The identity (0, 1, 1, 0) (R146). -/
def ringIdentity : RingPoint R := { X := 0, Y := 1, Z := 1, T := 0 }

/-- What register i represents modulo p. -/
def State.modAt (s : State) (i : Slot) : ZMod s.modulus.p := ((vInt s.modulus (s.ints i) : Int) : ZMod s.modulus.p)

/-- What point k represents modulo p. -/
def State.ringPoint (s : State) (k : Slot) : RingPoint (ZMod s.modulus.p) :=
  { X := s.modAt (coordSlot k 0), Y := s.modAt (coordSlot k 1), Z := s.modAt (coordSlot k 2), T := s.modAt (coordSlot k 3) }

/-- The curve parameter a modulo p: what CA represents. -/
def State.curveA (s : State) : ZMod s.modulus.p := ((vInt s.modulus s.caInts : Int) : ZMod s.modulus.p)

/-- The curve parameter d modulo p: what CD represents. -/
def State.curveD (s : State) : ZMod s.modulus.p := ((vInt s.modulus s.cdInts : Int) : ZMod s.modulus.p)

/-- Four registers with which point P[d] is written. -/
def State.setPoint (s : State) (d : Slot) (x y z t : FieldReg) : State :=
  (((s.setReg (coordSlot d 0) x).setReg (coordSlot d 1) y).setReg (coordSlot d 2) z).setReg (coordSlot d 3) t

/-- Four registers hold, in lazy form, the coordinates of a point over the integers modulo p. -/
def PointHolds (m : ModulusId) (x y z t : FieldReg) (Q : RingPoint (ZMod m.p)) : Prop :=
  x.HoldsMod m Q.X ∧ y.HoldsMod m Q.Y ∧ z.HoldsMod m Q.Z ∧ t.HoldsMod m Q.T

/-- The register holds a canonical vector. -/
def FieldReg.IsCanonical (m : ModulusId) (r : FieldReg) : Prop := canonical m (toInts r.limbs) = true

/-! ### Value abstraction (70_reset_and_hazards.md R199) -/

/-- Two field registers agree on validity and, when valid, on the tag and on the value (FIELD) or the mask (MASK). -/
def SameValueReg (m : ModulusId) (r r' : FieldReg) : Prop :=
  r.valid = r'.valid ∧ (r.valid = true → r.tag = r'.tag ∧
    (r.tag = .field → val m (toInts r.limbs) = val m (toInts r'.limbs)) ∧ (r.tag = .mask → r.limbs = r'.limbs))

/-- Two curve-parameter registers agree on validity and, when valid, on the value. -/
def SameValueCurve (m : ModulusId) (r r' : CurveReg) : Prop :=
  r.valid = r'.valid ∧ (r.valid = true → val m (toInts r.limbs) = val m (toInts r'.limbs))

/-- Two results of one command agree on everything but the limb vectors that represent the same values. -/
def SameValueResults (m : ModulusId) (a b : Results) : Prop :=
  List.Forall₂ (fun w w' => w.1 = w'.1 ∧ SameValueReg m w.2 w'.2) a.writeBacks b.writeBacks ∧
    List.Forall₂ (fun w w' => w.1 = w'.1 ∧ SameValueReg m w.2 w'.2) a.dests b.dests ∧
    Option.Rel (SameValueCurve m) a.ca b.ca ∧ Option.Rel (SameValueCurve m) a.cd b.cd ∧
    a.result = b.result ∧ a.data = b.data

/-- Two states whose registers hold the same values and whose other fields are equal. -/
structure SameValues (s t : State) : Prop where
  params : s.params = t.params
  regs : ∀ i, SameValueReg s.modulus (s.reg i) (t.reg i)
  ca : SameValueCurve s.modulus s.ca t.ca
  cd : SameValueCurve s.modulus s.cd t.cd
  arg : s.arg = t.arg
  result : s.result = t.result
  data : s.data = t.data
  done : s.done = t.done
  err : s.err = t.err
  ecode : s.ecode = t.ecode
  ie : s.ie = t.ie
  inflight : Option.Rel (fun f g => f.op = g.op ∧ SameValueResults s.modulus f.results g.results) s.inflight t.inflight
  agenda : s.agenda = t.agenda
  readData : s.readData = t.readData

/-! ### What timing may depend on (60_exceptions.md R161, 70_reset_and_hazards.md R197) -/

/-- Two field registers agree on their public part: the valid bit and the tag. -/
def SamePublicReg (r r' : FieldReg) : Prop := r.valid = r'.valid ∧ r.tag = r'.tag

/-- Two results agree on what they write, not on the values written. -/
def SamePublicResults (a b : Results) : Prop :=
  List.Forall₂ (fun w w' => w.1 = w'.1 ∧ SamePublicReg w.2 w'.2) a.writeBacks b.writeBacks ∧
    List.Forall₂ (fun w w' => w.1 = w'.1 ∧ SamePublicReg w.2 w'.2) a.dests b.dests ∧
    Option.Rel (fun c c' => c.valid = c'.valid) a.ca b.ca ∧ Option.Rel (fun c c' => c.valid = c'.valid) a.cd b.cd

/-- Two turns are the same, but for the value of an ARG write, of which only "below n" is public, and of a DATA write. -/
def SamePublicTurn (q : Params) (t t' : Turn) : Prop :=
  t = t' ∨
    (∃ v v', t = .write (q.base + 0x010) 4 v ∧ t' = .write (q.base + 0x010) 4 v' ∧
      (v.toNat < q.modulus.n ↔ v'.toNat < q.modulus.n)) ∨
    (∃ w v v', w < 17 ∧ t = .write (q.base + 0x040 + 4 * w) 4 v ∧ t' = .write (q.base + 0x040 + 4 * w) 4 v')

/-- Two states agree on everything public: field values, mask bits, DATA, RESULT and ARG (but for "below n") may differ. -/
structure SamePublic (s t : State) : Prop where
  params : s.params = t.params
  regs : ∀ i, SamePublicReg (s.reg i) (t.reg i)
  ca : s.ca.valid = t.ca.valid
  cd : s.cd.valid = t.cd.valid
  index : s.arg.toNat < s.modulus.n ↔ t.arg.toNat < s.modulus.n
  done : s.done = t.done
  err : s.err = t.err
  ecode : s.ecode = t.ecode
  ie : s.ie = t.ie
  inflight : Option.Rel (fun f g => f.op = g.op ∧ SamePublicResults f.results g.results) s.inflight t.inflight
  agenda : List.Forall₂ (SamePublicTurn s.params) s.agenda t.agenda

end Sys2Proof.Machine
end

