-- ==== Sys2Proof/Certificates/Slice0/Obligations.lean ====
section
/-! DEFINITION. The statements for the provers. A statement about a command's effect says that the command issued in a ready
state is accepted and what the whole state is after its completion, as an equation: what the equation does not write is
unchanged. `Runs i s u` is that sentence (Safety.lean). -/

section

open Sys2Proof Sys2Proof.Machine

/-! ### The encoding (30_encoding.md) -/

/-- Words written out in the examples of R81, R93, R116, R123, R140, R145 and R149 decode to the commands they stand for, and the
last example of R81 is no command. -/
def Obligations.ExampleWordsDecode : Prop :=
  decode 0x04A20000 = .ok (.mov 5 2) ∧ decode 0x08220000 = .ok (.ldc 1 2) ∧ decode 0x20400800 = .ok (.add 2 0 1) ∧
    decode 0x40400800 = .ok (.mul 2 0 1) ∧ decode 0x50200000 = .ok (.inv 1 0) ∧ decode 0x74611100 = .ok (.csel 3 1 2 4) ∧
    decode 0x84010000 = .ok (.setd 1) ∧ decode 0xA8400800 = .ok (.padd 2 0 1) ∧ decode 0xB4204000 = .ok (.pmul 1 0 8) ∧
    decode 0xA8080000 = .error .pointIndex

/-- The word assembled for a command (R80) decodes to that command, with every operand, exactly when its point and selector slots
are in range (R69, R74). -/
def Obligations.DecodeOfEncodeIsTheCommand : Prop := ∀ i : Instr, decode (encode i) = .ok i ↔ i.wellFormed = true

/-- A word that decodes to a command is the word assembled for it: every command has one word (R72, R80). -/
def Obligations.EncodeOfDecodeIsTheWord : Prop := ∀ (w : Word) (i : Instr), decode w = .ok i → encode i = w ∧ i.wellFormed = true

/-- The decoder is the opcode table: a word decodes to a command exactly when one row selects it, that row names the command, no
other row selects the word, and a word that no row selects is rejected (R71). -/
def Obligations.DecoderIsTheOpcodeTable : Prop :=
  ∀ w : Word,
    (∀ i, decode w = .ok i →
      ∃ r ∈ opcodeTable, r.selects w = true ∧ r.mnemonic = i.mnemonic ∧ ∀ r' ∈ opcodeTable, r'.selects w = true → r' = r) ∧
    ((∃ e, decode w = .error e) ↔ ∀ r ∈ opcodeTable, r.selects w = false)

/-- No row selects a word with a reserved opcode (the list of R73, log entry 11), with a nonzero bit in [5:0], or, for the opcode of
any of the 32 rows, with an unused slot that is not zero, a point slot above 7 or a selector above 3 (R74; `slotTable` is the
slot column of R72): a CMD write of such a word, with ERR = 0 and BUSY = 0, records E_ILLEGAL and changes nothing else. In
particular NOP is the single word 0x00000000. -/
def Obligations.ReservedEncodingsRaiseIllegal : Prop :=
  (∀ w : Word,
    (opField w ∈ [0x06, 0x07, 0x0E, 0x0F, 0x12, 0x13, 0x1E, 0x1F] ∨ (0x22 ≤ opField w ∧ opField w ≤ 0x27) ∨ 0x2E ≤ opField w ∨
      zField w ≠ 0 ∨ ∃ r ∈ slotTable, r.RefusesSlots w) →
    (∀ r ∈ opcodeTable, r.selects w = false) ∧
      ∀ s : State, s.Ready → takeTurn (s.writeAt 0x00C w) s = .next (s.setError true 2)) ∧
  ∀ w : Word, decode w = .ok .nop ↔ w = 0x00000000

/-! ### Reset and configuration (10_state.md, 70_reset_and_hazards.md) -/

/-- The hardware reset input and a CTRL write with bit 0 set, in every state (a command in flight included), have one effect: every
piece of state takes its reset value, the parameters do not change (R42, R181, R182). The same holds of the state a machine
starts from. The model's own two fields, the agenda and the last read, are not the FAPU's and stay. -/
def Obligations.BothResetsGiveTheResetState : Prop :=
  ∀ s : State,
    (∃ u, takeTurn .hardReset s = .next u ∧ (∀ v : Word, v.getLsbD 0 = true → takeTurn (s.writeAt 0x004 v) s = .next u) ∧
      AtReset u ∧ u.params = s.params ∧ u.agenda = s.agenda ∧ u.readData = s.readData) ∧
    ∀ q : Params, AtReset (State.resetWith q) ∧ (State.resetWith q).params = q

/-- The bounds of R6 on every configuration, p = 2^n − c, the configurations with SQRT (R5), and the constant I of R128: I is
2^((p−1)/4) mod p, and I² ≡ −1 modulo p. -/
def Obligations.ConfigurationFacts : Prop :=
  ∀ m : ModulusId,
    (m.limbCount - 1) * m.limbWidth < m.n ∧ m.n ≤ m.limbCount * m.limbWidth ∧ 17 ≤ m.topWidth ∧ m.topWidth ≤ 29 ∧
      (m.limbWidth = 28 ∨ m.limbWidth = 29) ∧ 1 ≤ m.c ∧ m.c < 2 ^ 7 ∧ 2 * m.c < 2 ^ m.n ∧ m.p + m.c = 2 ^ m.n ∧
      (m.hasSqrt = true ↔ m = .p221 ∨ m = .p255) ∧
      (m.hasSqrt = true → sqrtConstant m = 2 ^ ((m.p - 1) / 4) % m.p ∧ (sqrtConstant m ^ 2 + 1) % m.p = 0)

/-- The parameters an instance is built with never change (R21). -/
def Obligations.NoStepChangesTheParameters : Prop := ∀ s u : State, step s = .next u → u.params = s.params

/-- The invariant holds at reset, in every configuration. -/
def Obligations.InvariantHoldsAtReset : Prop := ∀ q : Params, (State.resetWith q).Inv

/-- The invariant is kept by every step: registers hold lazy-form vectors or masks (R25, R28), DATA stays canonical, pending
results are of the same forms, ECODE stays a code of R162. -/
def Obligations.EveryStepKeepsTheInvariant : Prop := ∀ s u : State, s.Inv → step s = .next u → u.Inv

/-! ### The host window (20_memory.md) -/

/-- A read of an identification register, ARG, RESULT, DATAw, CMD, in any state, returns its contents and changes nothing of the
FAPU (R51, R58). -/
def Obligations.ReadsReturnTheRegisters : Prop :=
  ∀ s : State,
    takeTurn (s.readAt 0x000) s = .next (s.setReadData (0x46500100 + BitVec.ofNat 32 s.modulus.number)) ∧
    takeTurn (s.readAt 0x018) s = .next (s.setReadData (BitVec.ofNat 32 s.modulus.n)) ∧
    takeTurn (s.readAt 0x01C) s = .next (s.setReadData (BitVec.ofNat 32 s.modulus.c)) ∧
    takeTurn (s.readAt 0x020) s = .next (s.setReadData (BitVec.ofNat 32 ((s.modulus.n + 7) / 8))) ∧
    takeTurn (s.readAt 0x00C) s = .next (s.setReadData 0) ∧
    takeTurn (s.readAt 0x010) s = .next (s.setReadData s.arg) ∧
    takeTurn (s.readAt 0x014) s = .next (s.setReadData s.result) ∧
    (∃ v, takeTurn (s.readAt 0x008) s = .next (s.setReadData v)) ∧
    ∀ w, w ≤ 16 → ∃ v : Word, takeTurn (s.readAt (0x040 + 4 * w)) s = .next (s.setReadData v) ∧
      ∀ j, j < 4 → v.extractLsb' (8 * j) 8 = s.data.read (4 * w + j)

/-- A reserved offset reads as 0; a write to a reserved offset or to a read-only register has no effect; a read of any offset
changes no state of the FAPU (R50). -/
def Obligations.ReservedAndReadOnlyOffsets : Prop :=
  ∀ (s : State) (off : Nat),
    (ReservedOffset off → takeTurn (s.readAt off) s = .next (s.setReadData 0x00000000)) ∧
    (ReservedOffset off ∨ ReadOnlyOffset off → ∀ v, takeTurn (s.writeAt off v) s = .next s) ∧
    (off % 4 = 0 ∧ off ≤ 0xFFC → ∃ v, takeTurn (s.readAt off) s = .next (s.setReadData v))

/-- CTRL, in every state: a write with bit 0 resets, whatever its other bits; any other clears ERR and ECODE when bit 1 is set and
moves bit 2 to IE; a read returns IE << 2 (R52). -/
def Obligations.CtrlRegister : Prop :=
  ∀ (s : State) (v : Word),
    (v.getLsbD 0 = true → ∃ u, takeTurn (s.writeAt 0x004 v) s = .next u ∧ AtReset u ∧ u.params = s.params) ∧
    (v.getLsbD 0 = false → takeTurn (s.writeAt 0x004 v) s = .next
      { s with err := if v.getLsbD 1 then false else s.err
               ecode := if v.getLsbD 1 then 0 else s.ecode
               ie := v.getLsbD 2 }) ∧
    takeTurn (s.readAt 0x004) s = .next (s.setReadData ((BitVec.ofBool s.ie).setWidth 32 <<< 2))

/-- STATUS, in every state: a write clears DONE when bit 1 is set and changes nothing else; a read returns
BUSY | (DONE << 1) | (ERR << 2) | (ECODE << 8), BUSY being 1 exactly when a command is in flight (R53, R36). -/
def Obligations.StatusRegister : Prop :=
  ∀ (s : State) (v : Word),
    takeTurn (s.writeAt 0x008 v) s = .next { s with done := if v.getLsbD 1 then false else s.done } ∧
    takeTurn (s.readAt 0x008) s = .next (s.setReadData
      ((BitVec.ofBool s.inflight.isSome).setWidth 32 ||| ((BitVec.ofBool s.done).setWidth 32 <<< 1) |||
        ((BitVec.ofBool s.err).setWidth 32 <<< 2) ||| (s.ecode.setWidth 32 <<< 8)))

/-- An ARG write is taken when BUSY = 0 and raises E_BUSY when BUSY = 1; a read returns ARG (R55). -/
def Obligations.ArgRegister : Prop :=
  ∀ (s : State) (v : Word),
    (s.inflight = none → takeTurn (s.writeAt 0x010 v) s = .next { s with arg := v }) ∧
    (s.inflight ≠ none → takeTurn (s.writeAt 0x010 v) s = .next (raiseError .busy s)) ∧
    takeTurn (s.readAt 0x010) s = .next (s.setReadData s.arg)

/-- A write of DATAw puts byte j of the word at DATA[4w+j] and changes no other byte when BUSY = 0, and raises E_BUSY when
BUSY = 1; a read returns the four bytes, least significant first, a command in flight or not (R57). -/
def Obligations.DataWindow : Prop :=
  ∀ (s : State) (w : Nat) (v : Word), s.Inv → w ≤ 16 →
    (s.inflight = none → ∃ d : Memory, takeTurn (s.writeAt (0x040 + 4 * w) v) s = .next { s with data := d } ∧
      ∀ j, d.read j = if 4 * w ≤ j ∧ j < 4 * w + 4 then v.extractLsb' (8 * (j - 4 * w)) 8 else s.data.read j) ∧
    (s.inflight ≠ none → takeTurn (s.writeAt (0x040 + 4 * w) v) s = .next (raiseError .busy s)) ∧
    takeTurn (s.readAt (0x040 + 4 * w)) s = .next (s.setReadData (BitVec.ofNat 32
      (∑ j ∈ Finset.range 4, (s.data.read (4 * w + j)).toNat * 2 ^ (8 * j))))

/-- With a command in flight, a write to CMD, ARG or DATA is discarded: it records E_BUSY when ERR = 0 and changes nothing when
ERR = 1, and the command completes as it would have. No other write, and no read, records an error (R165). -/
def Obligations.WritesWhileBusyAreDiscarded : Prop :=
  ∀ (s : State) (off : Nat) (v : Word), s.inflight ≠ none → off % 4 = 0 → off ≤ 0xFFC →
    (GuardedOffset off → ∃ u, takeTurn (s.writeAt off v) s = .next u ∧ u = (if s.err then s else s.setError true 1) ∧
      complete u = (complete s).setError u.err u.ecode ∧ (complete u).done = true) ∧
    (¬ GuardedOffset off → ∃ u, takeTurn (s.writeAt off v) s = .next u ∧ (u.err = true → s.err = true)) ∧
    ∃ u, takeTurn (s.readAt off) s = .next u ∧ u.err = s.err ∧ u.ecode = s.ecode

/-- An access in the window that is not 32 bits wide or not at a multiple of 4 has no step (R47). An access outside the window is
a fault: that the model stops there is its own choice (log entry 8). -/
def Obligations.AccessesOutsideTheInterfaceStop : Prop :=
  ∀ (s : State) (addr bytes : Nat) (v : Word),
    (addr / 4096 = s.params.basePage → (bytes ≠ 4 ∨ addr % 4 ≠ 0) →
      takeTurn (.read addr bytes) s = .refused .notAlignedWord ∧ takeTurn (.write addr bytes v) s = .refused .notAlignedWord) ∧
    (addr / 4096 ≠ s.params.basePage →
      takeTurn (.read addr bytes) s = .fault .outsideWindow ∧ takeTurn (.write addr bytes v) s = .fault .outsideWindow)

/-! ### Errors and the interrupt (60_exceptions.md) -/

/-- Recording an error sets ERR and ECODE when ERR = 0 and changes nothing when ERR = 1. Every CMD write ends in one of three ways: the
state is unchanged; an error is recorded, ERR having been 0, and nothing else changes; or the word's command is accepted, and
nothing but the in-flight state changes. An ARG or DATA write while busy records E_BUSY, and its value is lost; it is the only
access that can raise an error while ERR = 1 (R164). -/
def Obligations.AnErrorIsRecordedAndNothingElse : Prop :=
  (∀ (e : ErrorCode) (s : State), raiseError e s = if s.err then s else { s with err := true, ecode := e.code }) ∧
  (∀ (s : State) (w : Word), ∃ u, takeTurn (s.writeAt 0x00C w) s = .next u ∧
    (u = s ∨ (s.err = false ∧ ∃ e : ErrorCode, u = s.setError true e.code) ∨ ∃ i, decode w = .ok i ∧ s.Ready ∧ Accepted i s u)) ∧
  ∀ (s : State) (off : Nat) (v : Word), s.inflight ≠ none → (off = 0x010 ∨ ∃ w, w ≤ 16 ∧ off = 0x040 + 4 * w) →
    takeTurn (s.writeAt off v) s = .next (raiseError .busy s)

/-- The first failing check is the one reported, in the order of R163: ERR = 1, E_BUSY (1), E_ILLEGAL (2), E_UNSUPPORTED (6),
E_UNINIT (3), E_TYPE (4), E_ARG (5), with the registers each command reads as R168 and R169 list them; a command that passes
every check is accepted, and its completion records no error. -/
def Obligations.TheFirstFailingCheckIsReported : Prop :=
  ∀ (s : State) (w : Word),
    (s.err = true → takeTurn (s.writeAt 0x00C w) s = .next s) ∧
    (s.err = false → s.inflight ≠ none → takeTurn (s.writeAt 0x00C w) s = .next (s.setError true 1)) ∧
    (s.Ready → (∀ r ∈ opcodeTable, r.selects w = false) → takeTurn (s.writeAt 0x00C w) s = .next (s.setError true 2)) ∧
    ∀ i, s.Ready → decode w = .ok i →
      (Unsupported i s → takeTurn (s.writeAt 0x00C w) s = .next (s.setError true 6)) ∧
      (¬ Unsupported i s → ReadsInvalid i s → takeTurn (s.writeAt 0x00C w) s = .next (s.setError true 3)) ∧
      (¬ Unsupported i s → ¬ ReadsInvalid i s → ReadsMistyped i s →
        takeTurn (s.writeAt 0x00C w) s = .next (s.setError true 4)) ∧
      (¬ Unsupported i s → ¬ ReadsInvalid i s → ¬ ReadsMistyped i s → IndexTooLarge i s →
        takeTurn (s.writeAt 0x00C w) s = .next (s.setError true 5)) ∧
      (¬ Unsupported i s → ¬ ReadsInvalid i s → ¬ ReadsMistyped i s → ¬ IndexTooLarge i s →
        ∃ u, takeTurn (s.writeAt 0x00C w) s = .next u ∧ exec i s = .next u ∧ Accepted i s u ∧ (complete u).err = false)

/-- While ERR = 1 a CMD write changes nothing; ARG and DATA writes with BUSY = 0 are accepted; reads and CTRL and STATUS writes
behave as usual; and a command accepted before the error completes as usual (R171). -/
def Obligations.AnErrorBlocksCommandsAlone : Prop :=
  ∀ s : State, s.err = true →
    (∀ w, takeTurn (s.writeAt 0x00C w) s = .next s) ∧
    (s.inflight = none → (∀ v, takeTurn (s.writeAt 0x010 v) s = .next { s with arg := v }) ∧
      ∀ w v, w ≤ 16 → takeTurn (s.writeAt (0x040 + 4 * w) v) s = .next { s with data := s.data.writeWord w v }) ∧
    (∀ off, off % 4 = 0 → off ≤ 0xFFC → ∃ v, takeTurn (s.readAt off) s = .next (s.setReadData v) ∧
      (off ≠ 0x008 → takeTurn (s.readAt off) (s.setError false 0) = .next ((s.setError false 0).setReadData v))) ∧
    (∀ v : Word, takeTurn (s.writeAt 0x008 v) s = .next { s with done := if v.getLsbD 1 then false else s.done }) ∧
    (∀ v : Word, v.getLsbD 0 = true → ∃ u, takeTurn (s.writeAt 0x004 v) s = .next u ∧ AtReset u ∧ u.params = s.params) ∧
    (∀ v : Word, v.getLsbD 0 = false → takeTurn (s.writeAt 0x004 v) s = .next
      { s with err := if v.getLsbD 1 then false else s.err
               ecode := if v.getLsbD 1 then 0 else s.ecode
               ie := v.getLsbD 2 }) ∧
    complete s = (complete (s.setError false 0)).setError true s.ecode

/-- ERR and ECODE are cleared by a CTRL write with ERRCLR, which changes nothing else but IE, and by a reset, and by no other
step (R172). -/
def Obligations.OnlyErrclrAndResetClearErr : Prop :=
  (∀ (s : State) (v : Word), v.getLsbD 0 = false → v.getLsbD 1 = true →
    takeTurn (s.writeAt 0x004 v) s = .next { s with err := false, ecode := 0, ie := v.getLsbD 2 }) ∧
  (∀ s : State, ∃ u, takeTurn .hardReset s = .next u ∧ u.err = false ∧ u.ecode = 0 ∧
    ∀ v : Word, v.getLsbD 0 = true → takeTurn (s.writeAt 0x004 v) s = .next u) ∧
  ∀ s u : State, step s = .next u → s.err = true → u.err = false →
    ∃ t rest, s.agenda = t :: rest ∧
      (t = .hardReset ∨ ∃ v : Word, t = s.writeAt 0x004 v ∧ (v.getLsbD 0 = true ∨ v.getLsbD 1 = true))

/-- irq = IE ∧ (DONE ∨ ERR) (R37). With IE = 1 it is high after every completion and after every error. -/
def Obligations.IrqFollowsDoneAndErr : Prop :=
  ∀ s : State, (s.irq = true ↔ s.ie = true ∧ (s.done = true ∨ s.err = true)) ∧
    (s.ie = true → s.inflight ≠ none → (complete s).irq = true) ∧ (s.ie = true → ∀ e, (raiseError e s).irq = true)

/-- DONE rises at the completion of a command in flight and at no other step (R35, R186, R190). -/
def Obligations.DoneRisesOnlyAtCompletion : Prop :=
  ∀ s u : State, step s = .next u → s.done = false → u.done = true →
    s.inflight ≠ none ∧ u.inflight = none ∧ (s.agenda = [] ∨ ∃ rest, s.agenda = .complete :: rest)

/-! ### Issue, completion and the step (70_reset_and_hazards.md) -/

/-- Issuing a command writes no register, CA, CD, ARG, RESULT, DATA, DONE or IE: only the in-flight state, or ERR and ECODE, can
differ before the completion (R186, R192). -/
def Obligations.NothingIsWrittenBeforeCompletion : Prop :=
  ∀ (i : Instr) (s t : State), exec i s = .next t →
    t = { s with err := t.err, ecode := t.ecode, inflight := t.inflight } ∧
      (t.inflight ≠ s.inflight → t.err = s.err ∧ t.ecode = s.ecode)

/-- While a command is in flight, no host access but a reset changes a register, CA, CD, ARG, RESULT, DATA or the pending results:
the snapshot taken at issue stays the live state until the completion (R188, R192, R198). -/
def Obligations.HostAccessesKeepTheSnapshot : Prop :=
  ∀ (s u : State) (t : Turn), s.inflight ≠ none → takeTurn t s = .next u → t ≠ .complete → t ≠ .hardReset →
    (∀ v : Word, t = s.writeAt 0x004 v → v.getLsbD 0 = false) →
    u.regs = s.regs ∧ u.ca = s.ca ∧ u.cd = s.cd ∧ u.arg = s.arg ∧ u.result = s.result ∧ u.data = s.data ∧
      u.inflight = s.inflight

/-- The completion applies the pending writes: a register holds the last write to it, write-backs before destinations; then CA and
CD, RESULT and DATA; then nothing is in flight, BUSY is 0, DONE is 1, and all else is unchanged. It is enabled only with a
command in flight. The writes of a command to one register at one level are equal (R189, R190). -/
def Obligations.CompletionAppliesThePendingWrites : Prop :=
  (∀ s : State, s.inflight = none → complete s = s) ∧
  (∀ (s : State) (f : Inflight), s.Inv → s.inflight = some f →
    let u := complete s
    (∀ i, u.reg i = (((f.results.writeBacks ++ f.results.dests).reverse.find? (fun w => w.1 == i)).map Prod.snd).getD (s.reg i)) ∧
      u.ca = f.results.ca.getD s.ca ∧ u.cd = f.results.cd.getD s.cd ∧ u.result = f.results.result.getD s.result ∧
      (∀ bs j, f.results.data = some bs → u.data.read j = bs.getD j 0) ∧ (f.results.data = none → u.data = s.data) ∧
      u.inflight = none ∧ u.busy = false ∧ u.done = true ∧ u.params = s.params ∧ u.arg = s.arg ∧ u.err = s.err ∧
      u.ecode = s.ecode ∧ u.ie = s.ie ∧ u.agenda = s.agenda ∧ u.readData = s.readData) ∧
  ∀ (i : Instr) (s t : State) (f : Inflight), s.inflight = none → exec i s = .next t → t.inflight = some f →
    (∀ w ∈ f.results.writeBacks, ∀ w' ∈ f.results.writeBacks, w.1 = w'.1 → w = w') ∧
      ∀ w ∈ f.results.dests, ∀ w' ∈ f.results.dests, w.1 = w'.1 → w = w'

/-- A step whose next turn is the host's CMD write of a word that decodes runs that command, the turn taken off the agenda; and
`withFetchWord` places exactly that turn (log entry 6: it stands for the host that writes the program's next command). -/
def Obligations.AStepRunsTheDecodedCommand : Prop :=
  (∀ (s : State) (w : Word) (i : Instr) (rest : List Turn), s.agenda = s.writeAt 0x00C w :: rest → decode w = .ok i →
    step s = exec i (s.setAgenda rest)) ∧
  ∀ (s : State) (i : Instr), i.wellFormed = true → step (s.withFetchWord 32 (encode i).toNat) = exec i s

/-- After as many steps as turns are to come and one more, nothing is in flight: a command in flight has completed or a reset has
aborted it. The bound is the model's own choice (log entry 1, DESIGN CHOICE: the turns are a finite list, and a step with no turn
to come completes the command); R194 asks for some finite number of host steps only. -/
def Obligations.NothingIsInFlightAfterTheLastTurn : Prop :=
  ∀ s u : State, Host.Core.run Sys2Proof.core (s.agenda.length + 1) s = .next u → u.inflight = none ∧ u.agenda = []

/-- The pending results are a function of the command, the configuration and the snapshot: two ready states that agree on the
registers, CA, CD, ARG and DATA issue the same results or record the same error (R188, R198). The invariant makes ECODE 0 in
both before. -/
def Obligations.ResultsDependOnTheSnapshotAlone : Prop :=
  ∀ (i : Instr) (s t s' t' : State), s.Inv → t.Inv → s.Ready → t.Ready → s.params = t.params → s.regs = t.regs →
    s.ca = t.ca → s.cd = t.cd → s.arg = t.arg → s.data = t.data → exec i s = .next s' → exec i t = .next t' →
    s'.inflight = t'.inflight ∧ s'.err = t'.err ∧ s'.ecode = t'.ecode

/-- The frame of every command, from the issue in a ready state to its completion: a register that is neither a destination nor a
normalized source keeps its contents; a normalized source that is no destination keeps its value and becomes canonical; CA is
written by SETA alone, CD by SETD alone, RESULT by EQ, BIT and LEG alone, DATA by PACK alone; ARG, IE and the parameters by none;
a tag MASK comes from FILL, or from MOV of a mask, alone; no valid bit is cleared (R23, R24, R32, R33, R131). -/
def Obligations.CommandsWriteOnlyTheirDestinations : Prop :=
  ∀ (i : Instr) (s t : State), s.Inv → s.Ready → exec i s = .next t →
    let u := complete t
    (∀ j, j ∉ i.destinations → j ∉ i.writtenBack → u.reg j = s.reg j) ∧
    (∀ j, j ∉ i.destinations → j ∈ i.writtenBack → t.inflight ≠ none → (u.reg j).HoldsCanonical s.modulus (s.valAt j)) ∧
    ((∀ a, i ≠ .seta a) → u.ca = s.ca) ∧ ((∀ a, i ≠ .setd a) → u.cd = s.cd) ∧
    ((∀ a b, i ≠ .eq a b) → (∀ a, i ≠ .bit a) → (∀ d a, i ≠ .leg d a) → u.result = s.result) ∧
    ((∀ a, i ≠ .pack a) → ∀ j, u.data.read j = s.data.read j) ∧
    u.arg = s.arg ∧ u.ie = s.ie ∧ u.params = s.params ∧ u.agenda = s.agenda ∧ u.readData = s.readData ∧
    (∀ j, (u.reg j).tag = .mask → (s.reg j).tag = .mask ∨ i = .fill j ∨ ∃ a, i = .mov j a ∧ (s.reg a).tag = .mask) ∧
    ∀ j, (s.reg j).valid = true → (u.reg j).valid = true

/-! ### The limb level (40_representation.md, 41_add_sub.md, 42_multiply_reduce.md) -/

/-- normalize is exact: on every lazy-form vector it gives the canonical vector of V(w) mod p (R90). -/
def Obligations.NormalizeIsExact : Prop :=
  ∀ (m : ModulusId) (w : List Int), lazyForm m w = true →
    normalize m w = split m (val m w) ∧ canonical m (normalize m w) = true

/-- The bounds on the limbs of every lazy result (R107, R108, R118): the lower limbs are in [0, 2^B), and the top limb is in
[−2, 2^T + 2] after ADD, SUB, NEG, SADD, SSUB, MUL and SQR, in [−2^31 − 2, 2^31 + 2^T + 2] after SMUL. -/
def Obligations.LazyResultsAreBounded : Prop :=
  ∀ (m : ModulusId) (x y : List Int) (k : Int), lazyForm m x = true → lazyForm m y = true → -2 ^ 31 ≤ k → k ≤ 2 ^ 31 →
    (∀ w ∈ [fieldAdd m x y, fieldSub m x y, settle m (addLow k x), fieldMul m x y],
      (∀ z ∈ w.dropLast, 0 ≤ z ∧ z < pow2 m.limbWidth) ∧ -2 ≤ topLimb w ∧ topLimb w ≤ pow2 m.topWidth + 2) ∧
    (k < 2 ^ 31 → ∀ z ∈ (settle m (x.map (fun z => z * k))).dropLast, 0 ≤ z ∧ z < pow2 m.limbWidth) ∧
    (k < 2 ^ 31 → -2 ^ 31 - 2 ≤ topLimb (settle m (x.map (fun z => z * k))) ∧
      topLimb (settle m (x.map (fun z => z * k))) ≤ 2 ^ 31 + pow2 m.topWidth + 2)

/-! ### Data movement (40_representation.md) -/

/-- NOP completes with DONE alone. MOV copies limbs and tag, of a field element or a mask. LDC writes the vectors of 0, 1, p − 1 and
p for the selectors 0 to 3 (R91, R92, R93). -/
def Obligations.NopMovLdcResults : Prop :=
  ∀ s : State, s.Ready →
    Runs .nop s (s.setDone true) ∧
    (∀ d a, (s.reg a).valid = true → Runs (.mov d a) s ((s.setReg d (s.reg a)).setDone true)) ∧
    ∀ (d k : Slot) (x : Int), (k.val, x) ∈ [(0, 0), (1, 1), (2, s.pInt - 1), (3, s.pInt)] →
      ∃ r : FieldReg, Runs (.ldc d k) s ((s.setReg d r).setDone true) ∧ r.Holds s.modulus (x % s.pInt) ∧
        vInt s.modulus (toInts r.limbs) = x ∧ 0 ≤ topLimb (toInts r.limbs) ∧
        topLimb (toInts r.limbs) < pow2 s.modulus.topWidth

/-- UNPACK writes the lazy-form vector of X = Σ DATA[j]·2^(8j) over j < nb, with no reduction: V is X and the value X mod p (R94). -/
def Obligations.UnpackResult : Prop :=
  ∀ (s : State) (d : Slot), s.Ready →
    ∃ r : FieldReg, Runs (.unpack d) s ((s.setReg d r).setDone true) ∧
      let X := ∑ j ∈ Finset.range s.modulus.byteCount, (s.data.read j).toNat * 2 ^ (8 * j)
      vInt s.modulus (toInts r.limbs) = X ∧ r.Holds s.modulus (X % s.pInt)

/-- NORM replaces F[d] by its canonical form; PACK writes the canonical form of F[a] back, its nb bytes to DATA, least significant
first, and 0 to every DATA byte above (R95, R96, R97). -/
def Obligations.NormPackResults : Prop :=
  ∀ (s : State) (a : Slot), s.Inv → s.Ready → s.FieldAt a →
    (∃ r : FieldReg, Runs (.norm a) s ((s.setReg a r).setDone true) ∧ r.HoldsCanonical s.modulus (s.valAt a)) ∧
    ∃ (r : FieldReg) (d : Memory), Runs (.pack a) s (((s.setReg a r).setData d).setDone true) ∧
      r.HoldsCanonical s.modulus (s.valAt a) ∧
      ∀ j, d.read j = if j < s.modulus.byteCount then BitVec.ofNat 8 ((s.valAt a).toNat / 2 ^ (8 * j)) else 0

/-- PACK and then UNPACK give back the canonical form of the packed value. -/
def Obligations.UnpackAfterPackIsTheValue : Prop :=
  ∀ (s : State) (a d : Slot), s.Inv → s.Ready → s.FieldAt a →
    ∃ (u : State) (r : FieldReg), Runs (.pack a) s u ∧ Runs (.unpack d) u ((u.setReg d r).setDone true) ∧
      r.HoldsCanonical s.modulus (s.valAt a)

/-! ### Arithmetic (41_add_sub.md, 42_multiply_reduce.md, 43_exponentiation.md) -/

/-- ADD, SUB and NEG write, in lazy form, the sum, the difference and the negation modulo p, whatever the register overlap (R100,
R101, R102). -/
def Obligations.AddSubNegResults : Prop :=
  ∀ (s : State) (d a b : Slot), s.Inv → s.Ready → s.FieldAt a → s.FieldAt b →
    (∃ r : FieldReg, Runs (.add d a b) s ((s.setReg d r).setDone true) ∧ r.Holds s.modulus ((s.valAt a + s.valAt b) % s.pInt)) ∧
    (∃ r : FieldReg, Runs (.sub d a b) s ((s.setReg d r).setDone true) ∧ r.Holds s.modulus ((s.valAt a - s.valAt b) % s.pInt)) ∧
    ∃ r : FieldReg, Runs (.neg d a) s ((s.setReg d r).setDone true) ∧ r.Holds s.modulus ((-s.valAt a) % s.pInt)

/-- SADD, SSUB and SMUL write the sum, difference and product with ARG read as a signed 32-bit integer, every value of ARG being
legal (R103, R104, R105). -/
def Obligations.SmallOperandResults : Prop :=
  ∀ (s : State) (d a : Slot), s.Inv → s.Ready → s.FieldAt a →
    (∃ r : FieldReg, Runs (.sadd d a) s ((s.setReg d r).setDone true) ∧
      r.Holds s.modulus ((s.valAt a + s.arg.toInt) % s.pInt)) ∧
    (∃ r : FieldReg, Runs (.ssub d a) s ((s.setReg d r).setDone true) ∧
      r.Holds s.modulus ((s.valAt a - s.arg.toInt) % s.pInt)) ∧
    ∃ r : FieldReg, Runs (.smul d a) s ((s.setReg d r).setDone true) ∧
      r.Holds s.modulus ((s.valAt a * s.arg.toInt) % s.pInt)

/-- MUL and SQR write the product and the square modulo p in lazy form, and SQR's limb vector is that of MUL Fd, Fa, Fa (R116,
R117). -/
def Obligations.MulSqrResults : Prop :=
  ∀ (s : State) (d a b : Slot), s.Inv → s.Ready → s.FieldAt a → s.FieldAt b →
    (∃ r : FieldReg, Runs (.mul d a b) s ((s.setReg d r).setDone true) ∧ r.Holds s.modulus ((s.valAt a * s.valAt b) % s.pInt)) ∧
    ∃ r : FieldReg, Runs (.sqr d a) s ((s.setReg d r).setDone true) ∧ Runs (.mul d a a) s ((s.setReg d r).setDone true) ∧
      r.Holds s.modulus (s.valAt a ^ 2 % s.pInt)

/-- INV writes val(F[a])^(p−2) and DIV val(F[a])·val(F[b])^(p−2), modulo p, in lazy form; zero is not an error (R123, R124). -/
def Obligations.InvDivResults : Prop :=
  ∀ (s : State) (d a b : Slot), s.Inv → s.Ready → s.FieldAt a → s.FieldAt b →
    (∃ r : FieldReg, Runs (.inv d a) s ((s.setReg d r).setDone true) ∧
      r.Holds s.modulus (s.valAt a ^ (s.modulus.p - 2) % s.pInt)) ∧
    ∃ r : FieldReg, Runs (.div d a b) s ((s.setReg d r).setDone true) ∧
      r.Holds s.modulus ((s.valAt a * s.valAt b ^ (s.modulus.p - 2)) % s.pInt)

/-- Where p is prime, what INV writes for a nonzero value is its inverse, what DIV writes for a nonzero divisor is the quotient, and
for zero both are zero (R123, R124, R126). -/
def Obligations.InvAndDivInvert : Prop :=
  ∀ (s : State) (d a b : Slot), s.Inv → s.Ready → s.FieldAt a → s.FieldAt b → s.modulus.p.Prime →
    (∃ (r : FieldReg) (v : Int), Runs (.inv d b) s ((s.setReg d r).setDone true) ∧ r.Holds s.modulus v ∧
      (s.valAt b ≠ 0 → v * s.valAt b % s.pInt = 1) ∧ (s.valAt b = 0 → v = 0)) ∧
    ∃ (r : FieldReg) (v : Int), Runs (.div d a b) s ((s.setReg d r).setDone true) ∧ r.Holds s.modulus v ∧
      (s.valAt b ≠ 0 → v * s.valAt b % s.pInt = s.valAt a) ∧ (s.valAt b = 0 → v = 0)

/-- LEG writes the canonical value v of val(F[a])^((p−1)/2), and RESULT is 0 for v = 0, 1 for v = 1 and the word of −1 for
v = p − 1 (R125). -/
def Obligations.LegResult : Prop :=
  ∀ (s : State) (d a : Slot), s.Inv → s.Ready → s.FieldAt a →
    let v := s.valAt a ^ ((s.modulus.p - 1) / 2) % s.pInt
    ∃ (r : FieldReg) (w : Word), Runs (.leg d a) s (((s.setReg d r).setResult w).setDone true) ∧ r.HoldsCanonical s.modulus v ∧
      (v = 0 → w = 0x00000000) ∧ (v = 1 → w = 0x00000001) ∧ (v = s.pInt - 1 → w = 0xFFFFFFFF)

/-- Where p is prime, RESULT after LEG is 0 for zero, 1 for a nonzero square modulo p and −1 for a non-square, and F[d] holds it
(R127). -/
def Obligations.LegIsTheLegendreSymbol : Prop :=
  ∀ (s : State) (d a : Slot), s.Inv → s.Ready → s.FieldAt a → s.modulus.p.Prime →
    ∃ (r : FieldReg) (w : Word), Runs (.leg d a) s (((s.setReg d r).setResult w).setDone true) ∧
      (s.valAt a = 0 → w = 0x00000000) ∧
      (s.valAt a ≠ 0 → (∃ y : Int, y ^ 2 % s.pInt = s.valAt a) → w = 0x00000001) ∧
      (s.valAt a ≠ 0 → ¬ (∃ y : Int, y ^ 2 % s.pInt = s.valAt a) → w = 0xFFFFFFFF) ∧
      r.HoldsCanonical s.modulus (w.toInt % s.pInt)

/-- SQRT, in the configurations with p ≡ 5 (mod 8), writes the canonical form of β where x^((p−1)/4) ≡ 1 and of β·I otherwise, with
β = x^((p+3)/8) and the constant I of R128 (R129). In the other configurations it records E_UNSUPPORTED. -/
def Obligations.SqrtResult : Prop :=
  ∀ (s : State) (d a : Slot), s.Inv → s.Ready →
    (s.modulus.p % 8 ≠ 5 → exec (.sqrt d a) s = .next (s.setError true 6)) ∧
    (s.modulus.p % 8 = 5 → s.FieldAt a →
      let beta := s.valAt a ^ ((s.modulus.p + 3) / 8)
      ∃ r : FieldReg, Runs (.sqrt d a) s ((s.setReg d r).setDone true) ∧
        r.HoldsCanonical s.modulus
          (if s.valAt a ^ ((s.modulus.p - 1) / 4) % s.pInt = 1 then beta % s.pInt
            else beta * sqrtConstant s.modulus % s.pInt))

/-- What SQRT writes squares back to its operand x wherever x^((p−1)/4) is 1 or −1 modulo p, or x = 0: those are the squares when p
is prime (R130). -/
def Obligations.SqrtSquaresBack : Prop :=
  ∀ (s : State) (d a : Slot), s.Inv → s.Ready → s.modulus.p % 8 = 5 → s.FieldAt a →
    (s.valAt a ^ ((s.modulus.p - 1) / 4) % s.pInt = 1 ∨ s.valAt a ^ ((s.modulus.p - 1) / 4) % s.pInt = s.pInt - 1 ∨
      s.valAt a = 0) →
    ∃ (r : FieldReg) (v : Int), Runs (.sqrt d a) s ((s.setReg d r).setDone true) ∧ r.HoldsCanonical s.modulus v ∧
      v ^ 2 % s.pInt = s.valAt a

/-! ### Comparison, bits, masks and selection (44_compare_select.md) -/

/-- EQ writes both sources back canonical and RESULT = 1 exactly when their values are equal, whatever their limbs (R133). -/
def Obligations.EqResult : Prop :=
  ∀ (s : State) (a b : Slot), s.Inv → s.Ready → s.FieldAt a → s.FieldAt b →
    ∃ (ra rb : FieldReg), Runs (.eq a b) s
        ((((s.setReg a ra).setReg b rb).setResult (if s.valAt a = s.valAt b then 1 else 0)).setDone true) ∧
      ra.HoldsCanonical s.modulus (s.valAt a) ∧ rb.HoldsCanonical s.modulus (s.valAt b)

/-- BIT with an index below n writes its source back canonical and the bit of the canonical value to RESULT; with an index at or
above n it records E_ARG and changes nothing else (R135, R136). -/
def Obligations.BitResult : Prop :=
  ∀ (s : State) (a : Slot), s.Inv → s.Ready → s.FieldAt a →
    (s.arg.toNat < s.modulus.n → ∃ ra : FieldReg, Runs (.bit a) s
        (((s.setReg a ra).setResult (if (s.valAt a).toNat.testBit s.arg.toNat then 1 else 0)).setDone true) ∧
      ra.HoldsCanonical s.modulus (s.valAt a)) ∧
    (s.modulus.n ≤ s.arg.toNat → exec (.bit a) s = .next (s.setError true 5))

/-- FILL writes a Mask of bit 0 of ARG: N limbs of all ones or of all zeros, tag MASK, whatever the register held (R137). -/
def Obligations.FillResult : Prop :=
  ∀ (s : State) (d : Slot), s.Ready →
    Runs (.fill d) s ((s.setReg d
      { valid := true, tag := .mask
        limbs := List.replicate s.modulus.limbCount (if s.arg.getLsbD 0 then 0xFFFFFFFFFFFFFFFF else 0) }).setDone true)

/-- ANDM and CSEL with a Mask of bit b: the sources are written back canonical, then F[d] gets the canonical form of F[a] or 0, and of
F[a] or F[b], a destination winning over a write-back (R138, R140, R189). -/
def Obligations.MaskedSelectionResults : Prop :=
  ∀ (s : State) (d a b k : Slot) (bit : Bool), s.Inv → s.Ready → s.FieldAt a → s.FieldAt b → s.MaskAt k bit →
    (∃ ra r : FieldReg, Runs (.andm d a k) s (((s.setReg a ra).setReg d r).setDone true) ∧
      ra.HoldsCanonical s.modulus (s.valAt a) ∧ r.HoldsCanonical s.modulus (if bit then s.valAt a else 0)) ∧
    ∃ ra rb r : FieldReg, Runs (.csel d a b k) s ((((s.setReg a ra).setReg b rb).setReg d r).setDone true) ∧
      ra.HoldsCanonical s.modulus (s.valAt a) ∧ rb.HoldsCanonical s.modulus (s.valAt b) ∧
      r.HoldsCanonical s.modulus (if bit then s.valAt a else s.valAt b)

/-- ORM writes both sources back canonical and F[d] = the bitwise OR of the two canonical integers, in lazy form with its top limb
inside the value bits; the OR may be at or above p (R139, R142). -/
def Obligations.OrmResult : Prop :=
  ∀ (s : State) (d a b : Slot), s.Inv → s.Ready → s.FieldAt a → s.FieldAt b →
    let x : Nat := (s.valAt a).toNat ||| (s.valAt b).toNat
    ∃ ra rb r : FieldReg, Runs (.orm d a b) s ((((s.setReg a ra).setReg b rb).setReg d r).setDone true) ∧
      ra.HoldsCanonical s.modulus (s.valAt a) ∧ rb.HoldsCanonical s.modulus (s.valAt b) ∧
      vInt s.modulus (toInts r.limbs) = x ∧ r.Holds s.modulus (x % s.pInt) ∧
      0 ≤ topLimb (toInts r.limbs) ∧ topLimb (toInts r.limbs) < pow2 s.modulus.topWidth

/-! ### Curve commands (45_curve.md) -/

/-- SETA and SETD copy the limbs of F[a] to CA and CD, which become valid (R144, R145). -/
def Obligations.SetaSetdResults : Prop :=
  ∀ (s : State) (a : Slot), s.Ready → s.FieldAt a →
    Runs (.seta a) s ((s.setCa { valid := true, limbs := (s.reg a).limbs }).setDone true) ∧
    Runs (.setd a) s ((s.setCd { valid := true, limbs := (s.reg a).limbs }).setDone true)

/-- PZERO writes the identity (0, 1, 1, 0) in canonical vectors; PINIT writes (x, y, 1, x·y), x and y copied as they are, from the
snapshot (R146, R147). -/
def Obligations.PzeroPinitResults : Prop :=
  ∀ s : State, s.Ready →
    (∀ d : Slot, ∃ x y z t : FieldReg, Runs (.pzero d) s ((s.setPoint d x y z t).setDone true) ∧
      x.HoldsCanonical s.modulus 0 ∧ y.HoldsCanonical s.modulus 1 ∧ z.HoldsCanonical s.modulus 1 ∧ t.HoldsCanonical s.modulus 0) ∧
    ∀ d a b : Slot, s.Inv → s.FieldAt a → s.FieldAt b → ∃ z t : FieldReg,
      Runs (.pinit d a b) s ((s.setPoint d (s.reg a) (s.reg b) z t).setDone true) ∧
        z.HoldsCanonical s.modulus 1 ∧ t.Holds s.modulus (s.valAt a * s.valAt b % s.pInt)

/-- PADD, PDBL and PTPL write, in lazy form, the unified sum, the dedicated double, and the unified sum of the double and the point,
of whatever the four registers of their sources represent modulo p (R148 to R153). -/
def Obligations.PointArithmeticResults : Prop :=
  ∀ (s : State) (d a b : Slot), s.Inv → s.Ready → s.CurveSet → s.PointAt a → s.PointAt b →
    (∃ x y z t : FieldReg, Runs (.padd d a b) s ((s.setPoint d x y z t).setDone true) ∧
      PointHolds s.modulus x y z t (ringAdd s.curveA s.curveD (s.ringPoint a) (s.ringPoint b))) ∧
    (∃ x y z t : FieldReg, Runs (.pdbl d a) s ((s.setPoint d x y z t).setDone true) ∧
      PointHolds s.modulus x y z t (ringDouble s.curveA (s.ringPoint a))) ∧
    ∃ x y z t : FieldReg, Runs (.ptpl d a) s ((s.setPoint d x y z t).setDone true) ∧
      PointHolds s.modulus x y z t
        (ringAdd s.curveA s.curveD (ringDouble s.curveA (s.ringPoint a)) (s.ringPoint a))

/-- PMUL normalizes the scalar F[b] and writes it back, then writes to P[d] the canonical coordinates of the ladder over all n bits
of the scalar, from the identity and P[a] (R155, R156, R159). -/
def Obligations.PmulResult : Prop :=
  ∀ (s : State) (d a b : Slot), s.Inv → s.Ready → s.CurveSet → s.PointAt a → s.FieldAt b →
    ∃ k x y z t : FieldReg, Runs (.pmul d a b) s (((s.setReg b k).setPoint d x y z t).setDone true) ∧
      k.HoldsCanonical s.modulus (s.valAt b) ∧
      x.IsCanonical s.modulus ∧ y.IsCanonical s.modulus ∧ z.IsCanonical s.modulus ∧ t.IsCanonical s.modulus ∧
      PointHolds s.modulus x y z t
        (ringLadder s.curveA s.curveD (s.valAt b).toNat s.modulus.n (ringIdentity, s.ringPoint a)).1

/-- Every point a point command writes satisfies the extension invariant X·Y = Z·T modulo p, on the curve or not (R27, R146, R147). -/
def Obligations.WrittenPointsSatisfyTheExtensionInvariant : Prop :=
  ∀ (s u : State) (i : Instr) (d : Slot), s.Inv → s.Ready →
    (i = .pzero d ∨ (∃ a b, i = .pinit d a b) ∨ (∃ a b, i = .padd d a b) ∨ (∃ a, i = .pdbl d a) ∨ (∃ a, i = .ptpl d a) ∨
      ∃ a b, i = .pmul d a b) →
    Runs i s u → (u.ringPoint d).X * (u.ringPoint d).Y = (u.ringPoint d).Z * (u.ringPoint d).T

/-- For a point with a·X² + Y² = Z² + d·T² (the curve equation in extended coordinates), what PDBL writes is minus what PADD of the
point with itself writes, in every coordinate (R151). -/
def Obligations.DoublingIsMinusTheUnifiedSum : Prop :=
  ∀ (s : State) (d a : Slot), s.Inv → s.Ready → s.CurveSet → s.PointAt a →
    s.curveA * (s.ringPoint a).X ^ 2 + (s.ringPoint a).Y ^ 2 = (s.ringPoint a).Z ^ 2 + s.curveD * (s.ringPoint a).T ^ 2 →
    ∃ (x y z t x' y' z' t' : FieldReg) (Q : RingPoint (ZMod s.modulus.p)),
      Runs (.padd d a a) s ((s.setPoint d x y z t).setDone true) ∧ PointHolds s.modulus x y z t Q ∧
      Runs (.pdbl d a) s ((s.setPoint d x' y' z' t').setDone true) ∧
      PointHolds s.modulus x' y' z' t' { X := -Q.X, Y := -Q.Y, Z := -Q.Z, T := -Q.T }

/-! ### Whole-machine statements (70_reset_and_hazards.md) -/

/-- Value abstraction: two states that hold the same values in their valid registers, CA and CD, and agree on all else, take the same
step to states that again do, so no sequence of host accesses tells lazy limbs apart (R199). -/
def Obligations.HostsSeeValuesNotLimbs : Prop :=
  ∀ s t : State, s.Inv → t.Inv → SameValues s t → SameOutcome SameValues (step s) (step t)

/-- Constant time, as far as an untimed model can say it: two states that agree on everything public (valid bits, tags, error state,
the command in flight, ARG only in being below n) step alike, to states that again agree, show the same STATUS word and drive the
same irq. Field values, mask bits, scalar bits, DATA and RESULT have no influence (R161, R197). Clock cycles are outside the
model (log entry 4). -/
def Obligations.StatusAndIrqDependOnPublicData : Prop :=
  ∀ s t : State, SamePublic s t →
    SameOutcome (fun u v => SamePublic u v ∧ u.statusWord = v.statusWord ∧ u.irq = v.irq) (step s) (step t)

/-- A command in flight completes if no turn to come is a reset: within the turns to come and one step more there is a step that is
its completion, with the pending results it was issued with (R194). The bound is the model's own choice (log entry 1, DESIGN
CHOICE), as in `NothingIsInFlightAfterTheLastTurn`. -/
def Obligations.ACommandInFlightCompletesUnlessReset : Prop :=
  ∀ s u : State, s.inflight ≠ none → Host.Core.run Sys2Proof.core (s.agenda.length + 1) s = .next u →
    (∀ t ∈ s.agenda, t ≠ .hardReset ∧ ∀ v : Word, t = s.writeAt 0x004 v → v.getLsbD 0 = false) →
    ∃ (k : Nat) (v : State), k ≤ s.agenda.length ∧ Host.Core.run Sys2Proof.core k s = .next v ∧ v.inflight = s.inflight ∧
      step v = .next (complete (v.setAgenda v.agenda.tail))

end
end

