-- ==== Sys2Proof/Laws/Encoding.lean ====
section
/-! SUPPORT. The fields of an assembled command word read back (30_encoding.md R68, R80). -/

namespace Sys2Proof

theorem toNat_commandWord {op : Nat} (h : op < 64) (d a b m : Slot) :
    (commandWord op d a b m).toNat = op * 2 ^ 26 + d.val * 2 ^ 21 + a.val * 2 ^ 16 + b.val * 2 ^ 11 + m.val * 2 ^ 6 := by
  have := d.isLt; have := a.isLt; have := b.isLt; have := m.isLt
  rw [commandWord, BitVec.toNat_ofNat, Nat.mod_eq_of_lt (by omega)]

theorem opField_commandWord {op : Nat} (h : op < 64) (d a b m : Slot) : opField (commandWord op d a b m) = op := by
  have := d.isLt; have := a.isLt; have := b.isLt; have := m.isLt
  rw [opField, toNat_commandWord h, Nat.shiftRight_eq_div_pow]; omega

theorem slotD_commandWord {op : Nat} (h : op < 64) (d a b m : Slot) : slotD (commandWord op d a b m) = d := by
  have := d.isLt; have := a.isLt; have := b.isLt; have := m.isLt
  ext; simp only [slotD, slotAt, toNat_commandWord h, Nat.shiftRight_eq_div_pow]; omega

theorem slotA_commandWord {op : Nat} (h : op < 64) (d a b m : Slot) : slotA (commandWord op d a b m) = a := by
  have := d.isLt; have := a.isLt; have := b.isLt; have := m.isLt
  ext; simp only [slotA, slotAt, toNat_commandWord h, Nat.shiftRight_eq_div_pow]; omega

theorem slotB_commandWord {op : Nat} (h : op < 64) (d a b m : Slot) : slotB (commandWord op d a b m) = b := by
  have := d.isLt; have := a.isLt; have := b.isLt; have := m.isLt
  ext; simp only [slotB, slotAt, toNat_commandWord h, Nat.shiftRight_eq_div_pow]; omega

theorem slotM_commandWord {op : Nat} (h : op < 64) (d a b m : Slot) : slotM (commandWord op d a b m) = m := by
  have := d.isLt; have := a.isLt; have := b.isLt; have := m.isLt
  ext; simp only [slotM, slotAt, toNat_commandWord h, Nat.shiftRight_eq_div_pow]; omega

theorem zField_commandWord {op : Nat} (h : op < 64) (d a b m : Slot) : zField (commandWord op d a b m) = 0 := by
  have := d.isLt; have := a.isLt; have := b.isLt; have := m.isLt
  rw [zField, toNat_commandWord h]; omega

/-- A word is its six fields (R68). -/
theorem toNat_eq_fields (w : Word) : w.toNat =
    opField w * 2 ^ 26 + (slotD w).val * 2 ^ 21 + (slotA w).val * 2 ^ 16 + (slotB w).val * 2 ^ 11 + (slotM w).val * 2 ^ 6
      + zField w := by
  simp only [opField, slotD, slotA, slotB, slotM, slotAt, zField, Nat.shiftRight_eq_div_pow]
  omega

theorem opField_lt (w : Word) : opField w < 64 := by
  have := w.isLt
  rw [opField, Nat.shiftRight_eq_div_pow]; omega

/-- A word whose reserved bits are zero is the word assembled from its fields. -/
theorem commandWord_fields {w : Word} (h : zField w = 0) :
    commandWord (opField w) (slotD w) (slotA w) (slotB w) (slotM w) = w := by
  apply BitVec.eq_of_toNat_eq
  rw [toNat_commandWord (opField_lt w), toNat_eq_fields w, h, Nat.add_zero]

/-- When `checked` reads a command, the reserved bits, the unused slots and the ranges are as they must be. -/
theorem checked_eq_ok {w : Word} {unused points selectors : List Slot} {i j : Instr}
    (h : checked w unused points selectors i = .ok j) :
    j = i ∧ zField w = 0 ∧ (∀ k ∈ unused, k = 0) ∧ (∀ k ∈ points, pointSlotOk k = true) ∧
      (∀ k ∈ selectors, selectorSlotOk k = true) := by
  simp only [checked] at h
  split at h
  · cases h
  · split at h
    · cases h
    · split at h
      · cases h
      · split at h
        · cases h
        · rename_i hz hu hp hs
          cases h
          exact ⟨rfl, by simpa using hz, by simpa using hu, by simpa using hp, by simpa using hs⟩

end Sys2Proof
end

