-- ==== Sys2Proof/Laws/Limbs.lean ====
section
/-! SUPPORT. The limb primitives (40_representation.md R86 to R88, 42_multiply_reduce.md R115, 43_exponentiation.md R120): what each
one does to V, and that `settle` is `split` of the folded value, which gives every bound on its limbs. -/

namespace Sys2Proof.Machine

/-! ### Powers, shifts and masks -/

theorem pow2_eq (k : Nat) : pow2 k = (2 : Int) ^ k := by simp [pow2]

theorem pow2_pos (k : Nat) : 0 < pow2 k := by simp [pow2]

theorem pow2_ne_zero (k : Nat) : pow2 k ≠ 0 := (pow2_pos k).ne'

theorem pow2_add (j k : Nat) : pow2 (j + k) = pow2 j * pow2 k := by simp [pow2, pow_add]

@[simp] theorem pow2_zero : pow2 0 = 1 := rfl

/-- A number is its low k bits and the rest. -/
theorem lowBits_add_asr (x : Int) (k : Nat) : lowBits x k + pow2 k * asr x k = x := Int.emod_add_mul_ediv x (pow2 k)

theorem lowBits_nonneg (x : Int) (k : Nat) : 0 ≤ lowBits x k := Int.emod_nonneg x (pow2_ne_zero k)

theorem lowBits_lt (x : Int) (k : Nat) : lowBits x k < pow2 k := Int.emod_lt_of_pos x (pow2_pos k)

/-- x >> k is the integer q with q·2^k ≤ x < (q + 1)·2^k. -/
theorem asr_eq_iff (x q : Int) (k : Nat) : asr x k = q ↔ q * pow2 k ≤ x ∧ x < (q + 1) * pow2 k := by
  rw [asr, Int.ediv_eq_iff_of_pos (pow2_pos k), add_mul, one_mul]

theorem asr_asr (x : Int) (j k : Nat) : asr (asr x j) k = asr x (j + k) := by
  simp only [asr, pow2_add]
  exact Int.ediv_ediv_of_nonneg (pow2_pos j).le

theorem asr_add_mul (x y : Int) (k : Nat) : asr (x + pow2 k * y) k = asr x k + y :=
  Int.add_mul_ediv_left x y (pow2_ne_zero k)

theorem lowBits_add_mul (x y : Int) (k : Nat) : lowBits (x + pow2 k * y) k = lowBits x k :=
  Int.add_mul_emod_self_left x (pow2 k) y

/-! ### The configurations (R5, R6) -/

/-- n = B·(N−1) + T. -/
theorem n_eq (m : ModulusId) : m.n = m.limbWidth * (m.limbCount - 1) + m.topWidth := by cases m <;> decide

theorem limbCount_ge (m : ModulusId) : 8 ≤ m.limbCount := by cases m <;> decide

/-- Every configuration satisfies the bounds of R6. -/
theorem configuration_bounds (m : ModulusId) : m.Bounds := by cases m <;> constructor <;> decide +kernel

/-- c is below 2^n (R6). -/
theorem c_lt (m : ModulusId) : m.c < 2 ^ m.n := by
  have := (configuration_bounds m).modulusLarge
  omega

/-- p = 2^n − c, as integers. -/
theorem p_eq (m : ModulusId) : (m.p : Int) = pow2 m.n - m.c := by
  have := c_lt m
  simp only [ModulusId.p, pow2]
  omega

theorem p_pos (m : ModulusId) : 0 < m.p := Nat.sub_pos_of_lt (c_lt m)

theorem pow2_n (m : ModulusId) : pow2 m.n = pow2 (m.limbWidth * (m.limbCount - 1)) * pow2 m.topWidth := by
  rw [← pow2_add, ← n_eq]

/-! ### V -/

@[simp] theorem valueAt_nil (B : Nat) : valueAt B [] = 0 := rfl

@[simp] theorem valueAt_cons (B : Nat) (x : Int) (w : List Int) : valueAt B (x :: w) = x + pow2 B * valueAt B w := rfl

theorem length_addLow (k : Int) (w : List Int) : (addLow k w).length = w.length := by cases w <;> rfl

theorem valueAt_addLow (B : Nat) (k : Int) {w : List Int} (h : w ≠ []) : valueAt B (addLow k w) = valueAt B w + k := by
  cases w with
  | nil => exact absurd rfl h
  | cons x w => simp only [addLow, valueAt_cons]; ring

theorem topLimb_addLow (k : Int) {w : List Int} (h : 2 ≤ w.length) : topLimb (addLow k w) = topLimb w := by
  match w, h with
  | x :: y :: w, _ => simp [addLow, topLimb]

@[simp] theorem topLimb_cons_cons (x y : Int) (w : List Int) : topLimb (x :: y :: w) = topLimb (y :: w) := by
  simp [topLimb]

@[simp] theorem topLimb_singleton (t : Int) : topLimb [t] = t := rfl

theorem length_mapTop (f : Int → Int) (w : List Int) : (mapTop f w).length = w.length := by
  induction w using mapTop.induct with
  | case1 => rfl
  | case2 t => rfl
  | case3 x y w ih => simp [mapTop, ih]

/-- Replacing the top limb moves V by the change times the top limb's weight. -/
theorem valueAt_mapTop (B : Nat) (f : Int → Int) {w : List Int} (h : w ≠ []) :
    valueAt B (mapTop f w) = valueAt B w + pow2 (B * (w.length - 1)) * (f (topLimb w) - topLimb w) := by
  induction w using mapTop.induct with
  | case1 => exact absurd rfl h
  | case2 t => simp [mapTop]
  | case3 x y w ih =>
    have hw : B * ((x :: y :: w).length - 1) = B + B * ((y :: w).length - 1) := by
      simp only [List.length_cons, Nat.add_sub_cancel]; ring
    rw [hw, pow2_add]
    simp only [mapTop, valueAt_cons B x, ih (by simp), topLimb_cons_cons]
    ring

/-- V adds up limb by limb. -/
theorem valueAt_zipWith_add (B : Nat) {x y : List Int} (h : x.length = y.length) :
    valueAt B (List.zipWith (fun a b => a + b) x y) = valueAt B x + valueAt B y := by
  induction x generalizing y with
  | nil => cases y <;> simp_all
  | cons a x ih =>
    cases y with
    | nil => simp at h
    | cons b y => simp only [List.zipWith_cons_cons, valueAt_cons, ih (by simpa using h)]; ring

/-- V subtracts limb by limb. -/
theorem valueAt_zipWith_sub (B : Nat) {x y : List Int} (h : x.length = y.length) :
    valueAt B (List.zipWith (fun a b => a - b) x y) = valueAt B x - valueAt B y := by
  induction x generalizing y with
  | nil => cases y <;> simp_all
  | cons a x ih =>
    cases y with
    | nil => simp at h
    | cons b y => simp only [List.zipWith_cons_cons, valueAt_cons, ih (by simpa using h)]; ring

/-- V scales limb by limb. -/
theorem valueAt_map_mul (B : Nat) (k : Int) (x : List Int) : valueAt B (x.map (fun a => a * k)) = valueAt B x * k := by
  induction x with
  | nil => simp
  | cons a x ih => simp only [List.map_cons, valueAt_cons, ih]; ring

/-! ### split -/

theorem length_splitAt (B k : Nat) (R : Int) : (splitAt B k R).length = k := by
  induction k, R using splitAt.induct (B := B) with
  | case1 => rfl
  | case2 => rfl
  | case3 k R ih => simp [splitAt, ih]

/-- V(split(R)) = R (R87). -/
theorem valueAt_splitAt (B : Nat) {k : Nat} (h : k ≠ 0) (R : Int) : valueAt B (splitAt B k R) = R := by
  induction k, R using splitAt.induct (B := B) with
  | case1 => exact absurd rfl h
  | case2 => simp [splitAt]
  | case3 k R ih => simp [splitAt, ih, lowBits_add_asr]

/-- The top limb of split(R) is R >> (B·(N−1)) (R87). -/
theorem topLimb_splitAt (B k : Nat) (R : Int) : topLimb (splitAt B (k + 1) R) = asr R (B * k) := by
  induction k generalizing R with
  | zero => simp [splitAt, asr]
  | succ k ih =>
    have hne : splitAt B (k + 1) (asr R B) ≠ [] := fun e => by
      have := length_splitAt B (k + 1) (asr R B); simp [e] at this
    obtain ⟨y, w, hw⟩ := List.exists_cons_of_ne_nil hne
    have := ih (asr R B)
    rw [hw] at this
    simp only [splitAt, hw, topLimb_cons_cons, this, asr_asr]
    congr 1; ring

/-- Every limb of split(R) below the top one is in [0, 2^B) (R87). -/
theorem splitAt_lower (B k : Nat) (R : Int) : ∀ x ∈ (splitAt B k R).dropLast, 0 ≤ x ∧ x < pow2 B := by
  induction k, R using splitAt.induct (B := B) with
  | case1 => simp [splitAt]
  | case2 => simp [splitAt]
  | case3 k R ih =>
    intro x hx
    have hne : splitAt B (k + 1) (asr R B) ≠ [] := fun e => by
      have := length_splitAt B (k + 1) (asr R B); simp [e] at this
    rw [splitAt, List.dropLast_cons_of_ne_nil hne, List.mem_cons] at hx
    rcases hx with rfl | hx
    · exact ⟨lowBits_nonneg R B, lowBits_lt R B⟩
    · exact ih x hx

/-- A vector whose lower limbs are in range is the split of its value. -/
theorem splitAt_valueAt (B : Nat) (w : List Int) (h : ∀ x ∈ w.dropLast, 0 ≤ x ∧ x < pow2 B) :
    splitAt B w.length (valueAt B w) = w := by
  induction w with
  | nil => rfl
  | cons x w ih =>
    cases w with
    | nil => simp [splitAt]
    | cons y w =>
      have hx : 0 ≤ x ∧ x < pow2 B := h x (by simp)
      have hlow : lowBits (x + pow2 B * valueAt B (y :: w)) B = x := by
        rw [lowBits_add_mul]; exact Int.emod_eq_of_lt hx.1 hx.2
      have hasr : asr (x + pow2 B * valueAt B (y :: w)) B = valueAt B (y :: w) := by
        rw [asr_add_mul, asr, Int.ediv_eq_zero_of_lt hx.1 hx.2, zero_add]
      have ih' := ih fun z hz => h z (by simp only [List.dropLast_cons_of_ne_nil (List.cons_ne_nil y w), List.mem_cons]; exact .inr hz)
      simp only [List.length_cons] at ih' ⊢
      rw [splitAt, valueAt_cons, hlow, hasr, ih']

@[simp] theorem length_split (m : ModulusId) (R : Int) : (split m R).length = m.limbCount := length_splitAt _ _ _

@[simp] theorem vInt_split (m : ModulusId) (R : Int) : vInt m (split m R) = R :=
  valueAt_splitAt _ (by have := limbCount_ge m; omega) R

theorem topLimb_split (m : ModulusId) (R : Int) : topLimb (split m R) = asr R (m.limbWidth * (m.limbCount - 1)) := by
  have h : m.limbCount = (m.limbCount - 1) + 1 := by have := limbCount_ge m; omega
  rw [split, h, topLimb_splitAt]; simp

theorem val_split (m : ModulusId) (R : Int) : val m (split m R) = R % (m.p : Int) := by rw [val, vInt_split]

/-- A vector of N limbs with its lower limbs in range is the split of V. -/
theorem split_vInt (m : ModulusId) {w : List Int} (hl : w.length = m.limbCount)
    (h : ∀ x ∈ w.dropLast, 0 ≤ x ∧ x < pow2 m.limbWidth) : split m (vInt m w) = w := by
  rw [split, ← hl]; exact splitAt_valueAt _ _ h

/-! ### settle -/

/-- A carry pass is the split of V plus the carry that comes in. -/
theorem carryPass_eq_splitAt (B : Nat) (q : Int) (w : List Int) :
    carryPass B q w = splitAt B w.length (if w = [] then 0 else valueAt B w + q) := by
  induction q, w using carryPass.induct (B := B) with
  | case1 => rfl
  | case2 q t => simp [carryPass, splitAt]
  | case3 q x y w ih =>
    have hadd : valueAt B (x :: y :: w) + q = (x + q) + pow2 B * valueAt B (y :: w) := by rw [valueAt_cons]; ring
    simp only [carryPass, ih, List.length_cons, splitAt, reduceCtorEq, if_false, hadd, lowBits_add_mul, asr_add_mul]
    rw [add_comm (asr (x + q) B)]

/-- settle(s) is split(fold(s)) (R86, R88): the stash is folded, and the limbs are those of the folded value. -/
theorem settle_eq_split (m : ModulusId) {s : List Int} (h : s.length = m.limbCount) : settle m s = split m (fold m s) := by
  have hne : s ≠ [] := fun e => by have := limbCount_ge m; simp [e] at h; omega
  have hlen : (mapTop (fun t => t - stash m s * pow2 m.topWidth) s).length = s.length := length_mapTop _ _
  have hne' : mapTop (fun t => t - stash m s * pow2 m.topWidth) s ≠ [] := fun e => by
    rw [e] at hlen; exact hne (List.length_eq_zero_iff.1 hlen.symm)
  have hne'' : addLow (m.c * stash m s) (mapTop (fun t => t - stash m s * pow2 m.topWidth) s) ≠ [] := fun e => by
    have := length_addLow (m.c * stash m s) (mapTop (fun t => t - stash m s * pow2 m.topWidth) s)
    rw [e, hlen] at this; exact hne (List.length_eq_zero_iff.1 this.symm)
  have hv : valueAt m.limbWidth (addLow (m.c * stash m s) (mapTop (fun t => t - stash m s * pow2 m.topWidth) s)) = fold m s := by
    rw [valueAt_addLow _ _ hne', valueAt_mapTop _ _ hne, fold, vInt, h, p_eq, pow2_n]
    ring
  simp only [settle]
  rw [carryPass_eq_splitAt, length_addLow, hlen, h, if_neg hne'', hv, add_zero, split]

@[simp] theorem length_settle (m : ModulusId) {s : List Int} (h : s.length = m.limbCount) : (settle m s).length = m.limbCount := by
  rw [settle_eq_split m h, length_split]

/-- V(settle(s)) = V(s) − stash(s)·p (R86). -/
theorem vInt_settle (m : ModulusId) {s : List Int} (h : s.length = m.limbCount) :
    vInt m (settle m s) = vInt m s - stash m s * (m.p : Int) := by
  rw [settle_eq_split m h, vInt_split, fold]

/-- settle keeps the value. -/
theorem val_settle (m : ModulusId) {s : List Int} (h : s.length = m.limbCount) : val m (settle m s) = val m s := by
  rw [val, vInt_settle m h, val, Int.sub_mul_emod_self_right]

/-! ### The field primitives, at the value level -/

theorem length_reduce (m : ModulusId) (P : Int) : (reduce m P).length = m.limbCount := length_settle m (length_split m _)

/-- reduce(P) represents P (R115). -/
theorem val_reduce (m : ModulusId) (P : Int) : val m (reduce m P) = P % (m.p : Int) := by
  have h : lowBits P m.n + m.c * asr P m.n = P + (m.p : Int) * (-asr P m.n) := by
    have := lowBits_add_asr P m.n
    rw [p_eq]; linear_combination this
  rw [reduce, val_settle m (length_split m _), val_split, h, Int.add_mul_emod_self_left]

theorem length_fieldMul (m : ModulusId) (x y : List Int) : (fieldMul m x y).length = m.limbCount := length_reduce m _

theorem val_fieldMul (m : ModulusId) (x y : List Int) : val m (fieldMul m x y) = val m x * val m y % (m.p : Int) := by
  rw [fieldMul, val_reduce, val, val, ← Int.mul_emod]

theorem length_fieldAdd (m : ModulusId) {x y : List Int} (hx : x.length = m.limbCount) (hy : y.length = m.limbCount) :
    (fieldAdd m x y).length = m.limbCount := length_settle m (by simp [hx, hy])

theorem val_fieldAdd (m : ModulusId) {x y : List Int} (hx : x.length = m.limbCount) (hy : y.length = m.limbCount) :
    val m (fieldAdd m x y) = (val m x + val m y) % (m.p : Int) := by
  rw [fieldAdd, val_settle m (by simp [hx, hy]), val, vInt, valueAt_zipWith_add _ (hx.trans hy.symm), val, val, ← Int.add_emod]
  rfl

theorem length_fieldSub (m : ModulusId) {x y : List Int} (hx : x.length = m.limbCount) (hy : y.length = m.limbCount) :
    (fieldSub m x y).length = m.limbCount := length_settle m (by simp [hx, hy])

theorem val_fieldSub (m : ModulusId) {x y : List Int} (hx : x.length = m.limbCount) (hy : y.length = m.limbCount) :
    val m (fieldSub m x y) = (val m x - val m y) % (m.p : Int) := by
  rw [fieldSub, val_settle m (by simp [hx, hy]), val, vInt, valueAt_zipWith_sub _ (hx.trans hy.symm), val, val, ← Int.sub_emod]
  rfl

theorem length_expSteps (m : ModulusId) (x : List Int) (e j : Nat) {r : List Int} (h : r.length = m.limbCount) :
    (expSteps m x e j r).length = m.limbCount := by
  induction j generalizing r with
  | zero => exact h
  | succ j ih =>
    simp only [expSteps]
    split <;> exact ih (length_fieldMul m _ _)

theorem length_exp (m : ModulusId) (x : List Int) (e : Nat) : (exp m x e).length = m.limbCount :=
  length_expSteps m x e _ (length_split m 1)

/-- The steps for the low j exponent bits raise r to 2^j and multiply in x to the power of those bits. -/
theorem expSteps_modEq (m : ModulusId) (x : List Int) (e j : Nat) (r : List Int) :
    vInt m (expSteps m x e j r) ≡ vInt m r ^ 2 ^ j * vInt m x ^ (e % 2 ^ j) [ZMOD (m.p : Int)] := by
  have hmul (a b : List Int) : vInt m (fieldMul m a b) ≡ vInt m a * vInt m b [ZMOD (m.p : Int)] := val_reduce m _
  induction j generalizing r with
  | zero => simp [expSteps, Nat.mod_one]
  | succ j ih =>
    have hsq : vInt m (fieldMul m r r) ^ 2 ^ j ≡ vInt m r ^ 2 ^ (j + 1) [ZMOD (m.p : Int)] := by
      refine ((hmul r r).pow _).trans ?_
      rw [← pow_two, ← pow_mul, pow_succ' 2 j]
    simp only [expSteps]
    by_cases hb : e.testBit j = true
    · have he : e % 2 ^ (j + 1) = 2 ^ j + e % 2 ^ j := by
        have h1 : e / 2 ^ j % 2 = 1 := by rw [Nat.testBit_eq_decide_div_mod_eq] at hb; simpa using hb
        rw [pow_succ, Nat.mod_mul, h1]; ring
      rw [if_pos hb, he, pow_add]
      refine (ih _).trans ?_
      have h2 := (hmul (fieldMul m r r) x).pow (2 ^ j)
      rw [mul_pow] at h2
      calc vInt m (fieldMul m (fieldMul m r r) x) ^ 2 ^ j * vInt m x ^ (e % 2 ^ j)
          ≡ vInt m (fieldMul m r r) ^ 2 ^ j * vInt m x ^ 2 ^ j * vInt m x ^ (e % 2 ^ j) [ZMOD (m.p : Int)] := h2.mul_right _
        _ ≡ vInt m r ^ 2 ^ (j + 1) * vInt m x ^ 2 ^ j * vInt m x ^ (e % 2 ^ j) [ZMOD (m.p : Int)] :=
            (hsq.mul_right _).mul_right _
        _ = _ := by ring
    · have he : e % 2 ^ (j + 1) = e % 2 ^ j := by
        have h0 : e / 2 ^ j % 2 = 0 := by
          rw [Nat.testBit_eq_decide_div_mod_eq] at hb; simp at hb; omega
        rw [pow_succ, Nat.mod_mul, h0]; simp
      rw [if_neg hb, he]
      exact (ih _).trans (hsq.mul_right _)

/-- EXP(x, e) represents val(x)^e (R120). -/
theorem val_exp (m : ModulusId) (x : List Int) (e : Nat) : val m (exp m x e) = val m x ^ e % (m.p : Int) := by
  have h := expSteps_modEq m x e (e.log2 + 1) (split m 1)
  rw [vInt_split, one_pow, one_mul, Nat.mod_eq_of_lt Nat.lt_log2_self] at h
  exact h.trans ((Int.mod_modEq _ _).pow e).symm

/-! ### Words and integers -/

/-- A vector of integers inside the 64-bit range is not changed by narrowing. -/
theorem toInts_toLimbs {w : List Int} (h : ∀ x ∈ w, -2 ^ 63 ≤ x ∧ x < 2 ^ 63) : toInts (toLimbs w) = w := by
  simp only [toInts, toLimbs, List.map_map]
  conv => rhs; rw [← List.map_id w]
  refine List.map_congr_left fun x hx => ?_
  have := h x hx
  simp only [Function.comp_apply, id_eq]
  exact BitVec.toInt_ofInt_eq_self (by decide) this.1 this.2

theorem toLimbs_toInts (w : Limbs) : toLimbs (toInts w) = w := by simp [toLimbs, toInts, Function.comp_def]

@[simp] theorem length_toInts (w : Limbs) : (toInts w).length = w.length := by simp [toInts]

@[simp] theorem length_toLimbs (w : List Int) : (toLimbs w).length = w.length := by simp [toLimbs]

/-! ### The representation invariants -/

theorem lazyForm_iff (m : ModulusId) (w : List Int) : lazyForm m w = true ↔
    w.length = m.limbCount ∧ (∀ x ∈ w.dropLast, 0 ≤ x ∧ x < pow2 m.limbWidth) ∧ -pow2 32 < topLimb w ∧ topLimb w < pow2 32 := by
  simp [lazyForm, and_assoc]

theorem canonical_iff (m : ModulusId) (w : List Int) : canonical m w = true ↔
    w.length = m.limbCount ∧ (∀ x ∈ w.dropLast, 0 ≤ x ∧ x < pow2 m.limbWidth) ∧ 0 ≤ topLimb w ∧ topLimb w < pow2 m.topWidth
      ∧ vInt m w < (m.p : Int) := by
  simp [canonical, and_assoc]

/-- split(R) satisfies INV when its top limb is in range. -/
theorem lazyForm_split (m : ModulusId) (R : Int) (h : -pow2 32 < asr R (m.limbWidth * (m.limbCount - 1)))
    (h' : asr R (m.limbWidth * (m.limbCount - 1)) < pow2 32) : lazyForm m (split m R) = true := by
  rw [lazyForm_iff, topLimb_split]
  exact ⟨length_split m R, splitAt_lower _ _ _, h, h'⟩

/-- canon(x) is canonical for x in [0, p) (R87). -/
theorem canonical_split (m : ModulusId) {x : Int} (h0 : 0 ≤ x) (h1 : x < (m.p : Int)) : canonical m (split m x) = true := by
  rw [canonical_iff, topLimb_split, vInt_split]
  refine ⟨length_split m x, splitAt_lower _ _ _, Int.ediv_nonneg h0 (pow2_pos _).le, ?_, h1⟩
  refine Int.ediv_lt_of_lt_mul (pow2_pos _) ?_
  have := p_eq m
  rw [pow2_n] at this
  have hc : (0 : Int) ≤ m.c := Int.natCast_nonneg _
  rw [mul_comm]; omega

/-- Every canonical vector satisfies INV (R29). -/
theorem lazyForm_of_canonical (m : ModulusId) {w : List Int} (h : canonical m w = true) : lazyForm m w = true := by
  rw [canonical_iff] at h
  have hT : pow2 m.topWidth ≤ pow2 32 := by cases m <;> decide
  have h32 : (0 : Int) < pow2 32 := pow2_pos 32
  rw [lazyForm_iff]
  exact ⟨h.1, h.2.1, by omega, by omega⟩

/-- The words of a vector that satisfies INV are inside the 64-bit range. -/
theorem toInts_toLimbs_of_lazyForm (m : ModulusId) {w : List Int} (h : lazyForm m w = true) : toInts (toLimbs w) = w := by
  rw [lazyForm_iff] at h
  obtain ⟨hl, hlow, ht0, ht1⟩ := h
  have hB : pow2 m.limbWidth ≤ 2 ^ 29 := by cases m <;> decide
  have h32 : pow2 32 = 2 ^ 32 := pow2_eq 32
  refine toInts_toLimbs fun x hx => ?_
  have hne : w ≠ [] := List.ne_nil_of_mem hx
  rw [← List.dropLast_append_getLast hne, List.mem_append, List.mem_singleton] at hx
  rcases hx with hx | hx
  · have := hlow x hx; omega
  · have htop : topLimb w = w.getLast hne := by simp [topLimb, List.getLastD_eq_getLast?, List.getLast?_eq_some_getLast hne]
    rw [htop, ← hx] at ht0 ht1
    omega

end Sys2Proof.Machine
end

