-- ==== Sys2Proof/Laws/Memory.lean ====
section
/-! SUPPORT. The DATA window: what a read returns after a write, that every operation keeps the canonical form, and that equal
contents are equal lists. -/

namespace Sys2Proof.Machine

theorem Memory.wfFrom_cons {lo a : Nat} {v : Byte} {m : Memory} :
    Memory.wfFrom lo ((a, v) :: m) = true ↔ lo ≤ a ∧ a < dataSize ∧ v ≠ unlistedByte ∧ Memory.wfFrom (a + 1) m = true := by
  simp [Memory.wfFrom, and_assoc]

/-- A lower bound may be lowered. -/
theorem Memory.wfFrom_mono {lo hi : Nat} (h : lo ≤ hi) {m : Memory} (hm : m.wfFrom hi = true) : m.wfFrom lo = true := by
  cases m with
  | nil => rfl
  | cons c m => obtain ⟨a, v⟩ := c; rw [Memory.wfFrom_cons] at *; exact ⟨by omega, hm.2⟩

/-- Below the lower bound nothing is listed. -/
theorem Memory.read_below {m : Memory} {lo j : Nat} (hm : m.wfFrom lo = true) (hj : j < lo) : m.read j = unlistedByte := by
  induction m generalizing lo with
  | nil => rfl
  | cons c m ih =>
    obtain ⟨a, v⟩ := c
    rw [Memory.wfFrom_cons] at hm
    simp only [Memory.read, show j ≠ a by omega, if_false]
    exact ih hm.2.2.2 (by omega)

/-- Read after write, the same byte or another. -/
theorem Memory.read_write_from {m : Memory} {lo : Nat} (hm : m.wfFrom lo = true) (a : Nat) (v : Byte) (j : Nat) :
    (m.write a v).read j = if j = a then v else m.read j := by
  induction m generalizing lo with
  | nil => by_cases hv : v = unlistedByte <;> simp [Memory.write, Memory.read, hv]
  | cons c m ih =>
    obtain ⟨b, x⟩ := c
    have hm' := hm
    rw [Memory.wfFrom_cons] at hm
    obtain ⟨-, hb, hx, hrest⟩ := hm
    have hlow {k : Nat} (hk : k < b) : Memory.read ((b, x) :: m) k = unlistedByte :=
      Memory.read_below (lo := b) (Memory.wfFrom_cons.2 ⟨le_rfl, hb, hx, hrest⟩) hk
    by_cases hab : a < b
    · by_cases hv : v = unlistedByte
      · by_cases hj : j = a
        · subst hj; simp [Memory.write, hab, hv, hlow hab]
        · simp [Memory.write, hab, hv, hj]
      · simp [Memory.write, hab, hv, Memory.read]
    · by_cases he : a = b
      · subst he
        by_cases hv : v = unlistedByte
        · by_cases hj : j = a
          · subst hj
            simp [Memory.write, hv, Memory.read_below hrest (Nat.lt_succ_self j)]
          · simp [Memory.write, hv, Memory.read, hj]
        · by_cases hj : j = a <;> simp [Memory.write, hv, Memory.read, hj]
      · simp only [Memory.write, hab, he, if_false, Memory.read, ih hrest]
        by_cases hj : j = b
        · simp [hj, show b ≠ a from fun h => he h.symm]
        · simp [hj]

/-- A write keeps the canonical form. -/
theorem Memory.write_wfFrom {m : Memory} {lo : Nat} (hm : m.wfFrom lo = true) {a : Nat} (hlo : lo ≤ a) (ha : a < dataSize)
    (v : Byte) : (m.write a v).wfFrom lo = true := by
  induction m generalizing lo with
  | nil =>
    by_cases hv : v = unlistedByte
    · simp [Memory.write, hv, Memory.wfFrom]
    · simp [Memory.write, hv, Memory.wfFrom, hlo, ha]
  | cons c m ih =>
    obtain ⟨b, x⟩ := c
    have hm' := hm
    rw [Memory.wfFrom_cons] at hm
    obtain ⟨hb0, hb, hx, hrest⟩ := hm
    by_cases hab : a < b
    · by_cases hv : v = unlistedByte
      · simpa [Memory.write, hab, hv] using hm'
      · simp only [Memory.write, hab, if_true, hv, if_false, Memory.wfFrom_cons]
        exact ⟨hlo, ha, hv, by omega, hb, hx, hrest⟩
    · by_cases he : a = b
      · subst he
        by_cases hv : v = unlistedByte
        · simp only [Memory.write, hab, if_false, if_true, hv]
          exact Memory.wfFrom_mono (by omega) hrest
        · simp only [Memory.write, hab, if_false, if_true, hv, Memory.wfFrom_cons]
          exact ⟨hlo, ha, hv, hrest⟩
      · simp only [Memory.write, hab, he, if_false, Memory.wfFrom_cons]
        exact ⟨hb0, hb, hx, ih hrest (by omega)⟩

/-- Read after write on a canonical window. -/
theorem Memory.read_write {m : Memory} (hm : m.wf = true) (a : Nat) (v : Byte) (j : Nat) :
    (m.write a v).read j = if j = a then v else m.read j := Memory.read_write_from hm a v j

/-- A write of a DATA byte keeps the window canonical. -/
theorem Memory.write_wf {m : Memory} (hm : m.wf = true) {a : Nat} (ha : a < dataSize) (v : Byte) : (m.write a v).wf = true :=
  Memory.write_wfFrom hm (Nat.zero_le a) ha v

/-- Consecutive writes inside the window keep it canonical. -/
theorem Memory.writeBytes_wf {m : Memory} (hm : m.wf = true) {a : Nat} {bs : List Byte} (ha : a + bs.length ≤ dataSize) :
    (m.writeBytes a bs).wf = true := by
  induction bs generalizing m a with
  | nil => exact hm
  | cons v bs ih =>
    simp only [List.length_cons] at ha
    exact ih (Memory.write_wf hm (by omega) v) (by omega)

/-- What a byte reads as after consecutive writes inside the window. -/
theorem Memory.read_writeBytes {m : Memory} (hm : m.wf = true) {a : Nat} {bs : List Byte} (ha : a + bs.length ≤ dataSize)
    (j : Nat) : (m.writeBytes a bs).read j = if a ≤ j ∧ j < a + bs.length then bs.getD (j - a) 0 else m.read j := by
  induction bs generalizing m a with
  | nil => simp [Memory.writeBytes]
  | cons v bs ih =>
    simp only [List.length_cons] at ha
    simp only [Memory.writeBytes, ih (Memory.write_wf hm (show a < dataSize by omega) v) (show a + 1 + bs.length ≤ dataSize by omega),
      Memory.read_write hm, List.length_cons]
    rcases Nat.lt_trichotomy j a with h | h | h
    · simp [show ¬ a + 1 ≤ j by omega, show j ≠ a by omega, show ¬ a ≤ j by omega]
    · subst h; simp
    · by_cases h2 : j < a + 1 + bs.length
      · simp only [show a + 1 ≤ j by omega, h2, and_self, if_true, show a ≤ j by omega, show j < a + (bs.length + 1) by omega]
        rw [show j - a = (j - (a + 1)) + 1 by omega, List.getD_cons_succ]
      · simp [h2, show j ≠ a by omega, show ¬ j < a + (bs.length + 1) by omega]

/-- A DATAw write keeps the window canonical. -/
theorem Memory.writeWord_wf {m : Memory} (hm : m.wf = true) {w : Nat} (hw : w < 17) (v : Word) : (m.writeWord w v).wf = true :=
  Memory.writeBytes_wf hm (by simp [dataSize]; omega)

/-- Two canonical windows with equal contents are equal lists. -/
theorem Memory.ext_from {m m' : Memory} {lo lo' : Nat} (hm : m.wfFrom lo = true) (hm' : m'.wfFrom lo' = true)
    (h : ∀ j, m.read j = m'.read j) : m = m' := by
  induction m generalizing m' lo lo' with
  | nil =>
    cases m' with
    | nil => rfl
    | cons c m' =>
      obtain ⟨b, y⟩ := c
      rw [Memory.wfFrom_cons] at hm'
      have := h b
      simp only [Memory.read, if_true] at this
      exact absurd this.symm hm'.2.2.1
  | cons c m ih =>
    obtain ⟨a, x⟩ := c
    rw [Memory.wfFrom_cons] at hm
    cases m' with
    | nil =>
      have := h a
      simp only [Memory.read, if_true] at this
      exact absurd this hm.2.2.1
    | cons c' m' =>
      obtain ⟨b, y⟩ := c'
      rw [Memory.wfFrom_cons] at hm'
      have hab : a = b := by
        rcases Nat.lt_trichotomy a b with hlt | heq | hgt
        · have := h a
          rw [Memory.read_below (m := (b, y) :: m') (lo := b) (Memory.wfFrom_cons.2 ⟨le_rfl, hm'.2⟩) hlt] at this
          simp only [Memory.read, if_true] at this
          exact absurd this hm.2.2.1
        · exact heq
        · have := h b
          rw [Memory.read_below (m := (a, x) :: m) (lo := a) (Memory.wfFrom_cons.2 ⟨le_rfl, hm.2⟩) hgt] at this
          simp only [Memory.read, if_true] at this
          exact absurd this.symm hm'.2.2.1
      subst hab
      have hxy : x = y := by simpa [Memory.read] using h a
      subst hxy
      have : m = m' := ih hm.2.2.2 hm'.2.2.2 fun j => by
        by_cases hj : j = a
        · subst hj
          rw [Memory.read_below hm.2.2.2 (Nat.lt_succ_self j), Memory.read_below hm'.2.2.2 (Nat.lt_succ_self j)]
        · simpa [Memory.read, hj] using h j
      rw [this]

/-- Two canonical windows with equal contents are equal lists. -/
theorem Memory.ext_read {m m' : Memory} (hm : m.wf = true) (hm' : m'.wf = true) (h : ∀ j, m.read j = m'.read j) : m = m' :=
  Memory.ext_from hm hm' h

/-- DATA is canonical at reset. -/
theorem resetWith_data_wf (q : Params) : (State.resetWith q).data.wf = true := rfl

end Sys2Proof.Machine
end

