-- ==== Sys2Proof/Laws/State.lean ====
section
/-! SUPPORT. One lemma per field per update of State, and the reads of a register after a write of one. -/

namespace Sys2Proof.Machine

@[simp] theorem setReg_params (s : State) (i : Slot) (r : FieldReg) : (s.setReg i r).params = s.params := rfl
@[simp] theorem setReg_regs (s : State) (i : Slot) (r : FieldReg) : (s.setReg i r).regs = s.regs.set i.val r i.isLt := rfl
@[simp] theorem setReg_ca (s : State) (i : Slot) (r : FieldReg) : (s.setReg i r).ca = s.ca := rfl
@[simp] theorem setReg_cd (s : State) (i : Slot) (r : FieldReg) : (s.setReg i r).cd = s.cd := rfl
@[simp] theorem setReg_arg (s : State) (i : Slot) (r : FieldReg) : (s.setReg i r).arg = s.arg := rfl
@[simp] theorem setReg_result (s : State) (i : Slot) (r : FieldReg) : (s.setReg i r).result = s.result := rfl
@[simp] theorem setReg_data (s : State) (i : Slot) (r : FieldReg) : (s.setReg i r).data = s.data := rfl
@[simp] theorem setReg_done (s : State) (i : Slot) (r : FieldReg) : (s.setReg i r).done = s.done := rfl
@[simp] theorem setReg_err (s : State) (i : Slot) (r : FieldReg) : (s.setReg i r).err = s.err := rfl
@[simp] theorem setReg_ecode (s : State) (i : Slot) (r : FieldReg) : (s.setReg i r).ecode = s.ecode := rfl
@[simp] theorem setReg_ie (s : State) (i : Slot) (r : FieldReg) : (s.setReg i r).ie = s.ie := rfl
@[simp] theorem setReg_inflight (s : State) (i : Slot) (r : FieldReg) : (s.setReg i r).inflight = s.inflight := rfl
@[simp] theorem setReg_agenda (s : State) (i : Slot) (r : FieldReg) : (s.setReg i r).agenda = s.agenda := rfl
@[simp] theorem setReg_readData (s : State) (i : Slot) (r : FieldReg) : (s.setReg i r).readData = s.readData := rfl

@[simp] theorem setCa_params (s : State) (r : CurveReg) : (s.setCa r).params = s.params := rfl
@[simp] theorem setCa_regs (s : State) (r : CurveReg) : (s.setCa r).regs = s.regs := rfl
@[simp] theorem setCa_ca (s : State) (r : CurveReg) : (s.setCa r).ca = r := rfl
@[simp] theorem setCa_cd (s : State) (r : CurveReg) : (s.setCa r).cd = s.cd := rfl
@[simp] theorem setCa_arg (s : State) (r : CurveReg) : (s.setCa r).arg = s.arg := rfl
@[simp] theorem setCa_result (s : State) (r : CurveReg) : (s.setCa r).result = s.result := rfl
@[simp] theorem setCa_data (s : State) (r : CurveReg) : (s.setCa r).data = s.data := rfl
@[simp] theorem setCa_done (s : State) (r : CurveReg) : (s.setCa r).done = s.done := rfl
@[simp] theorem setCa_err (s : State) (r : CurveReg) : (s.setCa r).err = s.err := rfl
@[simp] theorem setCa_ecode (s : State) (r : CurveReg) : (s.setCa r).ecode = s.ecode := rfl
@[simp] theorem setCa_ie (s : State) (r : CurveReg) : (s.setCa r).ie = s.ie := rfl
@[simp] theorem setCa_inflight (s : State) (r : CurveReg) : (s.setCa r).inflight = s.inflight := rfl
@[simp] theorem setCa_agenda (s : State) (r : CurveReg) : (s.setCa r).agenda = s.agenda := rfl
@[simp] theorem setCa_readData (s : State) (r : CurveReg) : (s.setCa r).readData = s.readData := rfl

@[simp] theorem setCd_params (s : State) (r : CurveReg) : (s.setCd r).params = s.params := rfl
@[simp] theorem setCd_regs (s : State) (r : CurveReg) : (s.setCd r).regs = s.regs := rfl
@[simp] theorem setCd_ca (s : State) (r : CurveReg) : (s.setCd r).ca = s.ca := rfl
@[simp] theorem setCd_cd (s : State) (r : CurveReg) : (s.setCd r).cd = r := rfl
@[simp] theorem setCd_arg (s : State) (r : CurveReg) : (s.setCd r).arg = s.arg := rfl
@[simp] theorem setCd_result (s : State) (r : CurveReg) : (s.setCd r).result = s.result := rfl
@[simp] theorem setCd_data (s : State) (r : CurveReg) : (s.setCd r).data = s.data := rfl
@[simp] theorem setCd_done (s : State) (r : CurveReg) : (s.setCd r).done = s.done := rfl
@[simp] theorem setCd_err (s : State) (r : CurveReg) : (s.setCd r).err = s.err := rfl
@[simp] theorem setCd_ecode (s : State) (r : CurveReg) : (s.setCd r).ecode = s.ecode := rfl
@[simp] theorem setCd_ie (s : State) (r : CurveReg) : (s.setCd r).ie = s.ie := rfl
@[simp] theorem setCd_inflight (s : State) (r : CurveReg) : (s.setCd r).inflight = s.inflight := rfl
@[simp] theorem setCd_agenda (s : State) (r : CurveReg) : (s.setCd r).agenda = s.agenda := rfl
@[simp] theorem setCd_readData (s : State) (r : CurveReg) : (s.setCd r).readData = s.readData := rfl

@[simp] theorem setArg_params (s : State) (v : Word) : (s.setArg v).params = s.params := rfl
@[simp] theorem setArg_regs (s : State) (v : Word) : (s.setArg v).regs = s.regs := rfl
@[simp] theorem setArg_ca (s : State) (v : Word) : (s.setArg v).ca = s.ca := rfl
@[simp] theorem setArg_cd (s : State) (v : Word) : (s.setArg v).cd = s.cd := rfl
@[simp] theorem setArg_arg (s : State) (v : Word) : (s.setArg v).arg = v := rfl
@[simp] theorem setArg_result (s : State) (v : Word) : (s.setArg v).result = s.result := rfl
@[simp] theorem setArg_data (s : State) (v : Word) : (s.setArg v).data = s.data := rfl
@[simp] theorem setArg_done (s : State) (v : Word) : (s.setArg v).done = s.done := rfl
@[simp] theorem setArg_err (s : State) (v : Word) : (s.setArg v).err = s.err := rfl
@[simp] theorem setArg_ecode (s : State) (v : Word) : (s.setArg v).ecode = s.ecode := rfl
@[simp] theorem setArg_ie (s : State) (v : Word) : (s.setArg v).ie = s.ie := rfl
@[simp] theorem setArg_inflight (s : State) (v : Word) : (s.setArg v).inflight = s.inflight := rfl
@[simp] theorem setArg_agenda (s : State) (v : Word) : (s.setArg v).agenda = s.agenda := rfl
@[simp] theorem setArg_readData (s : State) (v : Word) : (s.setArg v).readData = s.readData := rfl

@[simp] theorem setResult_params (s : State) (v : Word) : (s.setResult v).params = s.params := rfl
@[simp] theorem setResult_regs (s : State) (v : Word) : (s.setResult v).regs = s.regs := rfl
@[simp] theorem setResult_ca (s : State) (v : Word) : (s.setResult v).ca = s.ca := rfl
@[simp] theorem setResult_cd (s : State) (v : Word) : (s.setResult v).cd = s.cd := rfl
@[simp] theorem setResult_arg (s : State) (v : Word) : (s.setResult v).arg = s.arg := rfl
@[simp] theorem setResult_result (s : State) (v : Word) : (s.setResult v).result = v := rfl
@[simp] theorem setResult_data (s : State) (v : Word) : (s.setResult v).data = s.data := rfl
@[simp] theorem setResult_done (s : State) (v : Word) : (s.setResult v).done = s.done := rfl
@[simp] theorem setResult_err (s : State) (v : Word) : (s.setResult v).err = s.err := rfl
@[simp] theorem setResult_ecode (s : State) (v : Word) : (s.setResult v).ecode = s.ecode := rfl
@[simp] theorem setResult_ie (s : State) (v : Word) : (s.setResult v).ie = s.ie := rfl
@[simp] theorem setResult_inflight (s : State) (v : Word) : (s.setResult v).inflight = s.inflight := rfl
@[simp] theorem setResult_agenda (s : State) (v : Word) : (s.setResult v).agenda = s.agenda := rfl
@[simp] theorem setResult_readData (s : State) (v : Word) : (s.setResult v).readData = s.readData := rfl

@[simp] theorem setData_params (s : State) (m : Memory) : (s.setData m).params = s.params := rfl
@[simp] theorem setData_regs (s : State) (m : Memory) : (s.setData m).regs = s.regs := rfl
@[simp] theorem setData_ca (s : State) (m : Memory) : (s.setData m).ca = s.ca := rfl
@[simp] theorem setData_cd (s : State) (m : Memory) : (s.setData m).cd = s.cd := rfl
@[simp] theorem setData_arg (s : State) (m : Memory) : (s.setData m).arg = s.arg := rfl
@[simp] theorem setData_result (s : State) (m : Memory) : (s.setData m).result = s.result := rfl
@[simp] theorem setData_data (s : State) (m : Memory) : (s.setData m).data = m := rfl
@[simp] theorem setData_done (s : State) (m : Memory) : (s.setData m).done = s.done := rfl
@[simp] theorem setData_err (s : State) (m : Memory) : (s.setData m).err = s.err := rfl
@[simp] theorem setData_ecode (s : State) (m : Memory) : (s.setData m).ecode = s.ecode := rfl
@[simp] theorem setData_ie (s : State) (m : Memory) : (s.setData m).ie = s.ie := rfl
@[simp] theorem setData_inflight (s : State) (m : Memory) : (s.setData m).inflight = s.inflight := rfl
@[simp] theorem setData_agenda (s : State) (m : Memory) : (s.setData m).agenda = s.agenda := rfl
@[simp] theorem setData_readData (s : State) (m : Memory) : (s.setData m).readData = s.readData := rfl

@[simp] theorem setDone_params (s : State) (b : Bool) : (s.setDone b).params = s.params := rfl
@[simp] theorem setDone_regs (s : State) (b : Bool) : (s.setDone b).regs = s.regs := rfl
@[simp] theorem setDone_ca (s : State) (b : Bool) : (s.setDone b).ca = s.ca := rfl
@[simp] theorem setDone_cd (s : State) (b : Bool) : (s.setDone b).cd = s.cd := rfl
@[simp] theorem setDone_arg (s : State) (b : Bool) : (s.setDone b).arg = s.arg := rfl
@[simp] theorem setDone_result (s : State) (b : Bool) : (s.setDone b).result = s.result := rfl
@[simp] theorem setDone_data (s : State) (b : Bool) : (s.setDone b).data = s.data := rfl
@[simp] theorem setDone_done (s : State) (b : Bool) : (s.setDone b).done = b := rfl
@[simp] theorem setDone_err (s : State) (b : Bool) : (s.setDone b).err = s.err := rfl
@[simp] theorem setDone_ecode (s : State) (b : Bool) : (s.setDone b).ecode = s.ecode := rfl
@[simp] theorem setDone_ie (s : State) (b : Bool) : (s.setDone b).ie = s.ie := rfl
@[simp] theorem setDone_inflight (s : State) (b : Bool) : (s.setDone b).inflight = s.inflight := rfl
@[simp] theorem setDone_agenda (s : State) (b : Bool) : (s.setDone b).agenda = s.agenda := rfl
@[simp] theorem setDone_readData (s : State) (b : Bool) : (s.setDone b).readData = s.readData := rfl

@[simp] theorem setError_params (s : State) (b : Bool) (c : BitVec 4) : (s.setError b c).params = s.params := rfl
@[simp] theorem setError_regs (s : State) (b : Bool) (c : BitVec 4) : (s.setError b c).regs = s.regs := rfl
@[simp] theorem setError_ca (s : State) (b : Bool) (c : BitVec 4) : (s.setError b c).ca = s.ca := rfl
@[simp] theorem setError_cd (s : State) (b : Bool) (c : BitVec 4) : (s.setError b c).cd = s.cd := rfl
@[simp] theorem setError_arg (s : State) (b : Bool) (c : BitVec 4) : (s.setError b c).arg = s.arg := rfl
@[simp] theorem setError_result (s : State) (b : Bool) (c : BitVec 4) : (s.setError b c).result = s.result := rfl
@[simp] theorem setError_data (s : State) (b : Bool) (c : BitVec 4) : (s.setError b c).data = s.data := rfl
@[simp] theorem setError_done (s : State) (b : Bool) (c : BitVec 4) : (s.setError b c).done = s.done := rfl
@[simp] theorem setError_err (s : State) (b : Bool) (c : BitVec 4) : (s.setError b c).err = b := rfl
@[simp] theorem setError_ecode (s : State) (b : Bool) (c : BitVec 4) : (s.setError b c).ecode = c := rfl
@[simp] theorem setError_ie (s : State) (b : Bool) (c : BitVec 4) : (s.setError b c).ie = s.ie := rfl
@[simp] theorem setError_inflight (s : State) (b : Bool) (c : BitVec 4) : (s.setError b c).inflight = s.inflight := rfl
@[simp] theorem setError_agenda (s : State) (b : Bool) (c : BitVec 4) : (s.setError b c).agenda = s.agenda := rfl
@[simp] theorem setError_readData (s : State) (b : Bool) (c : BitVec 4) : (s.setError b c).readData = s.readData := rfl

@[simp] theorem setIe_params (s : State) (b : Bool) : (s.setIe b).params = s.params := rfl
@[simp] theorem setIe_regs (s : State) (b : Bool) : (s.setIe b).regs = s.regs := rfl
@[simp] theorem setIe_ca (s : State) (b : Bool) : (s.setIe b).ca = s.ca := rfl
@[simp] theorem setIe_cd (s : State) (b : Bool) : (s.setIe b).cd = s.cd := rfl
@[simp] theorem setIe_arg (s : State) (b : Bool) : (s.setIe b).arg = s.arg := rfl
@[simp] theorem setIe_result (s : State) (b : Bool) : (s.setIe b).result = s.result := rfl
@[simp] theorem setIe_data (s : State) (b : Bool) : (s.setIe b).data = s.data := rfl
@[simp] theorem setIe_done (s : State) (b : Bool) : (s.setIe b).done = s.done := rfl
@[simp] theorem setIe_err (s : State) (b : Bool) : (s.setIe b).err = s.err := rfl
@[simp] theorem setIe_ecode (s : State) (b : Bool) : (s.setIe b).ecode = s.ecode := rfl
@[simp] theorem setIe_ie (s : State) (b : Bool) : (s.setIe b).ie = b := rfl
@[simp] theorem setIe_inflight (s : State) (b : Bool) : (s.setIe b).inflight = s.inflight := rfl
@[simp] theorem setIe_agenda (s : State) (b : Bool) : (s.setIe b).agenda = s.agenda := rfl
@[simp] theorem setIe_readData (s : State) (b : Bool) : (s.setIe b).readData = s.readData := rfl

@[simp] theorem setInflight_params (s : State) (f : Option Inflight) : (s.setInflight f).params = s.params := rfl
@[simp] theorem setInflight_regs (s : State) (f : Option Inflight) : (s.setInflight f).regs = s.regs := rfl
@[simp] theorem setInflight_ca (s : State) (f : Option Inflight) : (s.setInflight f).ca = s.ca := rfl
@[simp] theorem setInflight_cd (s : State) (f : Option Inflight) : (s.setInflight f).cd = s.cd := rfl
@[simp] theorem setInflight_arg (s : State) (f : Option Inflight) : (s.setInflight f).arg = s.arg := rfl
@[simp] theorem setInflight_result (s : State) (f : Option Inflight) : (s.setInflight f).result = s.result := rfl
@[simp] theorem setInflight_data (s : State) (f : Option Inflight) : (s.setInflight f).data = s.data := rfl
@[simp] theorem setInflight_done (s : State) (f : Option Inflight) : (s.setInflight f).done = s.done := rfl
@[simp] theorem setInflight_err (s : State) (f : Option Inflight) : (s.setInflight f).err = s.err := rfl
@[simp] theorem setInflight_ecode (s : State) (f : Option Inflight) : (s.setInflight f).ecode = s.ecode := rfl
@[simp] theorem setInflight_ie (s : State) (f : Option Inflight) : (s.setInflight f).ie = s.ie := rfl
@[simp] theorem setInflight_inflight (s : State) (f : Option Inflight) : (s.setInflight f).inflight = f := rfl
@[simp] theorem setInflight_agenda (s : State) (f : Option Inflight) : (s.setInflight f).agenda = s.agenda := rfl
@[simp] theorem setInflight_readData (s : State) (f : Option Inflight) : (s.setInflight f).readData = s.readData := rfl

@[simp] theorem setAgenda_params (s : State) (l : List Turn) : (s.setAgenda l).params = s.params := rfl
@[simp] theorem setAgenda_regs (s : State) (l : List Turn) : (s.setAgenda l).regs = s.regs := rfl
@[simp] theorem setAgenda_ca (s : State) (l : List Turn) : (s.setAgenda l).ca = s.ca := rfl
@[simp] theorem setAgenda_cd (s : State) (l : List Turn) : (s.setAgenda l).cd = s.cd := rfl
@[simp] theorem setAgenda_arg (s : State) (l : List Turn) : (s.setAgenda l).arg = s.arg := rfl
@[simp] theorem setAgenda_result (s : State) (l : List Turn) : (s.setAgenda l).result = s.result := rfl
@[simp] theorem setAgenda_data (s : State) (l : List Turn) : (s.setAgenda l).data = s.data := rfl
@[simp] theorem setAgenda_done (s : State) (l : List Turn) : (s.setAgenda l).done = s.done := rfl
@[simp] theorem setAgenda_err (s : State) (l : List Turn) : (s.setAgenda l).err = s.err := rfl
@[simp] theorem setAgenda_ecode (s : State) (l : List Turn) : (s.setAgenda l).ecode = s.ecode := rfl
@[simp] theorem setAgenda_ie (s : State) (l : List Turn) : (s.setAgenda l).ie = s.ie := rfl
@[simp] theorem setAgenda_inflight (s : State) (l : List Turn) : (s.setAgenda l).inflight = s.inflight := rfl
@[simp] theorem setAgenda_agenda (s : State) (l : List Turn) : (s.setAgenda l).agenda = l := rfl
@[simp] theorem setAgenda_readData (s : State) (l : List Turn) : (s.setAgenda l).readData = s.readData := rfl

@[simp] theorem setReadData_params (s : State) (v : Word) : (s.setReadData v).params = s.params := rfl
@[simp] theorem setReadData_regs (s : State) (v : Word) : (s.setReadData v).regs = s.regs := rfl
@[simp] theorem setReadData_ca (s : State) (v : Word) : (s.setReadData v).ca = s.ca := rfl
@[simp] theorem setReadData_cd (s : State) (v : Word) : (s.setReadData v).cd = s.cd := rfl
@[simp] theorem setReadData_arg (s : State) (v : Word) : (s.setReadData v).arg = s.arg := rfl
@[simp] theorem setReadData_result (s : State) (v : Word) : (s.setReadData v).result = s.result := rfl
@[simp] theorem setReadData_data (s : State) (v : Word) : (s.setReadData v).data = s.data := rfl
@[simp] theorem setReadData_done (s : State) (v : Word) : (s.setReadData v).done = s.done := rfl
@[simp] theorem setReadData_err (s : State) (v : Word) : (s.setReadData v).err = s.err := rfl
@[simp] theorem setReadData_ecode (s : State) (v : Word) : (s.setReadData v).ecode = s.ecode := rfl
@[simp] theorem setReadData_ie (s : State) (v : Word) : (s.setReadData v).ie = s.ie := rfl
@[simp] theorem setReadData_inflight (s : State) (v : Word) : (s.setReadData v).inflight = s.inflight := rfl
@[simp] theorem setReadData_agenda (s : State) (v : Word) : (s.setReadData v).agenda = s.agenda := rfl
@[simp] theorem setReadData_readData (s : State) (v : Word) : (s.setReadData v).readData = v := rfl

/-! ### Derived reads -/

@[simp] theorem setReg_modulus (s : State) (i : Slot) (r : FieldReg) : (s.setReg i r).modulus = s.modulus := rfl
@[simp] theorem setDone_modulus (s : State) (b : Bool) : (s.setDone b).modulus = s.modulus := rfl
@[simp] theorem setInflight_modulus (s : State) (f : Option Inflight) : (s.setInflight f).modulus = s.modulus := rfl
@[simp] theorem setAgenda_modulus (s : State) (l : List Turn) : (s.setAgenda l).modulus = s.modulus := rfl

/-- Reading the register just written. -/
@[simp] theorem setReg_reg_same (s : State) (i : Slot) (r : FieldReg) : (s.setReg i r).reg i = r := by
  simp [State.reg, State.setReg]

/-- Reading another register than the one written. -/
theorem setReg_reg_ne (s : State) {i j : Slot} (r : FieldReg) (h : i ≠ j) : (s.setReg i r).reg j = s.reg j := by
  have : i.val ≠ j.val := fun e => h (Fin.ext e)
  simp [State.reg, State.setReg, this]

/-- A register read after a register write. -/
theorem setReg_reg (s : State) (i j : Slot) (r : FieldReg) :
    (s.setReg i r).reg j = if i = j then r else s.reg j := by
  by_cases h : i = j
  · subst h; simp
  · simp [h, setReg_reg_ne]

@[simp] theorem setCa_reg (s : State) (r : CurveReg) (j : Slot) : (s.setCa r).reg j = s.reg j := rfl
@[simp] theorem setCd_reg (s : State) (r : CurveReg) (j : Slot) : (s.setCd r).reg j = s.reg j := rfl
@[simp] theorem setArg_reg (s : State) (v : Word) (j : Slot) : (s.setArg v).reg j = s.reg j := rfl
@[simp] theorem setResult_reg (s : State) (v : Word) (j : Slot) : (s.setResult v).reg j = s.reg j := rfl
@[simp] theorem setData_reg (s : State) (m : Memory) (j : Slot) : (s.setData m).reg j = s.reg j := rfl
@[simp] theorem setDone_reg (s : State) (b : Bool) (j : Slot) : (s.setDone b).reg j = s.reg j := rfl
@[simp] theorem setError_reg (s : State) (b : Bool) (c : BitVec 4) (j : Slot) : (s.setError b c).reg j = s.reg j := rfl
@[simp] theorem setIe_reg (s : State) (b : Bool) (j : Slot) : (s.setIe b).reg j = s.reg j := rfl
@[simp] theorem setInflight_reg (s : State) (f : Option Inflight) (j : Slot) : (s.setInflight f).reg j = s.reg j := rfl
@[simp] theorem setAgenda_reg (s : State) (l : List Turn) (j : Slot) : (s.setAgenda l).reg j = s.reg j := rfl
@[simp] theorem setReadData_reg (s : State) (v : Word) (j : Slot) : (s.setReadData v).reg j = s.reg j := rfl

/-- Two states whose fields agree are equal: registers may be compared one by one. -/
theorem State.ext_of_reg {s t : State} (hp : s.params = t.params) (hr : ∀ i, s.reg i = t.reg i) (hca : s.ca = t.ca)
    (hcd : s.cd = t.cd) (harg : s.arg = t.arg) (hres : s.result = t.result) (hd : s.data = t.data) (hdn : s.done = t.done)
    (he : s.err = t.err) (hec : s.ecode = t.ecode) (hie : s.ie = t.ie) (hf : s.inflight = t.inflight)
    (hag : s.agenda = t.agenda) (hrd : s.readData = t.readData) : s = t := by
  have hregs : s.regs = t.regs := by
    ext1 i hi
    exact hr ⟨i, hi⟩
  cases s; cases t; simp_all

end Sys2Proof.Machine
end

