-- ==== Sys2Proof/Laws/Ops.lean ====
section
/-! SUPPORT. What each shared operation can do: recording an error, the gate and the issue procedure, applying pending writes,
completion, and reset. -/

namespace Sys2Proof.Machine

/-! ### Errors -/

theorem raiseError_of_err {s : State} (h : s.err = true) (e : ErrorCode) : raiseError e s = s := by simp [raiseError, h]

theorem raiseError_of_clear {s : State} (h : s.err = false) (e : ErrorCode) : raiseError e s = s.setError true e.code := by
  simp [raiseError, h]

/-- Recording an error changes ERR and ECODE alone. -/
theorem raiseError_eq_setError (e : ErrorCode) (s : State) : ∃ b c, raiseError e s = s.setError b c := by
  by_cases h : s.err = true
  · exact ⟨s.err, s.ecode, by rw [raiseError_of_err h]; rfl⟩
  · exact ⟨true, e.code, raiseError_of_clear (by simpa using h) e⟩

/-- An error code is never 0. -/
theorem code_ne_zero (e : ErrorCode) : e.code ≠ 0 := by cases e <;> decide

/-! ### The gate and the issue procedure -/

theorem gate_of_err {s : State} (h : s.err = true) (rest : State) : gate s rest = s := by simp [gate, h]

theorem gate_of_busy {s : State} (h : s.err = false) (hb : s.busy = true) (rest : State) :
    gate s rest = s.setError true ErrorCode.busy.code := by
  simp [gate, h, hb, raiseError_of_clear h]

theorem gate_of_ready {s : State} (h : s.Ready) (rest : State) : gate s rest = rest := by
  simp [gate, h.1, State.busy, h.2]

/-- A command that passes its checks is put in flight. -/
theorem issue_accepted {op : Instr} {s : State} (h : s.Ready) (r : Results) :
    issue op none r s = .next (s.setInflight (some { op := op, results := r })) := by
  simp [issue, gate_of_ready h]

/-- A command that fails a check records the error and nothing else. -/
theorem issue_rejected {op : Instr} {s : State} (h : s.Ready) (e : ErrorCode) (r : Results) :
    issue op (some e) r s = .next (s.setError true e.code) := by
  simp [issue, gate_of_ready h, raiseError_of_clear h.1]

/-- Everything the issue procedure can do. -/
theorem issue_cases {op : Instr} {failed : Option ErrorCode} {r : Results} {s t : State} (h : issue op failed r s = .next t) :
    (s.err = true ∧ t = s) ∨
      (s.err = false ∧ s.busy = true ∧ t = s.setError true ErrorCode.busy.code) ∨
      (s.Ready ∧ ∃ e, failed = some e ∧ t = s.setError true e.code) ∨
      (s.Ready ∧ failed = none ∧ t = s.setInflight (some { op := op, results := r })) := by
  by_cases he : s.err = true
  · simp only [issue, gate_of_err he] at h
    exact .inl ⟨he, by cases h; rfl⟩
  · simp only [Bool.not_eq_true] at he
    by_cases hb : s.busy = true
    · simp only [issue, gate_of_busy he hb] at h
      exact .inr (.inl ⟨he, hb, by cases h; rfl⟩)
    · have hr : s.Ready := ⟨he, by simpa [State.busy] using hb⟩
      cases failed with
      | some e => rw [issue_rejected hr] at h; exact .inr (.inr (.inl ⟨hr, e, rfl, by cases h; rfl⟩))
      | none => rw [issue_accepted hr] at h; exact .inr (.inr (.inr ⟨hr, rfl, by cases h; rfl⟩))

/-- The meaning of every command is the issue procedure with checks and results of its own. -/
theorem exec_eq_issue (i : Instr) (s : State) : ∃ failed r, exec i s = issue i failed r s := by
  cases i <;> first | exact ⟨_, _, rfl⟩ | exact ⟨none, _, rfl⟩

/-- Every command answers a next state. -/
theorem exec_next (i : Instr) (s : State) : ∃ t, exec i s = .next t := by
  obtain ⟨f, r, h⟩ := exec_eq_issue i s
  exact ⟨_, h⟩

/-- No operand check fails exactly when every source is valid and well typed. -/
theorem operandError_eq_none {sources : List Source} {s : State} :
    operandError sources s = none ↔ sources.all (Source.valid s) = true ∧ sources.all (Source.typed s) = true := by
  simp only [operandError]
  split
  · split <;> simp_all
  · simp_all

/-! ### Applying pending writes -/

@[simp] theorem writeIf_none {α : Type} (f : State → α → State) (s : State) : writeIf f none s = s := rfl

@[simp] theorem writeIf_some {α : Type} (f : State → α → State) (x : α) (s : State) : writeIf f (some x) s = f s x := rfl

/-- A list of register writes changes the registers alone. -/
theorem setRegs_eq (s : State) (l : List (Slot × FieldReg)) : ∃ v, s.setRegs l = { s with regs := v } := by
  induction l generalizing s with
  | nil => exact ⟨s.regs, rfl⟩
  | cons w l ih => obtain ⟨v, h⟩ := ih (s.setReg w.1 w.2); exact ⟨v, h⟩

/-- A register the list does not name keeps its contents. -/
theorem setRegs_reg_of_notMem (s : State) (l : List (Slot × FieldReg)) {i : Slot} (h : ∀ w ∈ l, w.1 ≠ i) :
    (s.setRegs l).reg i = s.reg i := by
  induction l generalizing s with
  | nil => rfl
  | cons w l ih =>
    obtain ⟨j, r⟩ := w
    simp only [State.setRegs]
    rw [ih _ fun w hw => h w (List.mem_cons_of_mem _ hw), setReg_reg_ne _ _ (h (j, r) List.mem_cons_self)]

/-- The last write to a register in the list remains. -/
theorem setRegs_append (s : State) (l l' : List (Slot × FieldReg)) : s.setRegs (l ++ l') = (s.setRegs l).setRegs l' := by
  induction l generalizing s with
  | nil => rfl
  | cons w l ih => exact ih _

/-- Every register after the writes is one of the written records, or its old contents. -/
theorem setRegs_reg_cases (s : State) (l : List (Slot × FieldReg)) (i : Slot) :
    (∃ w ∈ l, w.1 = i ∧ (s.setRegs l).reg i = w.2) ∨ (s.setRegs l).reg i = s.reg i := by
  induction l generalizing s with
  | nil => exact .inr rfl
  | cons w l ih =>
    obtain ⟨j, r⟩ := w
    simp only [State.setRegs]
    rcases ih (s.setReg j r) with ⟨w, hw, hwi, hr⟩ | hr
    · exact .inl ⟨w, List.mem_cons_of_mem _ hw, hwi, hr⟩
    · by_cases hj : j = i
      · exact .inl ⟨(j, r), List.mem_cons_self, hj, by rw [hr, hj]; simp⟩
      · exact .inr (by rw [hr, setReg_reg_ne _ _ hj])

/-- Every field of the state after the pending writes but the registers: those the results name, and all others as before. -/
theorem apply_eq (r : Results) (s : State) : ∃ v,
    r.apply s = { s with
      regs := v, ca := r.ca.getD s.ca, cd := r.cd.getD s.cd, result := r.result.getD s.result,
      data := (r.data.map (s.data.writeBytes 0)).getD s.data } := by
  obtain ⟨v1, h1⟩ := setRegs_eq s r.writeBacks
  obtain ⟨v2, h2⟩ := setRegs_eq (s.setRegs r.writeBacks) r.dests
  refine ⟨v2, ?_⟩
  rcases r with ⟨wb, ds, ca, cd, res, data⟩
  cases ca <;> cases cd <;> cases res <;> cases data <;> simp_all [Results.apply, State.setCa, State.setCd, State.setResult,
    State.setData]

/-- A register after the pending writes: write-backs first, destinations over them (R189). -/
theorem apply_reg (r : Results) (s : State) (i : Slot) :
    (r.apply s).reg i = (s.setRegs (r.writeBacks ++ r.dests)).reg i := by
  rw [setRegs_append]
  rcases r with ⟨wb, ds, ca, cd, res, data⟩
  cases ca <;> cases cd <;> cases res <;> cases data <;> rfl

/-! ### Completion -/

theorem complete_of_idle {s : State} (h : s.inflight = none) : complete s = s := by simp [complete, h]

theorem complete_of_inflight {s : State} {f : Inflight} (h : s.inflight = some f) :
    complete s = ((f.results.apply s).setInflight none).setDone true := by simp [complete, h]

/-- After the completion step nothing is in flight. -/
theorem complete_inflight (s : State) : (complete s).inflight = none := by
  cases h : s.inflight with
  | none => rw [complete_of_idle h, h]
  | some f => rw [complete_of_inflight h]; rfl

/-- Register writes do not look at the in-flight state. -/
theorem setRegs_setInflight (s : State) (f : Option Inflight) (l : List (Slot × FieldReg)) :
    (s.setInflight f).setRegs l = (s.setRegs l).setInflight f := by
  induction l generalizing s with
  | nil => rfl
  | cons w l ih => exact ih (s.setReg w.1 w.2)

/-- The pending writes do not look at the in-flight state. -/
theorem apply_setInflight (r : Results) (s : State) (f : Option Inflight) :
    r.apply (s.setInflight f) = (r.apply s).setInflight f := by
  rcases r with ⟨wb, ds, ca, cd, res, data⟩
  cases ca <;> cases cd <;> cases res <;> cases data <;> simp only [Results.apply, writeIf, setRegs_setInflight] <;> rfl

/-- The pending writes leave nothing in flight where nothing was. -/
theorem apply_setInflight_none (r : Results) {s : State} (h : s.inflight = none) : (r.apply s).setInflight none = r.apply s := by
  have hs : s.setInflight none = s := by rw [← h]; rfl
  rw [← apply_setInflight, hs]

/-- A command whose checks pass in a ready state runs: its completion is its pending writes applied to that state, and DONE. -/
theorem runs_of_exec {i : Instr} {s : State} {r : Results} (h : s.Ready) (hx : exec i s = issue i none r s) :
    Runs i s ((r.apply s).setDone true) := by
  refine ⟨_, hx.trans (issue_accepted h r), ⟨r, rfl⟩, ?_⟩
  rw [complete_of_inflight (f := { op := i, results := r }) rfl, apply_setInflight]
  exact congrArg (fun u => State.setDone u true) (apply_setInflight_none r h.2)

/-! ### Reset -/

theorem resetFapu_params (s : State) : (resetFapu s).params = s.params := rfl

theorem resetFapu_reg (s : State) (i : Slot) : (resetFapu s).reg i = FieldReg.atReset s.modulus := by
  simp [resetFapu, State.resetWith, State.reg, State.modulus]

end Sys2Proof.Machine
end

