-- ==== Sys2Proof/Laws/PerInstr.lean ====
section
/-! SUPPORT. Facts proved per command. Family OpcodeBits: the assembled word of a command carries the command's opcode
(the column "op" of 30_encoding.md R72) in bits [31:26] and zeros in bits [5:0]. -/

namespace Sys2Proof.Laws.OpcodeBits

/-- The column "op" of R72. -/
def opcode : Instr → Nat
  | .nop => 0x00
  | .mov _ _ => 0x01
  | .ldc _ _ => 0x02
  | .unpack _ => 0x03
  | .pack _ => 0x04
  | .norm _ => 0x05
  | .add _ _ _ => 0x08
  | .sub _ _ _ => 0x09
  | .neg _ _ => 0x0A
  | .sadd _ _ => 0x0B
  | .ssub _ _ => 0x0C
  | .smul _ _ => 0x0D
  | .mul _ _ _ => 0x10
  | .sqr _ _ => 0x11
  | .inv _ _ => 0x14
  | .div _ _ _ => 0x15
  | .leg _ _ => 0x16
  | .sqrt _ _ => 0x17
  | .eq _ _ => 0x18
  | .bit _ => 0x19
  | .fill _ => 0x1A
  | .andm _ _ _ => 0x1B
  | .orm _ _ _ => 0x1C
  | .csel _ _ _ _ => 0x1D
  | .seta _ => 0x20
  | .setd _ => 0x21
  | .pzero _ => 0x28
  | .pinit _ _ _ => 0x29
  | .padd _ _ _ => 0x2A
  | .pdbl _ _ => 0x2B
  | .ptpl _ _ => 0x2C
  | .pmul _ _ _ => 0x2D

/-- Bits [31:26] of the encoding are the opcode and bits [5:0] are zero (R68, R80). -/
def Statement (i : Instr) : Prop := Sys2Proof.opField (encode i) = opcode i ∧ Sys2Proof.zField (encode i) = 0

theorem nop : Statement (.nop) := ⟨opField_commandWord (by decide) .., zField_commandWord (by decide) ..⟩
theorem mov (d a : Slot) : Statement (.mov d a) := ⟨opField_commandWord (by decide) .., zField_commandWord (by decide) ..⟩
theorem ldc (d k : Slot) : Statement (.ldc d k) := ⟨opField_commandWord (by decide) .., zField_commandWord (by decide) ..⟩
theorem unpack (d : Slot) : Statement (.unpack d) := ⟨opField_commandWord (by decide) .., zField_commandWord (by decide) ..⟩
theorem pack (a : Slot) : Statement (.pack a) := ⟨opField_commandWord (by decide) .., zField_commandWord (by decide) ..⟩
theorem norm (d : Slot) : Statement (.norm d) := ⟨opField_commandWord (by decide) .., zField_commandWord (by decide) ..⟩
theorem add (d a b : Slot) : Statement (.add d a b) := ⟨opField_commandWord (by decide) .., zField_commandWord (by decide) ..⟩
theorem sub (d a b : Slot) : Statement (.sub d a b) := ⟨opField_commandWord (by decide) .., zField_commandWord (by decide) ..⟩
theorem neg (d a : Slot) : Statement (.neg d a) := ⟨opField_commandWord (by decide) .., zField_commandWord (by decide) ..⟩
theorem sadd (d a : Slot) : Statement (.sadd d a) := ⟨opField_commandWord (by decide) .., zField_commandWord (by decide) ..⟩
theorem ssub (d a : Slot) : Statement (.ssub d a) := ⟨opField_commandWord (by decide) .., zField_commandWord (by decide) ..⟩
theorem smul (d a : Slot) : Statement (.smul d a) := ⟨opField_commandWord (by decide) .., zField_commandWord (by decide) ..⟩
theorem mul (d a b : Slot) : Statement (.mul d a b) := ⟨opField_commandWord (by decide) .., zField_commandWord (by decide) ..⟩
theorem sqr (d a : Slot) : Statement (.sqr d a) := ⟨opField_commandWord (by decide) .., zField_commandWord (by decide) ..⟩
theorem inv (d a : Slot) : Statement (.inv d a) := ⟨opField_commandWord (by decide) .., zField_commandWord (by decide) ..⟩
theorem div (d a b : Slot) : Statement (.div d a b) := ⟨opField_commandWord (by decide) .., zField_commandWord (by decide) ..⟩
theorem leg (d a : Slot) : Statement (.leg d a) := ⟨opField_commandWord (by decide) .., zField_commandWord (by decide) ..⟩
theorem sqrt (d a : Slot) : Statement (.sqrt d a) := ⟨opField_commandWord (by decide) .., zField_commandWord (by decide) ..⟩
theorem eq (a b : Slot) : Statement (.eq a b) := ⟨opField_commandWord (by decide) .., zField_commandWord (by decide) ..⟩
theorem bit (a : Slot) : Statement (.bit a) := ⟨opField_commandWord (by decide) .., zField_commandWord (by decide) ..⟩
theorem fill (d : Slot) : Statement (.fill d) := ⟨opField_commandWord (by decide) .., zField_commandWord (by decide) ..⟩
theorem andm (d a m : Slot) : Statement (.andm d a m) := ⟨opField_commandWord (by decide) .., zField_commandWord (by decide) ..⟩
theorem orm (d a b : Slot) : Statement (.orm d a b) := ⟨opField_commandWord (by decide) .., zField_commandWord (by decide) ..⟩
theorem csel (d a b m : Slot) : Statement (.csel d a b m) := ⟨opField_commandWord (by decide) .., zField_commandWord (by decide) ..⟩
theorem seta (a : Slot) : Statement (.seta a) := ⟨opField_commandWord (by decide) .., zField_commandWord (by decide) ..⟩
theorem setd (a : Slot) : Statement (.setd a) := ⟨opField_commandWord (by decide) .., zField_commandWord (by decide) ..⟩
theorem pzero (d : Slot) : Statement (.pzero d) := ⟨opField_commandWord (by decide) .., zField_commandWord (by decide) ..⟩
theorem pinit (d a b : Slot) : Statement (.pinit d a b) := ⟨opField_commandWord (by decide) .., zField_commandWord (by decide) ..⟩
theorem padd (d a b : Slot) : Statement (.padd d a b) := ⟨opField_commandWord (by decide) .., zField_commandWord (by decide) ..⟩
theorem pdbl (d a : Slot) : Statement (.pdbl d a) := ⟨opField_commandWord (by decide) .., zField_commandWord (by decide) ..⟩
theorem ptpl (d a : Slot) : Statement (.ptpl d a) := ⟨opField_commandWord (by decide) .., zField_commandWord (by decide) ..⟩
theorem pmul (d a b : Slot) : Statement (.pmul d a b) := ⟨opField_commandWord (by decide) .., zField_commandWord (by decide) ..⟩

end Sys2Proof.Laws.OpcodeBits
end

