-- ==== Sys2Proof/Laws/Step.lean ====
section
/-! SUPPORT. What one step can do: which access reaches which register of the window, and one inversion lemma for a turn that
answers a next state. -/

namespace Sys2Proof.Machine

theorem step_of_turn {s : State} {t : Turn} {rest : List Turn} (h : s.agenda = t :: rest) :
    step s = takeTurn t (s.setAgenda rest) := by simp [step, h]

theorem step_of_empty {s : State} (h : s.agenda = []) : step s = .next (complete s) := by simp [step, h]

/-- An access at FAPU_BASE + off, 32 bits wide and word aligned, reaches the window at off. -/
theorem hostAccess_of_offset {off : Nat} (h : off < 4096) (h4 : off % 4 = 0) (s : State) (effect : Nat → Outcome) :
    hostAccess (s.params.base + off) 4 s effect = effect off := by
  have h1 : (4096 * s.params.basePage + off) / 4096 = s.params.basePage := by omega
  have h2 : (4096 * s.params.basePage + off) % 4096 = off := by omega
  simp [hostAccess, inWindow, windowOffset, Params.base, h1, h2, h4]

theorem takeTurn_read {off : Nat} (h : off < 4096) (h4 : off % 4 = 0) (s : State) :
    takeTurn (.read (s.params.base + off) 4) s = .next (s.setReadData (readWindow off s)) := by
  simp only [takeTurn, busRead, hostAccess_of_offset h h4]

theorem takeTurn_write {off : Nat} (h : off < 4096) (h4 : off % 4 = 0) (v : Word) (s : State) :
    takeTurn (.write (s.params.base + off) 4 v) s = writeWindow off v s := by
  simp only [takeTurn, busWrite, hostAccess_of_offset h h4]

/-- A host access that answers a next state is one the interface has, and its effect answers it. -/
theorem hostAccess_next {addr bytes : Nat} {s u : State} {effect : Nat → Outcome}
    (h : hostAccess addr bytes s effect = .next u) :
    bytes = 4 ∧ ∃ off, off < 4096 ∧ off % 4 = 0 ∧ addr = s.params.base + off ∧ effect off = .next u := by
  simp only [hostAccess] at h
  split at h
  · rename_i hw
    split at h
    · rename_i ha
      refine ⟨ha.1, addr % 4096, Nat.mod_lt _ (by decide), ha.2, ?_, h⟩
      have : addr / 4096 = s.params.basePage := by simpa [inWindow] using hw
      rw [Params.base, ← this]; omega
    · cases h
  · cases h

/-- The decoder reads well-formed commands only. -/
theorem wellFormed_of_decode {w : Word} {i : Instr} (h : decode w = .ok i) : i.wellFormed = true := by
  simp only [decode] at h
  split at h <;>
    first
    | (obtain ⟨rfl, -, -, hp, hs⟩ := checked_eq_ok h; simp_all [Instr.wellFormed])
    | cases h

/-- What a window write that answers a next state has done. -/
theorem writeWindow_cases {off : Nat} {v : Word} {s u : State} (h : writeWindow off v s = .next u) :
    (off = 0x004 ∧ u = writeCtrl v s) ∨ (off = 0x008 ∧ u = writeStatus v s) ∨
      (off = 0x00C ∧ ∃ i, decode v = .ok i ∧ i.wellFormed = true ∧ exec i s = .next u) ∨
      (off = 0x00C ∧ (∃ e, decode v = .error e) ∧ u = gate s (raiseError .illegal s)) ∨
      (off = 0x010 ∧ u = writeArg v s) ∨ (0x040 ≤ off ∧ off ≤ 0x080 ∧ u = writeData ((off - 0x040) / 4) v s) ∨ u = s := by
  simp only [writeWindow] at h
  split at h
  · rename_i ho; cases h; exact .inl ⟨ho, rfl⟩
  · split at h
    · rename_i ho; cases h; exact .inr (.inl ⟨ho, rfl⟩)
    · split at h
      · rename_i ho
        simp only [writeCmd] at h
        split at h
        · rename_i i hd; exact .inr (.inr (.inl ⟨ho, i, hd, wellFormed_of_decode hd, h⟩))
        · rename_i e hd; cases h; exact .inr (.inr (.inr (.inl ⟨ho, ⟨e, hd⟩, rfl⟩)))
      · split at h
        · rename_i ho; cases h; exact .inr (.inr (.inr (.inr (.inl ⟨ho, rfl⟩))))
        · split at h
          · rename_i ho; cases h; exact .inr (.inr (.inr (.inr (.inr (.inl ⟨ho.1, ho.2, rfl⟩)))))
          · cases h; exact .inr (.inr (.inr (.inr (.inr (.inr rfl)))))

/-- Everything a turn that answers a next state can do. -/
theorem takeTurn_cases {t : Turn} {s u : State} (h : takeTurn t s = .next u) :
    (∃ v, u = s.setReadData v) ∨ u = complete s ∨ u = resetFapu s ∨
      (∃ i, i.wellFormed = true ∧ exec i s = .next u) ∨ u = gate s (raiseError .illegal s) ∨
      (∃ b, u = (clearError s).setIe b) ∨ (∃ b, u = s.setIe b) ∨ u = s.setDone false ∨
      (∃ v, u = writeArg v s) ∨ (∃ w v, w < 17 ∧ u = writeData w v s) ∨ u = s := by
  cases t with
  | read addr bytes =>
    simp only [takeTurn, busRead] at h
    obtain ⟨-, off, -, -, -, h⟩ := hostAccess_next h
    cases h; exact .inl ⟨_, rfl⟩
  | complete => cases h; exact .inr (.inl rfl)
  | hardReset => cases h; exact .inr (.inr (.inl rfl))
  | write addr bytes v =>
    simp only [takeTurn, busWrite] at h
    obtain ⟨-, off, -, -, -, h⟩ := hostAccess_next h
    rcases writeWindow_cases h with ⟨-, rfl⟩ | ⟨-, rfl⟩ | ⟨-, i, -, hi, hx⟩ | ⟨-, -, rfl⟩ | ⟨-, rfl⟩ | ⟨h1, h2, rfl⟩ | rfl
    · simp only [writeCtrl]
      split
      · exact .inr (.inr (.inl rfl))
      · split
        · exact .inr (.inr (.inr (.inr (.inr (.inl ⟨_, rfl⟩)))))
        · exact .inr (.inr (.inr (.inr (.inr (.inr (.inl ⟨_, rfl⟩))))))
    · simp only [writeStatus]
      split
      · exact .inr (.inr (.inr (.inr (.inr (.inr (.inr (.inl rfl)))))))
      · exact .inr (.inr (.inr (.inr (.inr (.inr (.inr (.inr (.inr (.inr rfl)))))))))
    · exact .inr (.inr (.inr (.inl ⟨i, hi, hx⟩)))
    · exact .inr (.inr (.inr (.inr (.inl rfl))))
    · exact .inr (.inr (.inr (.inr (.inr (.inr (.inr (.inr (.inl ⟨v, rfl⟩))))))))
    · exact .inr (.inr (.inr (.inr (.inr (.inr (.inr (.inr (.inr (.inl ⟨_, v, by omega, rfl⟩)))))))))
    · exact .inr (.inr (.inr (.inr (.inr (.inr (.inr (.inr (.inr (.inr rfl)))))))))

/-- A step that answers a next state is the completion of an empty agenda or the next turn, the agenda shortened by it. -/
theorem step_cases {s u : State} (h : step s = .next u) :
    (s.agenda = [] ∧ u = complete s) ∨ ∃ t rest, s.agenda = t :: rest ∧ takeTurn t (s.setAgenda rest) = .next u := by
  cases ha : s.agenda with
  | nil => rw [step_of_empty ha] at h; cases h; exact .inl ⟨rfl, rfl⟩
  | cons t rest => rw [step_of_turn ha] at h; exact .inr ⟨t, rest, rfl, h⟩

end Sys2Proof.Machine
end

