-- ==== Sys2Proof/Tests/Slice0.lean ====
section
/-! SUPPORT. The implementer's own tests. Expected values come from spec/95_test_vectors.md (the id of the vector stands in the
comment) and from the examples in the rules. The last part gives, for every statement with hypotheses, a state and operands that
meet them. -/

namespace Sys2Proof.Tests

-- One theorem at a time: each waits for the kernel, and many waiting threads would hold their stacks in memory together.
set_option Elab.async false

open Sys2Proof.Machine

/-! ### WellFormed: each check refuses an ill-formed term -/

theorem test_wellFormed_refuses_ldc_selector : (Instr.ldc 0 4).wellFormed = false := by decide
theorem test_wellFormed_refuses_pzero_point : (Instr.pzero 8).wellFormed = false := by decide
theorem test_wellFormed_refuses_pinit_point : (Instr.pinit 8 0 0).wellFormed = false := by decide
theorem test_wellFormed_refuses_padd_points :
    (Instr.padd 8 0 0).wellFormed = false ∧ (Instr.padd 0 8 0).wellFormed = false ∧ (Instr.padd 0 0 8).wellFormed = false := by
  decide
theorem test_wellFormed_refuses_pdbl_points :
    (Instr.pdbl 8 0).wellFormed = false ∧ (Instr.pdbl 0 31).wellFormed = false := by decide
theorem test_wellFormed_refuses_ptpl_points :
    (Instr.ptpl 8 0).wellFormed = false ∧ (Instr.ptpl 0 8).wellFormed = false := by decide
theorem test_wellFormed_refuses_pmul_points :
    (Instr.pmul 8 0 0).wellFormed = false ∧ (Instr.pmul 0 8 0).wellFormed = false := by decide
theorem test_wellFormed_takes_the_last_point : (Instr.pmul 7 7 31).wellFormed = true := by decide

/-! ### Decode: the words of 95_test_vectors.md section 2.2 -/

theorem test_decode_movement :
    decode 0x00000000 = .ok .nop ∧ decode 0x04220000 = .ok (.mov 1 2) ∧ decode 0x08630000 = .ok (.ldc 3 3) ∧
      decode 0x0FE00000 = .ok (.unpack 31) ∧ decode 0x101E0000 = .ok (.pack 30) ∧ decode 0x14A00000 = .ok (.norm 5) :=
  ⟨rfl, rfl, rfl, rfl, rfl, rfl⟩

theorem test_decode_add_sub :
    decode 0x23FEE800 = .ok (.add 31 30 29) ∧ decode 0x24221800 = .ok (.sub 1 2 3) ∧ decode 0x28850000 = .ok (.neg 4 5) ∧
      decode 0x2CC70000 = .ok (.sadd 6 7) ∧ decode 0x31090000 = .ok (.ssub 8 9) ∧ decode 0x354B0000 = .ok (.smul 10 11) :=
  ⟨rfl, rfl, rfl, rfl, rfl, rfl⟩

theorem test_decode_multiply_exponent :
    decode 0x418D7000 = .ok (.mul 12 13 14) ∧ decode 0x45F00000 = .ok (.sqr 15 16) ∧ decode 0x52320000 = .ok (.inv 17 18) ∧
      decode 0x5674A800 = .ok (.div 19 20 21) ∧ decode 0x5AD70000 = .ok (.leg 22 23) ∧ decode 0x5F190000 = .ok (.sqrt 24 25) :=
  ⟨rfl, rfl, rfl, rfl, rfl, rfl⟩

theorem test_decode_select :
    decode 0x601AD800 = .ok (.eq 26 27) ∧ decode 0x641C0000 = .ok (.bit 28) ∧ decode 0x6BA00000 = .ok (.fill 29) ∧
      decode 0x6C2200C0 = .ok (.andm 1 2 3) ∧ decode 0x70853000 = .ok (.orm 4 5 6) ∧
      decode 0x77FEEF00 = .ok (.csel 31 30 29 28) := ⟨rfl, rfl, rfl, rfl, rfl, rfl⟩

theorem test_decode_curve :
    decode 0x80070000 = .ok (.seta 7) ∧ decode 0x84080000 = .ok (.setd 8) ∧ decode 0xA0E00000 = .ok (.pzero 7) ∧
      decode 0xA4C11000 = .ok (.pinit 6 1 2) ∧ decode 0xA8E62800 = .ok (.padd 7 6 5) ∧ decode 0xAC220000 = .ok (.pdbl 1 2) ∧
      decode 0xB0640000 = .ok (.ptpl 3 4) ∧ decode 0xB4E7F800 = .ok (.pmul 7 7 31) := ⟨rfl, rfl, rfl, rfl, rfl, rfl, rfl, rfl⟩

theorem test_decode_refuses_illegal_words :
    decode 0x18000000 = .error .reservedOpcode ∧ decode 0xFC000000 = .error .reservedOpcode ∧
      decode 0x20400801 = .error .reservedBits ∧ decode 0x00000040 = .error .unusedSlot ∧
      decode 0x08040000 = .error .selector ∧ decode 0xA8080000 = .error .pointIndex ∧ decode 0xA1000000 = .error .pointIndex ∧
      decode 0x10200000 = .error .unusedSlot ∧ decode 0x60000001 = .error .reservedBits :=
  ⟨rfl, rfl, rfl, rfl, rfl, rfl, rfl, rfl, rfl⟩

/-! ### One command from a small state -/

/-- The register holding canon(x). -/
def elem (m : ModulusId) (x : Int) : FieldReg := fieldReg (split m x)

/-- The state after reset of the configuration with some registers written. -/
def start (m : ModulusId) (regs : List (Slot × FieldReg)) : State := (State.resetWith { modulus := m, basePage := 0 }).setRegs regs

/-- The state after the command has completed, or after its error was recorded. -/
def after (i : Instr) (s : State) : State :=
  match exec i s with
  | .next t => complete t
  | .fault _ | .refused _ => s

/-- A limb vector of P221 whose limbs 1 to 6 are 0x0FFFFFFF. -/
def full (low top : Limb) : Limbs := low :: List.replicate 6 0x0FFFFFFF ++ [top]

/-- A register of that vector. -/
def fullReg (low top : Limb) : FieldReg := { valid := true, tag := .field, limbs := full low top }

/-- p of P221, as an integer. -/
def p221 : Int := ModulusId.p221.p

/-- p of P255, as an integer. -/
def p255 : Int := ModulusId.p255.p

/-- V40.5. -/
theorem test_nop_sets_done : (after .nop ((start .p221 []).setArg 7)).statusWord = 2 ∧
    (after .nop ((start .p221 []).setArg 7)).arg = 7 := by decide +kernel

/-- V40.6. -/
theorem test_mov_copies_the_mask_tag :
    (after (.mov 2 1) (start .p221 [(1, maskReg .p221 true)])).reg 2 = maskReg .p221 true := by decide +kernel

/-- V40.3. -/
theorem test_ldc_m_one : (after (.ldc 2 2) (start .p221 [])).reg 2 = fullReg 0x0FFFFFFC 0x1FFFFFF := by decide +kernel

/-- V40.4. -/
theorem test_ldc_modulus : (after (.ldc 3 3) (start .p221 [])).reg 3 = fullReg 0x0FFFFFFD 0x1FFFFFF := by decide +kernel

/-- V40.8: bits above n stay in the top limb. -/
theorem test_unpack_keeps_the_high_bits :
    ((after (.unpack 0) ((start .p221 []).setData (Memory.writeBytes [] 0 (List.replicate 68 0xFF)))).reg 0).limbs =
      full 0x0FFFFFFF 0xFFFFFFF := by decide +kernel

/-- V40.9. -/
theorem test_pack_normalizes_and_writes_back :
    let u := after (.pack 0) (start .p221 [(0, fullReg 0x0FFFFFFF 0xFFFFFFF)])
    u.reg 0 = elem .p221 23 ∧ u.data = [(0, 0x17)] := by decide +kernel

/-- V40.12: every byte of DATA is written. -/
theorem test_pack_zero_clears_data :
    (after (.pack 1) ((start .p221 [(1, fullReg 0x0FFFFFFD 0x1FFFFFF)]).setData
      (Memory.writeBytes [] 0 (List.replicate 68 0xA5)))).data = [] := by decide +kernel

/-- V40.14. -/
theorem test_norm_negative_stash :
    (after (.norm 2) (start .p221 [(2, fullReg 0x0FFFFFFF (-1))])).reg 2 = fullReg 0x0FFFFFFC 0x1FFFFFF := by decide +kernel

/-- V40.16. -/
theorem test_norm_modulus_is_zero :
    (after (.norm 2) (start .p221 [(2, fullReg 0x0FFFFFFD 0x1FFFFFF)])).reg 2 = elem .p221 0 := by decide +kernel

/-- V41.1: the sum is the MODULUS vector. -/
theorem test_add_is_lazy :
    (after (.add 2 0 1) (start .p221 [(0, elem .p221 1), (1, elem .p221 (p221 - 1))])).reg 2 = fullReg 0x0FFFFFFD 0x1FFFFFF := by
  decide +kernel

/-- V41.2: all three slots are one register. -/
theorem test_add_aliased :
    (after (.add 0 0 0) (start .p221 [(0, elem .p221 (p221 - 1))])).reg 0 = fullReg 0x0FFFFFFB 0x1FFFFFF := by decide +kernel

/-- V41.3. -/
theorem test_sub_goes_negative :
    ((after (.sub 2 0 1) (start .p221 [(0, elem .p221 0), (1, elem .p221 1)])).reg 2).limbs =
      List.replicate 7 0x0FFFFFFF ++ [-1] := by decide +kernel

/-- V41.5. -/
theorem test_neg_zero : (after (.neg 1 0) (start .p221 [(0, elem .p221 0)])).reg 1 = fullReg 0x0FFFFFFD 0x1FFFFFF := by
  decide +kernel

/-- V41.6. -/
theorem test_neg_one : (after (.neg 1 0) (start .p221 [(0, elem .p221 1)])).reg 1 = fullReg 0x0FFFFFFC 0x1FFFFFF := by
  decide +kernel

/-- V41.8: ARG is signed. -/
theorem test_sadd_least_arg :
    ((after (.sadd 1 0) ((start .p221 [(0, elem .p221 0)]).setArg 0x80000000)).reg 1).limbs =
      0 :: 0x0FFFFFF8 :: List.replicate 5 0x0FFFFFFF ++ [-1] := by decide +kernel

/-- V41.9: the negation of k is an integer's. -/
theorem test_ssub_least_arg :
    ((after (.ssub 1 0) ((start .p221 [(0, elem .p221 0)]).setArg 0x80000000)).reg 1).limbs =
      0 :: 8 :: List.replicate 6 0 := by decide +kernel

/-- V41.12. -/
theorem test_smul_greatest_arg :
    ((after (.smul 1 0) ((start .p221 [(0, elem .p221 (p221 - 1))]).setArg 0x7FFFFFFF)).reg 1).limbs =
      0x0FFFFF41 :: 0x0FFFFFF7 :: List.replicate 5 0x0FFFFFFF ++ [0x7FFFFFFF] := by decide +kernel

/-- V41.16. -/
theorem test_smul_least_arg :
    ((after (.smul 1 0) ((start .p255 [(0, elem .p255 (p255 - 1))]).setArg 0x80000000)).reg 1).limbs =
      0x1300 :: 4 :: List.replicate 6 0 ++ [-0x80000000] := by decide +kernel

/-- V42.1, the source's worked example. -/
theorem test_mul_two_m_two :
    (after (.mul 2 0 1) (start .p221 [(0, elem .p221 2), (1, elem .p221 (p221 - 2))])).reg 2 = fullReg 0x0FFFFFF9 0x1FFFFFF := by
  decide +kernel

/-- V42.5: a negative V squares to 1. -/
theorem test_mul_negative_value :
    (after (.mul 3 2 2) (start .p221 [(2, fullReg 0x0FFFFFFF (-1))])).reg 3 = elem .p221 1 := by decide +kernel

/-- V42.7. -/
theorem test_sqr_large_top_limb :
    ((after (.sqr 2 1) (start .p221 [(1, { valid := true, tag := .field, limbs :=
      0x0FFFFF3F :: 15 :: 0x0FFFFFC0 :: List.replicate 4 0x0FFFFFFF ++ [0x7FFFFFFF] })])).reg 2).limbs =
      [1, 0x0FFFFFE0, 0x17F, 0x0FFFF800, 0xFFF, 0, 0, 0] := by decide +kernel

/-- V42.12. -/
theorem test_sqr_p382 :
    ((after (.sqr 1 0) (start .p382 [(0, elem .p382 ((ModulusId.p382.p : Int) - 1))])).reg 1).limbs =
      0x0FFFFF98 :: List.replicate 12 0x0FFFFFFF ++ [0x3FFFF] := by decide +kernel

/-- V43.1. -/
theorem test_inv_four :
    ((after (.inv 1 0) (start .p221 [(0, elem .p221 4)])).reg 1).limbs = full 0x0FFFFFFE 0x17FFFFF := by decide +kernel

/-- V43.7. -/
theorem test_div_one_by_three :
    ((after (.div 2 0 1) (start .p221 [(0, elem .p221 1), (1, elem .p221 3)])).reg 2).limbs =
      List.replicate 7 0x0AAAAAAA ++ [0xAAAAAA] := by decide +kernel

/-- V43.5: division by zero is no error. -/
theorem test_div_by_zero :
    (after (.div 2 0 1) (start .p221 [(0, elem .p221 1), (1, elem .p221 0)])).reg 2 = elem .p221 0 := by decide +kernel

/-- R125's example: 2 is a non-residue of P221. -/
theorem test_leg_two :
    let u := after (.leg 1 0) (start .p221 [(0, elem .p221 2)])
    u.reg 1 = elem .p221 (p221 - 1) ∧ u.result = 0xFFFFFFFF := by decide +kernel

/-- R129's example. -/
theorem test_sqrt_four :
    (after (.sqrt 1 0) (start .p221 [(0, elem .p221 4)])).reg 1 = elem .p221 (p221 - 2) := by decide +kernel

/-- E13: E_UNSUPPORTED before E_UNINIT. -/
theorem test_sqrt_unsupported : (after (.sqrt 1 0) (start .p222 [])).statusWord = 0x604 := by decide +kernel

/-- V44.1. -/
theorem test_eq_modulus_zero :
    let u := after (.eq 0 1) (start .p221 [(0, fullReg 0x0FFFFFFD 0x1FFFFFF), (1, elem .p221 0)])
    u.result = 1 ∧ u.reg 0 = elem .p221 0 := by decide +kernel

/-- V44.2. -/
theorem test_eq_differs : (after (.eq 0 1) (start .p221 [(0, elem .p221 1), (1, elem .p221 2)])).result = 0 := by decide +kernel

/-- V44.7. -/
theorem test_bit_top : (after (.bit 0) ((start .p221 [(0, elem .p221 (p221 - 1))]).setArg 0xDC)).result = 1 := by decide +kernel

/-- V44.9 (STATUS without the DONE of its set-up commands). -/
theorem test_bit_index_too_large :
    (after (.bit 0) ((start .p221 [(0, elem .p221 (p221 - 1))]).setArg 0xDD)).statusWord = 0x504 := by decide +kernel

/-- V44.15. -/
theorem test_fill_one :
    (after (.fill 5) ((start .p221 []).setArg 3)).reg 5 =
      { valid := true, tag := .mask, limbs := List.replicate 8 0xFFFFFFFFFFFFFFFF } := by decide +kernel

/-- V44.14. -/
theorem test_fill_ignores_high_bits :
    (after (.fill 5) ((start .p221 []).setArg 2)).reg 5 = { valid := true, tag := .mask, limbs := List.replicate 8 0 } := by
  decide +kernel

/-- V44.17. -/
theorem test_andm_one :
    (after (.andm 2 0 1) (start .p221 [(0, elem .p221 0x123456789), (1, maskReg .p221 true)])).reg 2 =
      elem .p221 0x123456789 := by decide +kernel

/-- V44.20 (STATUS 0x404). -/
theorem test_andm_type :
    (after (.andm 2 0 1) (start .p221 [(0, elem .p221 1), (1, elem .p221 1)])).statusWord = 0x404 := by decide +kernel

/-- V44.21: the OR may be at or above p. -/
theorem test_orm_above_p :
    ((after (.orm 2 0 1) (start .p221 [(0, elem .p221 (p221 - 1)), (1, elem .p221 3)])).reg 2).limbs =
      List.replicate 7 0x0FFFFFFF ++ [0x1FFFFFF] := by decide +kernel

/-- V44.27: the destination is the mask register. -/
theorem test_csel_into_the_mask :
    (after (.csel 4 1 2 4) (start .p221 [(1, elem .p221 111), (2, elem .p221 222), (4, maskReg .p221 false)])).reg 4 =
      elem .p221 222 := by decide +kernel

/-- V44.26. -/
theorem test_csel_takes_a :
    let u := after (.csel 3 1 2 4) (start .p221 [(1, fullReg 0x0FFFFFFF (-1)), (2, elem .p221 7), (4, maskReg .p221 true)])
    u.reg 3 = fullReg 0x0FFFFFFC 0x1FFFFFF ∧ u.reg 1 = fullReg 0x0FFFFFFC 0x1FFFFFF := by decide +kernel

/-- R144's example: the limbs are copied. -/
theorem test_seta : (after (.seta 0) (start .p255 [(0, elem .p255 (p255 - 1))])).ca = curveReg (elem .p255 (p255 - 1)).limbs := by
  decide +kernel

/-- R30 and R145: SETD copies the stash. -/
theorem test_setd_copies_the_stash :
    (after (.setd 2) (start .p221 [(2, fullReg 0x0FFFFFFF (-1))])).cd =
      { valid := true, limbs := full 0x0FFFFFFF (-1) } := by decide +kernel

/-- R146's example: PZERO P1 sets F4 to F7 to 0, 1, 1, 0. -/
theorem test_pzero :
    let u := after (.pzero 1) (start .p255 [])
    u.reg 4 = elem .p255 0 ∧ u.reg 5 = elem .p255 1 ∧ u.reg 6 = elem .p255 1 ∧ u.reg 7 = elem .p255 0 := by decide +kernel

/-- The Ed25519 base point of 95_test_vectors.md. -/
def xG : Int := 0x216936d3cd6e53fec0a4e231fdd6dc5c692cc7609525a7b2c9562d608f25d51a

/-- Its y. -/
def yG : Int := 0x6666666666666666666666666666666666666666666666666666666666666658

/-- The Ed25519 d of 95_test_vectors.md. -/
def dEd : Int := 0x52036cee2b6ffe738cc740797779e89800700a4d4141d8ab75eb4dca135978a3

/-- The Ed25519 parameters, P0 the base point, P1 the identity and F20 a scalar. -/
def edwards (k : Int) : State :=
  ((start .p255 (writePoint 0 (liftPoint .p255 (split .p255 xG) (split .p255 yG)) ++ writePoint 1 (identityPoint .p255) ++
    [(20, elem .p255 k)])).setCa (curveReg (toLimbs (split .p255 (p255 - 1))))).setCd (curveReg (toLimbs (split .p255 dEd)))

/-- The values of the four coordinates of a point register. -/
def coords (s : State) (k : Slot) : List Int := [0, 1, 2, 3].map (fun j => s.valAt (coordSlot k j))

/-- V45.2. -/
theorem test_pinit :
    coords (after (.pinit 0 16 17) (start .p255 [(16, elem .p255 xG), (17, elem .p255 yG)])) 0 =
      [xG, yG, 1, 0x67875f0fd78b766566ea4e8e64abe37d20f09f80775152f56dde8ab3a5b7dda3] := by decide +kernel

/-- V45.6. -/
theorem test_padd_unified_doubling :
    coords (after (.padd 1 0 0) (edwards 0)) 1 =
      [0x4edbe2246583dab515ddb478484f06f677913e22058e9da4854579b3e7cff596,
       0x4cdb67b39336cc2496487d03c536ae09f5b85599d441cde36db4d326a1d28016,
       0x16793a8694a883a8bf672e05c4bd9d6d142c9effcc6d662e9c8b56c2fd872182,
       0x67db82368b4a636abf1ba9bfb75781f05c9d2540120f44e6f14cb1f8e4b2b654] := by decide +kernel

/-- R149's example: adding the identity gives the point. -/
theorem test_padd_identity : coords (after (.padd 2 0 1) (edwards 0)) 2 = coords (edwards 0) 0 := by decide +kernel

/-- V45.7. -/
theorem test_pdbl :
    coords (after (.pdbl 1 0) (edwards 0)) 1 =
      [0x31241ddb9a7c254aea224b87b7b0f909886ec1ddfa71625b7aba864c18300a57,
       0x3324984c6cc933db69b782fc3ac951f60a47aa662bbe321c924b2cd95e2d7fd7,
       0x6986c5796b577c574098d1fa3b426292ebd36100339299d16374a93d0278de6b,
       0x18247dc974b59c9540e4564048a87e0fa362dabfedf0bb190eb34e071b4d4999] := by decide +kernel

/-- V45.3: CA and CD are needed. -/
theorem test_pdbl_without_curve : (after (.pdbl 1 0) (start .p255 (writePoint 0 (identityPoint .p255)))).statusWord = 0x304 := by
  decide +kernel

/-- V45.8: X = x·Z and Y = y·Z for the affine coordinates of 3G. -/
theorem test_ptpl :
    let c := coords (after (.ptpl 1 0) (edwards 0)) 1
    0x67ae9c4a22928f491ff4ae743edac83a6343981981624886ac62485fd3f8e25c * c.getD 2 0 % p255 = c.getD 0 1 ∧
      0x1267b1d177ee69aba126a18e60269ef79f16ec176724030402c3684878f5b4d4 * c.getD 2 0 % p255 = c.getD 1 1 := by decide +kernel

/-- One ladder step from (the identity, G): bit 1 gives (G, 2G) with 2G of V45.7 (R155). -/
theorem test_pmul_ladder_step :
    let G := (edwards 0).point 0
    let r := ladderStep .p255 (edwards 0).caInts (edwards 0).cdInts (List.replicate 9 (maskWord true)) (identityPoint .p255, G)
    r.1 = { G with T := normalize .p255 G.T } ∧
      vInt .p255 r.2.X = 0x31241ddb9a7c254aea224b87b7b0f909886ec1ddfa71625b7aba864c18300a57 := by decide +kernel

/-- V45.21 (STATUS without the DONE of its set-up commands): the scalar must be a FIELD register. -/
theorem test_pmul_type : (after (.pmul 1 0 21) ((edwards 0).setReg 21 (maskReg .p255 true))).statusWord = 0x404 := by
  decide +kernel

/-! ### The host window, errors and reset -/

/-- The state after a list of turns; a stop leaves the state. -/
def play : List Turn → State → State
  | [], s => s
  | t :: ts, s =>
    match takeTurn t s with
    | .next u => play ts u
    | .fault _ | .refused _ => s

/-- A CMD write with the window at address 0. -/
def cmd (v : Word) : Turn := .write 0x00C 4 v

/-- E9: a CMD write while busy is discarded, and the command in flight completes. -/
theorem test_busy_write_is_discarded :
    (play [cmd 0x08010000, cmd 0x08210000] (start .p221 [])).statusWord = 0x105 ∧
      (play [cmd 0x08010000, cmd 0x08210000, .complete] (start .p221 [])).statusWord = 0x106 ∧
      ((play [cmd 0x08010000, cmd 0x08210000, .complete] (start .p221 [])).reg 1).valid = false := by decide +kernel

/-- E3 to E6: the error is sticky, ARG is still taken, ERRCLR clears. -/
theorem test_sticky_error :
    (play [cmd 0x20400800, cmd 0x08010000, .write 0x010 4 5] (start .p221 [])).statusWord = 0x304 ∧
      (play [cmd 0x20400800, cmd 0x08010000, .write 0x010 4 5] (start .p221 [])).arg = 5 ∧
      (play [cmd 0x20400800, cmd 0x08010000, .write 0x010 4 5, .write 0x004 4 2] (start .p221 [])).statusWord = 0 := by
  decide +kernel

/-- E16: irq after each step. -/
theorem test_irq :
    (play [.write 0x004 4 4, cmd 0x08010000] (start .p221 [])).irq = false ∧
      (play [.write 0x004 4 4, cmd 0x08010000, .complete] (start .p221 [])).irq = true ∧
      (play [.write 0x004 4 4, cmd 0x08010000, .complete, .write 0x008 4 2] (start .p221 [])).irq = false ∧
      (play [.write 0x004 4 4, cmd 0x08010000, .complete, .write 0x008 4 2, cmd 0x18000000] (start .p221 [])).irq = true := by
  decide +kernel

/-- E17, E18 and 2.1: read-only and reserved offsets, and the identification registers. -/
theorem test_identification_registers :
    (play [.write 0x000 4 1, .read 0x000 4] (start .p221 [])).readData = 0x46500100 ∧
      (play [.write 0x018 4 7, .read 0x018 4] (start .p221 [])).readData = 0xDD ∧
      (play [.write 0x024 4 0xFFFFFFFF, .read 0x024 4] (start .p221 [])).readData = 0 ∧
      (play [.read 0x000 4] (start .p521 [])).readData = 0x46500106 ∧ (play [.read 0x020 4] (start .p521 [])).readData = 66 := by
  decide +kernel

/-- R57: DATA is little-endian. -/
theorem test_data_window :
    (play [.write 0x080 4 0x11223344, .read 0x080 4] (start .p221 [])).data = [(64, 0x44), (65, 0x33), (66, 0x22), (67, 0x11)] ∧
      (play [.write 0x080 4 0x11223344, .read 0x080 4] (start .p221 [])).readData = 0x11223344 := by decide +kernel

/-- H1: SRST aborts the command in flight and IE stays 0. -/
theorem test_soft_reset_aborts :
    let s := play [.write 0x010 4 3, .write 0x004 4 4, cmd 0x50200000, .write 0x004 4 5] (start .p221 [(0, elem .p221 1)])
    s = start .p221 [] := by decide +kernel

/-- R47, R46: accesses the interface does not have. -/
theorem test_accesses_without_a_step :
    (∃ r, takeTurn (.read 0x002 4) (start .p221 []) = .refused r) ∧ (∃ r, takeTurn (.read 0x000 2) (start .p221 []) = .refused r) ∧
      ∃ r, takeTurn (.read 0x1000 4) (start .p221 []) = .fault r := ⟨⟨_, rfl⟩, ⟨_, rfl⟩, ⟨_, rfl⟩⟩

/-- From reset, with nothing else placed, the word of LDC F1, #ONE is issued by the first step and completed by the next. -/
theorem test_fetch_word_runs :
    (match Host.Core.run Sys2Proof.core 2 (State.reset.withFetchWord 32 0x08210000) with
      | .next s => s.reg 1
      | .fault _ | .refused _ => FieldReg.atReset .p221) = elem .p221 1 := by decide +kernel

/-! ### Witnesses: states and operands that meet the hypotheses of the statements -/

/-- P0 and P1 are points, F8 = 5, F9 the lazy vector of −1 (in P221) or of p, F10 and F11 the masks of 1 and 0, F12 = 0, F13 = p − 1;
CA = 1 and CD = 2. Nothing is in flight. -/
def demo (m : ModulusId) : State :=
  ((start m (writePoint 0 (identityPoint m) ++ writePoint 1 (liftPoint m (split m 3) (split m 4)) ++
    [(8, elem m 5), (9, fieldReg (split m (if m = .p221 then -1 else m.p))), (10, maskReg m true), (11, maskReg m false),
      (12, elem m 0), (13, elem m ((m.p : Int) - 1)), (14, elem m 1)])).setCa (curveReg (elem m 1).limbs)).setCd
        (curveReg (elem m 2).limbs)

/-- `demo` with ADD F20, F8, F9 in flight. -/
def demoBusy : State := match exec (.add 20 8 9) (demo .p221) with
  | .next t => t
  | .fault _ | .refused _ => demo .p221

/-- `demo` after an error. -/
def demoError : State := (demo .p221).setError true 3

theorem demo_inv : ∀ m, (demo m).Inv := by
  intro m
  cases m <;> exact ⟨by decide +kernel, by decide +kernel, by decide +kernel, by decide +kernel, by decide +kernel, by decide +kernel⟩

theorem demoBusy_inv : demoBusy.Inv :=
  ⟨by decide +kernel, by decide +kernel, by decide +kernel, by decide +kernel, by decide +kernel, by decide +kernel⟩

theorem demo_ready : ∀ m, (demo m).Ready := fun _ => ⟨rfl, rfl⟩

theorem demo_fieldAt : ∀ m, (demo m).FieldAt 8 ∧ (demo m).FieldAt 9 ∧ (demo m).FieldAt 12 ∧ (demo m).FieldAt 13 ∧
    (demo m).FieldAt 14 := by
  simp only [State.FieldAt]; intro m; cases m <;> decide +kernel

theorem demo_curve_and_points : (demo .p255).CurveSet ∧ (demo .p255).PointAt 0 ∧ (demo .p255).PointAt 1 := by
  simp only [State.CurveSet, State.PointAt, State.FieldAt]; decide +kernel

/-- p is prime in P521 (the Lucas–Lehmer test). -/
theorem p521_prime : ModulusId.p521.p.Prime := by
  have h : (mersenne 521).Prime := lucas_lehmer_sufficiency _ (by simp) (by norm_num)
  have hp : ModulusId.p521.p = mersenne 521 := by simp only [ModulusId.p, ModulusId.n, ModulusId.c, mersenne]
  rwa [hp]

/-! Encoding. -/

theorem witness_EncodeOfDecodeIsTheWord : decode 0x77FFF7C0 = .ok (.csel 31 31 30 31) := rfl

theorem witness_DecodeOfEncodeIsTheCommand : (Instr.ldc 31 3).wellFormed = true ∧ (Instr.ldc 31 4).wellFormed = false := by decide

theorem witness_DecoderIsTheOpcodeTable :
    decode 0xB4E7F800 = .ok (.pmul 7 7 31) ∧ decode 0xB8000000 = .error .reservedOpcode := ⟨rfl, rfl⟩

/-- Each clause of the list at its ends, and for the slots: each slot of NOP, ADD's m, EQ's d, each point slot at 8, the selector at 4. -/
theorem witness_ReservedEncodingsRaiseIllegal :
    (demo .p221).Ready ∧ opField 0x18000000 = 0x06 ∧ opField 0x7C000000 = 0x1F ∧ opField 0x88000000 = 0x22 ∧
      opField 0x9C000000 = 0x27 ∧ opField 0xB8000000 = 0x2E ∧ opField 0xFC000000 = 0x3F ∧ zField 0x20400801 ≠ 0 ∧
      ∀ w ∈ ([0x00200000, 0x00010000, 0x00000800, 0x00000040, 0x20400840, 0x60200000, 0xA1000000, 0xA8080000, 0xA8004000,
        0x08040000] : List Word), ∃ r ∈ slotTable, r.RefusesSlots w :=
  ⟨demo_ready _, by
    simp only [SlotRow.RefusesSlots, List.forall_mem_cons, List.not_mem_nil, false_implies, implies_true, and_true]
    decide +kernel⟩

/-! Reset, invariant, window. -/

theorem witness_BothResetsGiveTheResetState : (0x00000005 : Word).getLsbD 0 = true := by decide

theorem witness_ConfigurationFacts : ModulusId.p221.hasSqrt = true ∧ ModulusId.p255.hasSqrt = true := by decide +kernel

theorem witness_NoStepChangesTheParameters : ∃ u, step (demo .p221) = .next u := ⟨_, rfl⟩

theorem witness_EveryStepKeepsTheInvariant : demoBusy.Inv ∧ ∃ u, step demoBusy = .next u := ⟨demoBusy_inv, _, rfl⟩

theorem witness_ReadsReturnTheRegisters : (0 : Nat) ≤ 16 ∧ (16 : Nat) ≤ 16 := by decide

theorem witness_ReservedAndReadOnlyOffsets :
    ReservedOffset 0x024 ∧ ReservedOffset 0x03C ∧ ReservedOffset 0x084 ∧ ReservedOffset 0xFFC ∧ ReadOnlyOffset 0x000 ∧
      ReadOnlyOffset 0x020 := by
  simp only [ReservedOffset, ReadOnlyOffset]; decide

theorem witness_CtrlRegister : (0x00000007 : Word).getLsbD 0 = true ∧ (0x00000006 : Word).getLsbD 0 = false := by decide

theorem witness_ArgRegister : (demo .p221).inflight = none ∧ demoBusy.inflight ≠ none := by decide +kernel

theorem witness_DataWindow : (demo .p221).Inv ∧ (demo .p221).inflight = none ∧ demoBusy.Inv ∧ demoBusy.inflight ≠ none :=
  ⟨demo_inv _, rfl, demoBusy_inv, witness_ArgRegister.2⟩

theorem witness_WritesWhileBusyAreDiscarded :
    demoBusy.inflight ≠ none ∧ GuardedOffset 0x00C ∧ GuardedOffset 0x010 ∧ GuardedOffset 0x040 ∧ GuardedOffset 0x080 ∧
      ¬ GuardedOffset 0x004 ∧ ¬ GuardedOffset 0x014 ∧ ¬ GuardedOffset 0x03C ∧ ¬ GuardedOffset 0x084 := by
  refine ⟨witness_ArgRegister.2, .inl rfl, .inr (.inl rfl), .inr (.inr ⟨0, by decide, rfl⟩), .inr (.inr ⟨16, by decide, rfl⟩),
    ?_, ?_, ?_, ?_⟩ <;> simp only [GuardedOffset] <;> omega

theorem witness_AccessesOutsideTheInterfaceStop :
    (0xFFE / 4096 = (demo .p221).params.basePage ∧ 0xFFE % 4 ≠ 0) ∧ (0x00C / 4096 = (demo .p221).params.basePage ∧ 2 ≠ 4) ∧
      0x1000 / 4096 ≠ (demo .p221).params.basePage := by decide

/-! Errors and the interrupt. -/

theorem witness_AnErrorIsRecordedAndNothingElse : demoBusy.inflight ≠ none ∧ (16 : Nat) ≤ 16 ∧ 0x080 = 0x040 + 4 * 16 :=
  ⟨witness_ArgRegister.2, by decide⟩


/-- SQRT in P222; an invalid register; CA invalid; a mask in an F slot; a field element in the M slot; an index of n, and of n − 1. -/
theorem witness_TheFirstFailingCheckIsReported :
    demoError.err = true ∧ (demoBusy.err = false ∧ demoBusy.inflight ≠ none) ∧ (demo .p222).Ready ∧
      (∀ r ∈ opcodeTable, r.selects 0xFFFFFFFF = false) ∧
      (decode 0x5C200000 = .ok (.sqrt 1 0) ∧ Unsupported (.sqrt 1 0) (demo .p222)) ∧
      (decode 0x205F0000 = .ok (.add 2 31 0) ∧ ¬ Unsupported (.add 2 31 0) (demo .p222) ∧
        ReadsInvalid (.add 2 31 0) (demo .p222)) ∧
      (decode 0xAC200000 = .ok (.pdbl 1 0) ∧ ¬ Unsupported (.pdbl 1 0) (start .p222 (writePoint 0 (identityPoint .p222))) ∧
        ReadsInvalid (.pdbl 1 0) (start .p222 (writePoint 0 (identityPoint .p222)))) ∧
      (decode 0x204A4000 = .ok (.add 2 10 8) ∧ ¬ Unsupported (.add 2 10 8) (demo .p222) ∧
        ¬ ReadsInvalid (.add 2 10 8) (demo .p222) ∧ ReadsMistyped (.add 2 10 8) (demo .p222)) ∧
      (decode 0x6C480240 = .ok (.andm 2 8 9) ∧ ¬ Unsupported (.andm 2 8 9) (demo .p222) ∧
        ¬ ReadsInvalid (.andm 2 8 9) (demo .p222) ∧ ReadsMistyped (.andm 2 8 9) (demo .p222)) ∧
      (decode 0x64080000 = .ok (.bit 8) ∧ ¬ Unsupported (.bit 8) ((demo .p222).setArg 222) ∧
        ¬ ReadsInvalid (.bit 8) ((demo .p222).setArg 222) ∧ ¬ ReadsMistyped (.bit 8) ((demo .p222).setArg 222) ∧
        IndexTooLarge (.bit 8) ((demo .p222).setArg 222)) ∧
      (¬ Unsupported (.bit 8) ((demo .p222).setArg 221) ∧ ¬ ReadsInvalid (.bit 8) ((demo .p222).setArg 221) ∧
        ¬ ReadsMistyped (.bit 8) ((demo .p222).setArg 221) ∧ ¬ IndexTooLarge (.bit 8) ((demo .p222).setArg 221)) := by
  refine ⟨rfl, ⟨rfl, witness_ArgRegister.2⟩, demo_ready _, by decide, ⟨rfl, ⟨1, 0, rfl⟩, by decide +kernel⟩, ⟨rfl, ?_, ?_⟩,
    ⟨rfl, ?_, ?_⟩, ⟨rfl, ?_, ?_, ?_⟩, ⟨rfl, ?_, ?_, ?_⟩, ⟨rfl, ?_, ?_, ?_, ?_⟩, ?_, ?_, ?_, ?_⟩
  all_goals first
    | (simp only [ReadsInvalid, ReadsMistyped]; decide +kernel)
    | exact fun h => by obtain ⟨⟨_, _, h⟩, _⟩ := h; exact absurd h (by simp)
    | exact ⟨⟨8, rfl⟩, by decide +kernel⟩
    | exact fun h => absurd h.2 (by decide +kernel)

theorem witness_AnErrorBlocksCommandsAlone :
    demoError.err = true ∧ demoError.inflight = none ∧ (demoBusy.setError true 1).err = true ∧
      (0x00000002 : Word).getLsbD 0 = false ∧ (0x00000004 : Word).getLsbD 0 = false ∧ (0x00000001 : Word).getLsbD 0 = true := by
  decide +kernel

theorem witness_OnlyErrclrAndResetClearErr :
    ∃ u, step (demoError.setAgenda [demoError.writeAt 0x004 0x00000002]) = .next u ∧ demoError.err = true ∧ u.err = false :=
  ⟨_, rfl, rfl, rfl⟩

theorem witness_IrqFollowsDoneAndErr : (demoBusy.setIe true).ie = true ∧ (demoBusy.setIe true).inflight ≠ none := by
  decide +kernel

theorem witness_DoneRisesOnlyAtCompletion : ∃ u, step demoBusy = .next u ∧ demoBusy.done = false ∧ u.done = true :=
  ⟨complete demoBusy, rfl, by decide +kernel, by decide +kernel⟩

/-! Issue, completion and the step. -/

theorem witness_NothingIsWrittenBeforeCompletion : ∃ t, exec (.add 20 8 9) (demo .p221) = .next t ∧
    t.inflight ≠ (demo .p221).inflight := ⟨demoBusy, rfl, witness_ArgRegister.2⟩

theorem witness_HostAccessesKeepTheSnapshot :
    demoBusy.inflight ≠ none ∧ ∃ u, takeTurn (demoBusy.writeAt 0x010 7) demoBusy = .next u ∧
      demoBusy.writeAt 0x010 7 ≠ .complete ∧ demoBusy.writeAt 0x010 7 ≠ .hardReset ∧
      ∀ v : Word, demoBusy.writeAt 0x010 7 = demoBusy.writeAt 0x004 v → v.getLsbD 0 = false :=
  ⟨witness_ArgRegister.2, _, rfl, by simp [State.writeAt], by simp [State.writeAt], by simp [State.writeAt]⟩

theorem witness_CompletionAppliesThePendingWrites :
    (demo .p221).inflight = none ∧ demoBusy.Inv ∧ (∃ f, demoBusy.inflight = some f) ∧
      ∃ t f, exec (.eq 8 8) (demo .p221) = .next t ∧ t.inflight = some f :=
  ⟨rfl, demoBusy_inv, ⟨_, rfl⟩, _, _, rfl, rfl⟩

theorem witness_AStepRunsTheDecodedCommand :
    ((demo .p221).setAgenda [(demo .p221).writeAt 0x00C 0x20400800]).agenda = (demo .p221).writeAt 0x00C 0x20400800 :: [] ∧
      decode 0x20400800 = .ok (.add 2 0 1) ∧ (Instr.pzero 7).wellFormed = true := ⟨rfl, rfl, rfl⟩

theorem witness_NothingIsInFlightAfterTheLastTurn :
    ∃ u, Host.Core.run Sys2Proof.core (demoBusy.agenda.length + 1) demoBusy = .next u := ⟨_, rfl⟩

/-- A CTRL write that is no reset and the completion are to come. -/
theorem witness_ACommandInFlightCompletesUnlessReset :
    let s := demoBusy.setAgenda [demoBusy.writeAt 0x004 0x00000004, .complete]
    s.inflight ≠ none ∧ (∃ u, Host.Core.run Sys2Proof.core (s.agenda.length + 1) s = .next u) ∧
      ∀ t ∈ s.agenda, t ≠ .hardReset ∧ ∀ v : Word, t = s.writeAt 0x004 v → v.getLsbD 0 = false := by
  refine ⟨witness_ArgRegister.2, ⟨_, rfl⟩, ?_⟩
  simp only [setAgenda_agenda, List.forall_mem_cons, List.not_mem_nil, false_implies, implies_true, and_true]
  refine ⟨⟨by simp [State.writeAt], fun v h => ?_⟩, by simp, by simp [State.writeAt]⟩
  simp only [State.writeAt, setAgenda_params, Turn.write.injEq, true_and] at h
  rw [← h]; decide

theorem witness_ResultsDependOnTheSnapshotAlone :
    (demo .p221).Inv ∧ ((demo .p221).setResult 7).Inv ∧ (demo .p221).Ready ∧ ((demo .p221).setResult 7).Ready ∧ (∃ t, exec (.add 20 8 9) (demo .p221) = .next t) ∧
      ∃ t, exec (.add 20 8 9) ((demo .p221).setResult 7) = .next t := 
  ⟨demo_inv _, { demo_inv .p221 with }, demo_ready .p221, demo_ready .p221, ⟨_, rfl⟩, _, rfl⟩

theorem witness_CommandsWriteOnlyTheirDestinations :
    (demo .p221).Inv ∧ (demo .p221).Ready ∧ (∃ t, exec (.csel 8 8 9 10) (demo .p221) = .next t ∧ t.inflight ≠ none) ∧
      (9 : Slot) ∉ (Instr.csel 8 8 9 10).destinations ∧ (9 : Slot) ∈ (Instr.csel 8 8 9 10).writtenBack :=
  ⟨demo_inv _, demo_ready _, ⟨_, rfl, by decide +kernel⟩, by decide⟩

/-! Limbs. The two vectors have the greatest and the least top limb INV allows. -/

theorem witness_NormalizeIsExact :
    lazyForm .p221 (List.replicate 7 0x0FFFFFFF ++ [0xFFFFFFFF]) = true ∧
      lazyForm .p255 (List.replicate 8 0 ++ [-0xFFFFFFFF]) = true := by decide +kernel

theorem witness_LazyResultsAreBounded :
    lazyForm .p221 (List.replicate 7 0x0FFFFFFF ++ [0xFFFFFFFF]) = true ∧
      lazyForm .p221 (List.replicate 7 0 ++ [-0xFFFFFFFF]) = true ∧ -2 ^ 31 ≤ (-2 ^ 31 : Int) ∧ (-2 ^ 31 : Int) < 2 ^ 31 := by
  decide +kernel

/-! Commands. -/

theorem witness_NopMovLdcResults :
    (demo .p221).Ready ∧ ((demo .p221).reg 10).valid = true ∧ ((demo .p221).reg 9).valid = true ∧
      ((3 : Slot).val, (demo .p221).pInt) ∈ [(0, 0), (1, 1), (2, (demo .p221).pInt - 1), (3, (demo .p221).pInt)] :=
  ⟨demo_ready _, by decide +kernel, by decide +kernel, by simp⟩

theorem witness_UnpackResult : (demo .p251).Ready := demo_ready _

theorem witness_NormPackResults : (demo .p221).Inv ∧ (demo .p221).Ready ∧ (demo .p221).FieldAt 9 :=
  ⟨demo_inv _, demo_ready _, (demo_fieldAt _).2.1⟩

theorem witness_UnpackAfterPackIsTheValue : (demo .p521).Inv ∧ (demo .p521).Ready ∧ (demo .p521).FieldAt 13 :=
  ⟨demo_inv _, demo_ready _, (demo_fieldAt _).2.2.2.1⟩

theorem witness_AddSubNegResults : (demo .p221).Inv ∧ (demo .p221).Ready ∧ (demo .p221).FieldAt 8 ∧ (demo .p221).FieldAt 9 :=
  ⟨demo_inv _, demo_ready _, (demo_fieldAt _).1, (demo_fieldAt _).2.1⟩

theorem witness_SmallOperandResults :
    ((demo .p221).setArg 0x80000000).Ready ∧ ((demo .p221).setArg 0x80000000).FieldAt 9 ∧
      ((demo .p221).setArg 0x80000000).Inv :=
  ⟨demo_ready .p221, (demo_fieldAt .p221).2.1, { demo_inv .p221 with }⟩

theorem witness_MulSqrResults : (demo .p382).Inv ∧ (demo .p382).Ready ∧ (demo .p382).FieldAt 9 ∧ (demo .p382).FieldAt 13 :=
  ⟨demo_inv _, demo_ready _, (demo_fieldAt .p382).2.1, (demo_fieldAt .p382).2.2.2.1⟩

theorem witness_InvDivResults : (demo .p414).Inv ∧ (demo .p414).Ready ∧ (demo .p414).FieldAt 8 ∧ (demo .p414).FieldAt 12 :=
  ⟨demo_inv _, demo_ready _, (demo_fieldAt _).1, (demo_fieldAt _).2.2.1⟩

theorem witness_InvAndDivInvert :
    (demo .p521).Inv ∧ (demo .p521).Ready ∧ (demo .p521).FieldAt 8 ∧ (demo .p521).FieldAt 12 ∧ (demo .p521).modulus.p.Prime ∧
      (demo .p521).valAt 8 ≠ 0 ∧ (demo .p521).valAt 12 = 0 :=
  ⟨demo_inv _, demo_ready _, (demo_fieldAt _).1, (demo_fieldAt _).2.2.1, p521_prime, by decide +kernel, by decide +kernel⟩

/-- The values of LEG's three cases: 0, 1 and, for −1 in P221 = 2^221 − 3, a square again, so the clause of p − 1 is shown by 2. -/
theorem witness_LegResult :
    (demo .p221).Inv ∧ (demo .p221).Ready ∧ (demo .p221).FieldAt 12 ∧ (demo .p221).FieldAt 14 ∧
      (demo .p221).valAt 12 = 0 ∧ (demo .p221).valAt 14 = 1 ∧
      val .p221 (exp .p221 (split .p221 2) ((ModulusId.p221.p - 1) / 2)) = p221 - 1 :=
  ⟨demo_inv _, demo_ready _, (demo_fieldAt _).2.2.1, (demo_fieldAt _).2.2.2.2, by decide +kernel, by decide +kernel,
    by decide +kernel⟩

/-- −1 is no square modulo a prime p ≡ 3 (mod 4). -/
theorem neg_one_no_square (s : State) (a : Slot) (hp : s.modulus.p.Prime) (h4 : s.modulus.p % 4 = 3)
    (ha : s.valAt a = s.pInt - 1) : ¬ ∃ y : Int, y ^ 2 % s.pInt = s.valAt a := by
  rintro ⟨y, hy⟩
  have : Fact s.modulus.p.Prime := ⟨hp⟩
  have hsq : (y : ZMod s.modulus.p) ^ 2 = -1 := by
    have h := congrArg (Int.cast : Int → ZMod s.modulus.p) (hy.trans ha)
    rw [State.pInt, ZMod.intCast_mod] at h
    simpa using h
  exact (ZMod.exists_sq_eq_neg_one_iff (p := s.modulus.p)).1 ⟨(y : ZMod s.modulus.p), by rw [← hsq, pow_two]⟩ h4

/-- The clauses for zero and for a square: F12 = 0 and F14 = 1. -/
theorem witness_LegIsTheLegendreSymbol :
    (demo .p521).Inv ∧ (demo .p521).Ready ∧ (demo .p521).FieldAt 12 ∧ (demo .p521).FieldAt 14 ∧ (demo .p521).modulus.p.Prime ∧
      (demo .p521).valAt 12 = 0 ∧ (demo .p521).valAt 14 ≠ 0 ∧
      ∃ y : Int, y ^ 2 % (demo .p521).pInt = (demo .p521).valAt 14 :=
  ⟨demo_inv _, demo_ready _, (demo_fieldAt _).2.2.1, (demo_fieldAt _).2.2.2.2, p521_prime, by decide +kernel, by decide +kernel,
    1, by decide +kernel⟩

theorem demo_p521_neg_one : (demo .p521).valAt 13 = (demo .p521).pInt - 1 ∧ (demo .p521).valAt 13 ≠ 0 ∧
    (demo .p521).modulus.p % 4 = 3 := by decide +kernel

/-- The clause for a non-square: F13 = p − 1, and p ≡ 3 (mod 4) in P521. -/
theorem witness_LegIsTheLegendreSymbol_nonsquare :
    (demo .p521).Inv ∧ (demo .p521).Ready ∧ (demo .p521).FieldAt 13 ∧ (demo .p521).modulus.p.Prime ∧
      (demo .p521).valAt 13 ≠ 0 ∧ ¬ ∃ y : Int, y ^ 2 % (demo .p521).pInt = (demo .p521).valAt 13 :=
  ⟨demo_inv _, demo_ready _, (demo_fieldAt _).2.2.2.1, p521_prime, demo_p521_neg_one.2.1,
    neg_one_no_square (demo .p521) 13 p521_prime demo_p521_neg_one.2.2 demo_p521_neg_one.1⟩

theorem witness_SqrtResult :
    (demo .p255).Inv ∧ (demo .p255).Ready ∧ (demo .p255).modulus.p % 8 = 5 ∧ (demo .p255).FieldAt 8 ∧ (demo .p222).Inv ∧
      (demo .p222).Ready ∧ (demo .p222).modulus.p % 8 ≠ 5 :=
  ⟨demo_inv _, demo_ready _, by decide +kernel, (demo_fieldAt _).1, demo_inv _, demo_ready _, by decide +kernel⟩

/-- The three cases: 1, whose quartic character is 1; 0; and −1, for which it is −1, since (p − 1)/4 is odd in P221. -/
theorem witness_SqrtSquaresBack :
    (demo .p221).Inv ∧ (demo .p221).Ready ∧ (demo .p221).modulus.p % 8 = 5 ∧ (demo .p221).FieldAt 14 ∧
      (demo .p221).FieldAt 12 ∧ (demo .p221).FieldAt 13 ∧ (demo .p221).valAt 14 = 1 ∧ (demo .p221).valAt 12 = 0 ∧
      (demo .p221).valAt 13 = (demo .p221).pInt - 1 ∧ ((demo .p221).modulus.p - 1) / 4 % 2 = 1 :=
  ⟨demo_inv _, demo_ready _, by decide +kernel, (demo_fieldAt _).2.2.2.2, (demo_fieldAt _).2.2.1, (demo_fieldAt _).2.2.2.1,
    by decide +kernel, by decide +kernel, by decide +kernel, by decide +kernel⟩

theorem witness_EqResult : (demo .p255).Inv ∧ (demo .p255).Ready ∧ (demo .p255).FieldAt 9 ∧ (demo .p255).FieldAt 12 ∧
    (demo .p255).valAt 9 = (demo .p255).valAt 12 ∧ (demo .p255).reg 9 ≠ (demo .p255).reg 12 :=
  ⟨demo_inv _, demo_ready _, (demo_fieldAt _).2.1, (demo_fieldAt _).2.2.1, by decide +kernel, by decide +kernel⟩

theorem witness_BitResult :
    ((demo .p221).setArg 220).Inv ∧ ((demo .p221).setArg 220).Ready ∧ ((demo .p221).setArg 220).FieldAt 9 ∧
      ((demo .p221).setArg 220).arg.toNat < ((demo .p221).setArg 220).modulus.n ∧
      ((demo .p221).setArg 221).modulus.n ≤ ((demo .p221).setArg 221).arg.toNat :=
  ⟨{ demo_inv .p221 with }, demo_ready .p221, (demo_fieldAt .p221).2.1, by decide, by decide⟩

theorem witness_FillResult : (demo .p221).Ready := demo_ready _

theorem witness_MaskedSelectionResults :
    (demo .p221).Inv ∧ (demo .p221).Ready ∧ (demo .p221).FieldAt 8 ∧ (demo .p221).FieldAt 9 ∧ (demo .p221).MaskAt 10 true ∧
      (demo .p221).MaskAt 11 false :=
  ⟨demo_inv _, demo_ready _, (demo_fieldAt _).1, (demo_fieldAt _).2.1, by simp only [State.MaskAt]; decide +kernel,
    by simp only [State.MaskAt]; decide +kernel⟩

theorem witness_OrmResult : (demo .p221).Inv ∧ (demo .p221).Ready ∧ (demo .p221).FieldAt 8 ∧ (demo .p221).FieldAt 13 :=
  ⟨demo_inv _, demo_ready _, (demo_fieldAt _).1, (demo_fieldAt _).2.2.2.1⟩

theorem witness_SetaSetdResults : (demo .p221).Ready ∧ (demo .p221).FieldAt 9 := ⟨demo_ready _, (demo_fieldAt _).2.1⟩

theorem witness_PzeroPinitResults : (demo .p221).Ready ∧ (demo .p221).Inv ∧ (demo .p221).FieldAt 8 ∧ (demo .p221).FieldAt 9 :=
  ⟨demo_ready _, demo_inv _, (demo_fieldAt _).1, (demo_fieldAt _).2.1⟩

theorem witness_PointArithmeticResults :
    (demo .p255).Inv ∧ (demo .p255).Ready ∧ (demo .p255).CurveSet ∧ (demo .p255).PointAt 0 ∧ (demo .p255).PointAt 1 :=
  ⟨demo_inv _, demo_ready _, demo_curve_and_points⟩

theorem witness_PmulResult :
    (demo .p255).Inv ∧ (demo .p255).Ready ∧ (demo .p255).CurveSet ∧ (demo .p255).PointAt 1 ∧ (demo .p255).FieldAt 9 :=
  ⟨demo_inv _, demo_ready _, demo_curve_and_points.1, demo_curve_and_points.2.2, (demo_fieldAt _).2.1⟩

/-- The command runs from `demo`: it is accepted, and its completion is the state after. -/
theorem witness_WrittenPointsSatisfyTheExtensionInvariant :
    (demo .p255).Inv ∧ (demo .p255).Ready ∧ (∃ u, Runs (.pzero 2) (demo .p255) u) ∧ (∃ u, Runs (.pinit 2 8 9) (demo .p255) u) ∧
      (∃ u, Runs (.padd 2 0 1) (demo .p255) u) ∧ (∃ u, Runs (.pdbl 2 1) (demo .p255) u) ∧
      (∃ u, Runs (.ptpl 2 1) (demo .p255) u) ∧ ∃ u, Runs (.pmul 2 1 8) (demo .p255) u := by
  have ha : operandError [.point 0, .point 1, .curve] (demo .p255) = none := by decide +kernel
  have hd : operandError [.point 1, .curve] (demo .p255) = none := by decide +kernel
  have hm : operandError [.point 1, .field 8, .curve] (demo .p255) = none := by decide +kernel
  have hi : operandError [.field 8, .field 9] (demo .p255) = none := by decide +kernel
  have run {i : Instr} {r : Results} (h : exec i (demo .p255) = issue i none r (demo .p255)) : ∃ u, Runs i (demo .p255) u :=
    ⟨_, _, h.trans (issue_accepted (demo_ready .p255) r), ⟨_, rfl⟩, rfl⟩
  exact ⟨demo_inv _, demo_ready .p255, run (i := .pzero 2) rfl, run (by rw [← hi]; rfl), run (by rw [← ha]; rfl), run (by rw [← hd]; rfl),
    run (by rw [← hd]; rfl), run (by rw [← hm]; rfl)⟩

/-- The identity point satisfies the curve equation for every a and d: a·0 + 1 = 1 + d·0. -/
theorem witness_DoublingIsMinusTheUnifiedSum :
    (demo .p255).Inv ∧ (demo .p255).Ready ∧ (demo .p255).CurveSet ∧ (demo .p255).PointAt 0 ∧
      (demo .p255).curveA * ((demo .p255).ringPoint 0).X ^ 2 + ((demo .p255).ringPoint 0).Y ^ 2 =
        ((demo .p255).ringPoint 0).Z ^ 2 + (demo .p255).curveD * ((demo .p255).ringPoint 0).T ^ 2 := by
  refine ⟨demo_inv _, demo_ready _, demo_curve_and_points.1, demo_curve_and_points.2.1, ?_⟩
  have hx : vInt .p255 ((demo .p255).ints (coordSlot 0 0)) = 0 := by decide +kernel
  have hy : vInt .p255 ((demo .p255).ints (coordSlot 0 1)) = 1 := by decide +kernel
  have hz : vInt .p255 ((demo .p255).ints (coordSlot 0 2)) = 1 := by decide +kernel
  have ht : vInt .p255 ((demo .p255).ints (coordSlot 0 3)) = 0 := by decide +kernel
  have hm : (demo .p255).modulus = .p255 := rfl
  simp [State.ringPoint, State.modAt, hm, hx, hy, hz, ht]

/-! Whole machine. -/

/-- Two states whose F9 holds p − 1 as different limb vectors. -/
theorem witness_HostsSeeValuesNotLimbs :
    let s := start .p221 [(9, fullReg 0x0FFFFFFF (-1))]
    let t := start .p221 [(9, fullReg 0x0FFFFFFC 0x1FFFFFF)]
    s.Inv ∧ t.Inv ∧ SameValues s t ∧ s ≠ t := by
  refine ⟨⟨by decide +kernel, by decide +kernel, by decide +kernel, by decide +kernel, by decide +kernel, by decide +kernel⟩,
    ⟨by decide +kernel, by decide +kernel, by decide +kernel, by decide +kernel, by decide +kernel, by decide +kernel⟩,
    ⟨rfl, ?_, ?_, ?_, rfl, rfl, rfl, rfl, rfl, rfl, rfl, ?_, rfl, rfl⟩, by decide +kernel⟩
  · simp only [SameValueReg]; decide +kernel
  · simp only [SameValueCurve]; decide +kernel
  · simp only [SameValueCurve]; decide +kernel
  · exact .none

/-- Two states whose F8 holds different values, a turn each that writes different values to DATA0 to come. -/
theorem witness_StatusAndIrqDependOnPublicData :
    let s := (start .p221 [(8, elem .p221 5)]).setAgenda [.write 0x040 4 1, cmd 0x14800000]
    let t := (start .p221 [(8, elem .p221 6)]).setAgenda [.write 0x040 4 2, cmd 0x14800000]
    SamePublic s t ∧ s ≠ t := by
  refine ⟨⟨rfl, ?_, rfl, rfl, ?_, rfl, rfl, rfl, rfl, ?_, ?_⟩, by decide +kernel⟩
  · simp only [SamePublicReg]; decide +kernel
  · decide +kernel
  · exact .none
  · exact .cons (.inr (.inr ⟨0, 1, 2, by decide, rfl, rfl⟩)) (.cons (.inl rfl) .nil)

end Sys2Proof.Tests
end

section
/-! PROOFS. The facts of the configurations: the table's bounds, where SQRT exists, and its correction constant (R5, R6, R128). -/

namespace Sys2Proof.Machine

/-- p + c = 2^n, as natural numbers (R5). -/
theorem p_add_c (m : ModulusId) : m.p + m.c = 2 ^ m.n := Nat.sub_add_cancel (c_lt m).le

/-- SQRT exists exactly in P221 and P255 (R5, R129). -/
theorem hasSqrt_iff (m : ModulusId) : m.hasSqrt = true ↔ m = .p221 ∨ m = .p255 := by cases m <;> decide +kernel

/-! ### The correction constant of SQRT (R128)

(p − 1)/4 is 2^219 − 1 in P221 and 2^253 − 5 in P255, a few units short of a power of two. So 2^((p − 1)/4) comes from squaring
2 modulo p again and again, and cancelling the few factors 2 that are too many. -/

/-- 2^(2^k) mod p, by k squarings. -/
def squareTwo (p : Nat) : Nat → Nat
  | 0 => 2 % p
  | k + 1 => squareTwo p k ^ 2 % p

theorem squareTwo_eq (p k : Nat) : squareTwo p k = 2 ^ 2 ^ k % p := by
  induction k with
  | zero => rfl
  | succ k ih => rw [squareTwo, ih, ← Nat.pow_mod, ← pow_mul, ← pow_succ]

/-- A power of 2 whose exponent is j short of 2^k is, modulo an odd p, the x below p that j doublings take to 2^(2^k). -/
theorem two_pow_mod_eq {p e j k x : Nat} (hp : Nat.Coprime p 2) (hx : x < p) (he : e + j = 2 ^ k)
    (h : x * 2 ^ j % p = squareTwo p k) : 2 ^ e % p = x := by
  have key : 2 ^ e * 2 ^ j ≡ x * 2 ^ j [MOD p] := by
    rw [Nat.ModEq, h, squareTwo_eq, ← pow_add, he]
  exact Nat.mod_eq_of_modEq (key.cancel_right_of_coprime (hp.pow_right j)) hx

/-- I = 2^((p − 1)/4) mod p wherever SQRT exists (R128). -/
theorem sqrtConstant_eq (m : ModulusId) (h : m.hasSqrt = true) : sqrtConstant m = 2 ^ ((m.p - 1) / 4) % m.p := by
  obtain rfl | rfl := (hasSqrt_iff m).1 h
  case inl =>
    exact (two_pow_mod_eq (j := 1) (k := 219) (by decide +kernel) (by decide +kernel) (by decide +kernel)
      (by decide +kernel)).symm
  case inr =>
    exact (two_pow_mod_eq (j := 5) (k := 253) (by decide +kernel) (by decide +kernel) (by decide +kernel)
      (by decide +kernel)).symm

/-- I is a square root of −1 modulo p wherever SQRT exists (R128). -/
theorem sqrtConstant_sq_add_one (m : ModulusId) (h : m.hasSqrt = true) : (sqrtConstant m ^ 2 + 1) % m.p = 0 := by
  obtain rfl | rfl := (hasSqrt_iff m).1 h <;> decide +kernel

/-- Settles O7: the bounds of R6 are those already proved of every configuration; the constant is checked by repeated squaring. -/
theorem configurationFacts : Obligations.ConfigurationFacts := by
  intro m
  obtain ⟨hlower, hlimbs, htopMin, htopMax, hwidth, hcpos, hcsmall, hlarge⟩ := configuration_bounds m
  exact ⟨hlower, hlimbs, htopMin, htopMax, hwidth, hcpos, hcsmall, hlarge, p_add_c m, hasSqrt_iff m,
    fun h => ⟨sqrtConstant_eq m h, sqrtConstant_sq_add_one m h⟩⟩

end Sys2Proof.Machine
end

section
/-! PROOFS. The lazy form: how far a settled vector's top limb can be from its value bits, that every field primitive answers a
lazy-form vector (R98, R112, R118), and that normalize is exact (R90). -/

namespace Sys2Proof.Machine

/-! ### The top limb and the part of V below it -/

/-- The weight of the top limb in V. -/
def topWeight (m : ModulusId) : Int := pow2 (m.limbWidth * (m.limbCount - 1))

/-- V without the top limb. -/
def lowPart (m : ModulusId) (w : List Int) : Int := vInt m w - topLimb w * topWeight m

/-- Every limb below the top one is in [0, 2^B). -/
def LowerInRange (m : ModulusId) (w : List Int) : Prop := ∀ x ∈ w.dropLast, 0 ≤ x ∧ x < pow2 m.limbWidth

theorem topWeight_pos (m : ModulusId) : 0 < topWeight m := pow2_pos _

/-- The top weight dwarfs c times any stash of a 64-bit word. -/
theorem topWeight_ge (m : ModulusId) : 2 ^ 72 ≤ topWeight m := by cases m <;> decide +kernel

theorem pow2_n_eq_topWeight (m : ModulusId) : pow2 m.n = topWeight m * pow2 m.topWidth := pow2_n m

/-- 2^17 ≤ 2^T ≤ 2^29 (R6). -/
theorem pow2_topWidth_bounds (m : ModulusId) : 2 ^ 17 ≤ pow2 m.topWidth ∧ pow2 m.topWidth ≤ 2 ^ 29 := by
  cases m <;> decide

/-- 1 ≤ c < 2^7 (R6), as integers. -/
theorem c_bounds (m : ModulusId) : (1 : Int) ≤ m.c ∧ (m.c : Int) < 2 ^ 7 := by cases m <;> decide

theorem ne_nil_of_length {m : ModulusId} {w : List Int} (h : w.length = m.limbCount) : w ≠ [] := by
  rintro rfl
  have := limbCount_ge m
  simp only [List.length_nil] at h
  omega

/-- The top limb of a vector with its lower limbs in range is V shifted right. -/
theorem topLimb_eq_asr {m : ModulusId} {w : List Int} (hl : w.length = m.limbCount) (h : LowerInRange m w) :
    topLimb w = asr (vInt m w) (m.limbWidth * (m.limbCount - 1)) := by
  rw [← topLimb_split, split_vInt m hl h]

theorem lowPart_bounds {m : ModulusId} {w : List Int} (hl : w.length = m.limbCount) (h : LowerInRange m w) :
    0 ≤ lowPart m w ∧ lowPart m w < topWeight m := by
  have hsum := lowBits_add_asr (vInt m w) (m.limbWidth * (m.limbCount - 1))
  have hlow : lowPart m w = lowBits (vInt m w) (m.limbWidth * (m.limbCount - 1)) := by
    rw [lowPart, topLimb_eq_asr hl h, topWeight]
    linear_combination -hsum
  rw [hlow]
  exact ⟨lowBits_nonneg _ _, lowBits_lt _ _⟩

theorem lowPart_split_bounds (m : ModulusId) (R : Int) : 0 ≤ lowPart m (split m R) ∧ lowPart m (split m R) < topWeight m :=
  lowPart_bounds (length_split m R) (splitAt_lower _ _ _)

/-- A shift of a number inside ±b stays inside ±b. -/
theorem asr_bounds {x b : Int} (h : -b ≤ x ∧ x ≤ b) (k : Nat) : -b ≤ asr x k ∧ asr x k ≤ b := by
  obtain ⟨hlo, hhi⟩ := (asr_eq_iff x (asr x k) k).1 rfl
  have hk : 1 ≤ pow2 k := pow2_pos k
  constructor
  · by_contra hc
    nlinarith
  · by_contra hc
    nlinarith

/-- c times the stash of a top limb inside ±2^64 is below the top weight. -/
theorem c_mul_stash_bounds {m : ModulusId} {s : List Int} (h : -2 ^ 64 ≤ topLimb s ∧ topLimb s ≤ 2 ^ 64) :
    -2 ^ 71 ≤ m.c * stash m s ∧ m.c * stash m s ≤ 2 ^ 71 := by
  obtain ⟨hlo, hhi⟩ := asr_bounds h m.topWidth
  obtain ⟨hc1, hc2⟩ := c_bounds m
  simp only [stash]
  constructor <;> nlinarith

/-- What settle splits: the lower limbs, the value bits of the top limb, and the stash times c (R86). -/
theorem fold_eq (m : ModulusId) (s : List Int) :
    fold m s = lowPart m s + lowBits (topLimb s) m.topWidth * topWeight m + m.c * stash m s := by
  have hsum := lowBits_add_asr (topLimb s) m.topWidth
  rw [fold, lowPart, p_eq, pow2_n_eq_topWeight, stash]
  linear_combination -topWeight m * hsum

/-- The top limb after settle, from bounds on the part of V below the top limb (R107, R108). -/
theorem topLimb_settle_bounds {m : ModulusId} {s : List Int} {a b : Int} (hl : s.length = m.limbCount)
    (ha : a * topWeight m ≤ lowPart m s) (hb : lowPart m s < b * topWeight m)
    (ht : -2 ^ 64 ≤ topLimb s ∧ topLimb s ≤ 2 ^ 64) :
    a - 1 ≤ topLimb (settle m s) ∧ topLimb (settle m s) < b + pow2 m.topWidth + 1 := by
  obtain ⟨hc1, hc2⟩ := c_mul_stash_bounds (m := m) ht
  have hw := topWeight_ge m
  have hpos := topWeight_pos m
  have h0 : 0 ≤ lowBits (topLimb s) m.topWidth * topWeight m := mul_nonneg (lowBits_nonneg _ _) hpos.le
  have h1 : lowBits (topLimb s) m.topWidth * topWeight m ≤ pow2 m.topWidth * topWeight m :=
    mul_le_mul_of_nonneg_right (lowBits_lt _ _).le hpos.le
  have hfold := fold_eq m s
  obtain ⟨hlo, hhi⟩ := (asr_eq_iff (fold m s) _ _).1 (topLimb_split m (fold m s)).symm
  rw [settle_eq_split m hl]
  change _ * topWeight m ≤ _ at hlo
  change _ < _ * topWeight m at hhi
  constructor
  · by_contra hc
    nlinarith
  · by_contra hc
    nlinarith

theorem lowerInRange_settle {m : ModulusId} {s : List Int} (hl : s.length = m.limbCount) : LowerInRange m (settle m s) := by
  rw [settle_eq_split m hl]; exact splitAt_lower _ _ _

/-- settle answers a lazy-form vector from any vector a field primitive forms. -/
theorem lazyForm_settle {m : ModulusId} {s : List Int} (hl : s.length = m.limbCount)
    (ha : -2 ^ 31 * topWeight m ≤ lowPart m s) (hb : lowPart m s < 2 ^ 31 * topWeight m)
    (ht : -2 ^ 64 ≤ topLimb s ∧ topLimb s ≤ 2 ^ 64) : lazyForm m (settle m s) = true := by
  obtain ⟨hlo, hhi⟩ := topLimb_settle_bounds hl ha hb ht
  have hT := pow2_topWidth_bounds m
  rw [lazyForm_iff, pow2_eq 32]
  exact ⟨length_settle m hl, lowerInRange_settle hl, by omega, by omega⟩

/-! ### The vectors the field primitives settle -/

theorem topLimb_zipWith (f : Int → Int → Int) {x y : List Int} (h : x.length = y.length) (hx : x ≠ []) :
    topLimb (List.zipWith f x y) = f (topLimb x) (topLimb y) := by
  induction x generalizing y with
  | nil => exact absurd rfl hx
  | cons a x ih =>
    match x, y, h with
    | [], [b], _ => rfl
    | a' :: x, b :: b' :: y, h =>
      simpa only [List.zipWith_cons_cons, topLimb_cons_cons] using ih (y := b' :: y) (by simpa using h) (by simp)

theorem topLimb_map (f : Int → Int) {x : List Int} (hx : x ≠ []) : topLimb (x.map f) = f (topLimb x) := by
  simp [topLimb, List.getLastD_eq_getLast?, List.getLast?_map, List.getLast?_eq_some_getLast hx]

/-- The facts about a lazy-form vector that bound what is computed from it. -/
theorem lazyForm_bounds {m : ModulusId} {w : List Int} (h : lazyForm m w = true) :
    w.length = m.limbCount ∧ (0 ≤ lowPart m w ∧ lowPart m w < topWeight m) ∧ -2 ^ 32 < topLimb w ∧ topLimb w < 2 ^ 32 := by
  rw [lazyForm_iff, pow2_eq 32] at h
  obtain ⟨hl, hlow, htop⟩ := h
  exact ⟨hl, lowPart_bounds hl hlow, htop⟩

theorem length_of_lazyForm {m : ModulusId} {w : List Int} (h : lazyForm m w = true) : w.length = m.limbCount :=
  (lazyForm_bounds h).1

theorem lowPart_zipWith_add {m : ModulusId} {x y : List Int} (hx : x.length = m.limbCount) (hy : y.length = m.limbCount) :
    lowPart m (List.zipWith (fun a b => a + b) x y) = lowPart m x + lowPart m y := by
  rw [lowPart, topLimb_zipWith _ (hx.trans hy.symm) (ne_nil_of_length hx), vInt, valueAt_zipWith_add _ (hx.trans hy.symm)]
  simp only [lowPart, vInt]; ring

theorem lowPart_zipWith_sub {m : ModulusId} {x y : List Int} (hx : x.length = m.limbCount) (hy : y.length = m.limbCount) :
    lowPart m (List.zipWith (fun a b => a - b) x y) = lowPart m x - lowPart m y := by
  rw [lowPart, topLimb_zipWith _ (hx.trans hy.symm) (ne_nil_of_length hx), vInt, valueAt_zipWith_sub _ (hx.trans hy.symm)]
  simp only [lowPart, vInt]; ring

theorem lowPart_map_mul {m : ModulusId} {x : List Int} (k : Int) (hx : x.length = m.limbCount) :
    lowPart m (x.map (fun a => a * k)) = lowPart m x * k := by
  rw [lowPart, topLimb_map _ (ne_nil_of_length hx), vInt, valueAt_map_mul]
  simp only [lowPart, vInt]; ring

theorem lowPart_addLow {m : ModulusId} {x : List Int} (k : Int) (hx : x.length = m.limbCount) :
    lowPart m (addLow k x) = lowPart m x + k := by
  have := limbCount_ge m
  rw [lowPart, topLimb_addLow _ (by omega), vInt, valueAt_addLow _ _ (ne_nil_of_length hx)]
  simp only [lowPart, vInt]; ring

/-! ### Every field primitive answers a lazy-form vector -/

theorem lazyForm_fieldAdd {m : ModulusId} {x y : List Int} (hx : lazyForm m x = true) (hy : lazyForm m y = true) :
    lazyForm m (fieldAdd m x y) = true := by
  obtain ⟨hlx, hbx, htx⟩ := lazyForm_bounds hx
  obtain ⟨hly, hby, hty⟩ := lazyForm_bounds hy
  refine lazyForm_settle (by simp [hlx, hly]) ?_ ?_ ?_
  · rw [lowPart_zipWith_add hlx hly]; omega
  · rw [lowPart_zipWith_add hlx hly]; omega
  · rw [topLimb_zipWith _ (hlx.trans hly.symm) (ne_nil_of_length hlx)]; omega

theorem lazyForm_fieldSub {m : ModulusId} {x y : List Int} (hx : lazyForm m x = true) (hy : lazyForm m y = true) :
    lazyForm m (fieldSub m x y) = true := by
  obtain ⟨hlx, hbx, htx⟩ := lazyForm_bounds hx
  obtain ⟨hly, hby, hty⟩ := lazyForm_bounds hy
  refine lazyForm_settle (by simp [hlx, hly]) ?_ ?_ ?_
  · rw [lowPart_zipWith_sub hlx hly]; omega
  · rw [lowPart_zipWith_sub hlx hly]; omega
  · rw [topLimb_zipWith _ (hlx.trans hly.symm) (ne_nil_of_length hlx)]; omega

/-- Adding any 33-bit signed number to limb 0 and settling (SADD, SSUB). -/
theorem lazyForm_settle_addLow {m : ModulusId} {x : List Int} {k : Int} (hx : lazyForm m x = true)
    (hk : -2 ^ 32 ≤ k ∧ k ≤ 2 ^ 32) : lazyForm m (settle m (addLow k x)) = true := by
  obtain ⟨hl, hb, ht⟩ := lazyForm_bounds hx
  have hw := topWeight_ge m
  have hN := limbCount_ge m
  refine lazyForm_settle (by rw [length_addLow, hl]) ?_ ?_ ?_
  · rw [lowPart_addLow k hl]; omega
  · rw [lowPart_addLow k hl]; omega
  · rw [topLimb_addLow k (by omega)]; omega

/-- Multiplying every limb by a signed 32-bit number and settling (SMUL). -/
theorem lazyForm_settle_map_mul {m : ModulusId} {x : List Int} {k : Int} (hx : lazyForm m x = true)
    (hk : -2 ^ 31 ≤ k ∧ k < 2 ^ 31) : lazyForm m (settle m (x.map (fun a => a * k))) = true := by
  obtain ⟨hl, hb, ht⟩ := lazyForm_bounds hx
  refine lazyForm_settle (by simp [hl]) ?_ ?_ ?_
  · rw [lowPart_map_mul k hl]; nlinarith
  · rw [lowPart_map_mul k hl]; nlinarith
  · rw [topLimb_map _ (ne_nil_of_length hl)]; constructor <;> nlinarith

/-- |V| of a lazy-form vector is at most 2^32 top weights. -/
theorem abs_vInt_le_of_lazyForm {m : ModulusId} {w : List Int} (h : lazyForm m w = true) : |vInt m w| ≤ 2 ^ 32 * topWeight m := by
  obtain ⟨-, hb, ht⟩ := lazyForm_bounds h
  have hv : vInt m w = lowPart m w + topLimb w * topWeight m := by rw [lowPart]; ring
  have hpos := topWeight_pos m
  rw [hv, abs_le]
  constructor <;> nlinarith

/-- The number reduce splits is at most 2^55 top weights, for a product of two lazy-form values. -/
theorem reduced_bounds {m : ModulusId} {P : Int} (h : |P| ≤ 2 ^ 64 * topWeight m * topWeight m) :
    |lowBits P m.n + m.c * asr P m.n| ≤ 2 ^ 55 * topWeight m := by
  obtain ⟨hP0, hP1⟩ := abs_le.1 h
  have hpos := topWeight_pos m
  obtain ⟨hT1, hT2⟩ := pow2_topWidth_bounds m
  obtain ⟨hc1, hc2⟩ := c_bounds m
  have hn := pow2_n_eq_topWeight m
  have hlow0 := lowBits_nonneg P m.n
  have hlow1 : lowBits P m.n < 2 ^ 29 * topWeight m := by
    have := lowBits_lt P m.n
    rw [hn] at this
    nlinarith
  obtain ⟨hlo, hhi⟩ := (asr_eq_iff P (asr P m.n) m.n).1 rfl
  rw [hn] at hlo hhi
  have h17 : 2 ^ 17 * topWeight m ≤ topWeight m * pow2 m.topWidth := by nlinarith
  have hq1 : asr P m.n ≤ 2 ^ 47 * topWeight m := by
    by_contra hc
    nlinarith [mul_le_mul_of_nonneg_left h17 (show 0 ≤ asr P m.n by nlinarith)]
  have hq2 : -(2 ^ 47 * topWeight m) - 1 ≤ asr P m.n := by
    by_contra hc
    nlinarith [mul_le_mul_of_nonneg_left h17 (show 0 ≤ -(asr P m.n + 1) by nlinarith)]
  rw [abs_le]
  constructor <;> nlinarith

theorem lazyForm_reduce {m : ModulusId} {P : Int} (h : |P| ≤ 2 ^ 64 * topWeight m * topWeight m) :
    lazyForm m (reduce m P) = true := by
  have hpos := topWeight_pos m
  obtain ⟨hlo, hhi⟩ := abs_le.1 (reduced_bounds h)
  obtain ⟨hl0, hl1⟩ := lowPart_split_bounds m (lowBits P m.n + m.c * asr P m.n)
  obtain ⟨ht0, ht1⟩ := (asr_eq_iff _ _ _).1 (topLimb_split m (lowBits P m.n + m.c * asr P m.n)).symm
  change _ * topWeight m ≤ _ at ht0
  change _ < _ * topWeight m at ht1
  refine lazyForm_settle (length_split m _) (by omega) (by omega) ⟨?_, ?_⟩
  · by_contra hc; nlinarith
  · by_contra hc; nlinarith

theorem lazyForm_fieldMul {m : ModulusId} {x y : List Int} (hx : lazyForm m x = true) (hy : lazyForm m y = true) :
    lazyForm m (fieldMul m x y) = true := by
  have hpos := topWeight_pos m
  refine lazyForm_reduce ?_
  calc |vInt m x * vInt m y| = |vInt m x| * |vInt m y| := abs_mul _ _
    _ ≤ (2 ^ 32 * topWeight m) * (2 ^ 32 * topWeight m) :=
        mul_le_mul (abs_vInt_le_of_lazyForm hx) (abs_vInt_le_of_lazyForm hy) (abs_nonneg _) (by positivity)
    _ = 2 ^ 64 * topWeight m * topWeight m := by ring

/-- The vector of a number from 0 up to 2^32 top weights is in lazy form. -/
theorem lazyForm_split_of_lt {m : ModulusId} {R : Int} (h0 : 0 ≤ R) (h1 : R < 2 ^ 32 * topWeight m) :
    lazyForm m (split m R) = true := by
  have hnonneg : 0 ≤ asr R (m.limbWidth * (m.limbCount - 1)) := Int.ediv_nonneg h0 (pow2_pos _).le
  refine lazyForm_split m R ?_ ?_
  · rw [pow2_eq]; omega
  · rw [pow2_eq]; exact Int.ediv_lt_of_lt_mul (topWeight_pos m) h1

theorem pow2_n_lt_topWeight (m : ModulusId) : pow2 m.n < 2 ^ 32 * topWeight m := by
  have hpos := topWeight_pos m
  have hT := pow2_topWidth_bounds m
  rw [pow2_n_eq_topWeight]; nlinarith

/-- The vector of any number in [0, 2^n) is in lazy form. -/
theorem lazyForm_split_of_lt_pow {m : ModulusId} {R : Int} (h0 : 0 ≤ R) (h1 : R < pow2 m.n) : lazyForm m (split m R) = true :=
  lazyForm_split_of_lt h0 (h1.trans (pow2_n_lt_topWeight m))

theorem lazyForm_expSteps {m : ModulusId} {x : List Int} (hx : lazyForm m x = true) (e j : Nat) {r : List Int}
    (hr : lazyForm m r = true) : lazyForm m (expSteps m x e j r) = true := by
  induction j generalizing r with
  | zero => exact hr
  | succ j ih =>
    have hsq := lazyForm_fieldMul hr hr
    simp only [expSteps]
    split
    · exact ih (lazyForm_fieldMul hsq hx)
    · exact ih hsq

/-! ### normalize is exact (R90) -/

theorem c_lt_p (m : ModulusId) : (m.c : Int) + 2 ^ 72 < m.p := by cases m <;> decide +kernel

theorem lazyForm_exp {m : ModulusId} {x : List Int} (hx : lazyForm m x = true) (e : Nat) : lazyForm m (exp m x e) = true := by
  have hp := p_eq m
  have hc := c_lt_p m
  exact lazyForm_expSteps hx e _ (lazyForm_split_of_lt_pow (by decide) (by omega))

/-- The stash of split(R) is R >> n. -/
theorem stash_split (m : ModulusId) (R : Int) : stash m (split m R) = asr R m.n := by
  rw [stash, topLimb_split, asr_asr, ← n_eq]

/-- One settle of a lazy-form vector leaves V less than 2^71 outside [0, 2^n). -/
theorem fold_bounds {m : ModulusId} {w : List Int} (h : lazyForm m w = true) :
    -2 ^ 71 ≤ fold m w ∧ fold m w < pow2 m.n + 2 ^ 71 := by
  obtain ⟨-, hb, ht⟩ := lazyForm_bounds h
  obtain ⟨hc1, hc2⟩ := c_mul_stash_bounds (m := m) (s := w) ⟨by omega, by omega⟩
  have hpos := topWeight_pos m
  have hl0 := lowBits_nonneg (topLimb w) m.topWidth
  have hl1 := lowBits_lt (topLimb w) m.topWidth
  rw [fold_eq, pow2_n_eq_topWeight]
  constructor <;> nlinarith

/-- Folding the stash of a number near [0, 2^n) brings it inside. -/
theorem fold_split_bounds {m : ModulusId} {R : Int} (h : -2 ^ 71 ≤ R ∧ R < pow2 m.n + 2 ^ 71) :
    0 ≤ fold m (split m R) ∧ fold m (split m R) < pow2 m.n := by
  have hp := p_eq m
  have hc := c_lt_p m
  have hc0 := (c_bounds m).1
  have hfold : fold m (split m R) = R - asr R m.n * (m.p : Int) := by rw [fold, vInt_split, stash_split]
  have hstash : asr R m.n = -1 ∧ R < 0 ∨ asr R m.n = 0 ∧ 0 ≤ R ∧ R < pow2 m.n ∨ asr R m.n = 1 ∧ pow2 m.n ≤ R := by
    rcases lt_trichotomy R 0 with hneg | rfl | hpos
    · exact .inl ⟨(asr_eq_iff _ _ _).2 ⟨by omega, by omega⟩, hneg⟩
    · exact .inr (.inl ⟨(asr_eq_iff _ _ _).2 ⟨by omega, by omega⟩, le_rfl, by omega⟩)
    · by_cases hlt : R < pow2 m.n
      · exact .inr (.inl ⟨(asr_eq_iff _ _ _).2 ⟨by omega, by omega⟩, hpos.le, hlt⟩)
      · exact .inr (.inr ⟨(asr_eq_iff _ _ _).2 ⟨by omega, by omega⟩, by omega⟩)
  rw [hfold]
  rcases hstash with ⟨hs, hR⟩ | ⟨hs, hR⟩ | ⟨hs, hR⟩ <;> rw [hs] <;> omega

/-- normalize(w) is split(val(w)) for every lazy-form w (R90): U is in [0, 2^n), and U + c reaches 2^n exactly when U ≥ p. -/
theorem normalize_eq_split {m : ModulusId} {w : List Int} (h : lazyForm m w = true) : normalize m w = split m (val m w) := by
  have hp := p_eq m
  have hc := c_lt_p m
  have hc0 := (c_bounds m).1
  have hl := length_of_lazyForm h
  have hN := limbCount_ge m
  have hu : settle m w = split m (fold m w) := settle_eq_split m hl
  have hlu : (settle m w).length = m.limbCount := length_settle m hl
  obtain ⟨hU0, hU1⟩ := fold_split_bounds (fold_bounds h)
  rw [← hu] at hU0 hU1
  have hmod : fold m (settle m w) % (m.p : Int) = val m w := by
    rw [fold, Int.sub_mul_emod_self_right]
    exact val_settle m hl
  have ht : settle m (addLow m.c (settle m w)) = split m (fold m (settle m w) + m.c) := by
    rw [settle_eq_split m (by rw [length_addLow, hlu])]
    congr 1
    rw [fold, vInt, valueAt_addLow _ _ (ne_nil_of_length hlu), stash, topLimb_addLow _ (by omega), fold, vInt, stash]
    ring
  simp only [normalize, ht, stash_split]
  congr 1
  by_cases hge : (m.p : Int) ≤ fold m (settle m w)
  · have hk : asr (fold m (settle m w) + m.c) m.n = 1 := (asr_eq_iff _ _ _).2 ⟨by omega, by omega⟩
    rw [hk, ← hmod, one_mul, ← Int.sub_emod_right, Int.emod_eq_of_lt (by omega) (by omega)]
  · have hk : asr (fold m (settle m w) + m.c) m.n = 0 := (asr_eq_iff _ _ _).2 ⟨by omega, by omega⟩
    rw [hk, ← hmod, zero_mul, sub_zero, Int.emod_eq_of_lt hU0 (by omega)]

theorem val_nonneg (m : ModulusId) (w : List Int) : 0 ≤ val m w :=
  Int.emod_nonneg _ (Int.natCast_ne_zero.2 (p_pos m).ne')

theorem val_lt (m : ModulusId) (w : List Int) : val m w < (m.p : Int) := Int.emod_lt_of_pos _ (Int.natCast_pos.2 (p_pos m))

theorem canonical_normalize {m : ModulusId} {w : List Int} (h : lazyForm m w = true) : canonical m (normalize m w) = true := by
  rw [normalize_eq_split h]; exact canonical_split m (val_nonneg m w) (val_lt m w)

theorem lazyForm_normalize {m : ModulusId} {w : List Int} (h : lazyForm m w = true) : lazyForm m (normalize m w) = true :=
  lazyForm_of_canonical m (canonical_normalize h)

theorem vInt_normalize {m : ModulusId} {w : List Int} (h : lazyForm m w = true) : vInt m (normalize m w) = val m w := by
  rw [normalize_eq_split h, vInt_split]

theorem val_normalize {m : ModulusId} {w : List Int} (h : lazyForm m w = true) : val m (normalize m w) = val m w := by
  rw [val, vInt_normalize h, val, Int.emod_emod_of_dvd _ dvd_rfl]

end Sys2Proof.Machine
end

section
/-! PROOFS. The word operations against a Mask and the OR of canonical vectors (R138 to R140): a Mask picks one vector or the other,
and an OR stays inside the value bits. -/

namespace Sys2Proof.Machine

/-! ### One Mask word -/

theorem and_maskWord {x : Int} (hx : -2 ^ 63 ≤ x ∧ x < 2 ^ 63) (b : Bool) :
    (BitVec.ofInt 64 x &&& maskWord b).toInt = if b then x else 0 := by
  cases b with
  | false => exact congrArg BitVec.toInt (BitVec.and_zero (x := BitVec.ofInt 64 x))
  | true => exact (congrArg BitVec.toInt BitVec.and_allOnes).trans (BitVec.toInt_ofInt_eq_self (by decide) hx.1 hx.2)

theorem blend_maskWord {x y : Int} (hx : -2 ^ 63 ≤ x ∧ x < 2 ^ 63) (hy : -2 ^ 63 ≤ y ∧ y < 2 ^ 63) (b : Bool) :
    ((BitVec.ofInt 64 x &&& maskWord b) ||| (BitVec.ofInt 64 y &&& ~~~maskWord b)).toInt = if b then x else y := by
  cases b with
  | false =>
    have hword : (BitVec.ofInt 64 x &&& maskWord false) ||| (BitVec.ofInt 64 y &&& ~~~maskWord false) = BitVec.ofInt 64 y := by
      simp only [maskWord, Bool.false_eq_true, if_false, BitVec.ofNat_eq_ofNat, BitVec.and_zero, BitVec.not_zero,
        BitVec.and_allOnes, BitVec.zero_or]
    rw [hword, BitVec.toInt_ofInt_eq_self (by decide) hy.1 hy.2]; rfl
  | true =>
    have hword : (BitVec.ofInt 64 x &&& maskWord true) ||| (BitVec.ofInt 64 y &&& ~~~maskWord true) = BitVec.ofInt 64 x := by
      simp only [maskWord, if_true, BitVec.not_allOnes, BitVec.and_zero, BitVec.and_allOnes, BitVec.or_zero]
    rw [hword, BitVec.toInt_ofInt_eq_self (by decide) hx.1 hx.2]; rfl

/-! ### Vectors against a Mask -/

/-- Every limb of a lazy-form vector is a signed 64-bit number. -/
theorem limb_range_of_lazyForm {m : ModulusId} {w : List Int} (h : lazyForm m w = true) :
    ∀ x ∈ w, -2 ^ 63 ≤ x ∧ x < 2 ^ 63 := by
  intro x hx
  have hw := toInts_toLimbs_of_lazyForm m h
  rw [← hw] at hx
  simp only [toInts, List.mem_map] at hx
  obtain ⟨b, -, rfl⟩ := hx
  exact ⟨BitVec.le_toInt b, BitVec.toInt_lt⟩

theorem andWords_replicate {u : List Int} (hu : ∀ x ∈ u, -2 ^ 63 ≤ x ∧ x < 2 ^ 63) (b : Bool) :
    andWords u (List.replicate u.length (maskWord b)) = if b then u else List.replicate u.length 0 := by
  induction u with
  | nil => cases b <;> rfl
  | cons x u ih =>
    obtain ⟨hx, hu⟩ := List.forall_mem_cons.1 hu
    have hhead := and_maskWord hx b
    have htail := ih hu
    simp only [andWords] at htail
    simp only [andWords, List.length_cons, List.replicate_succ, List.zipWith_cons_cons, hhead, htail]
    cases b <;> rfl

theorem blendWords_replicate {u v : List Int} (hu : ∀ x ∈ u, -2 ^ 63 ≤ x ∧ x < 2 ^ 63) (hv : ∀ x ∈ v, -2 ^ 63 ≤ x ∧ x < 2 ^ 63)
    (hl : u.length = v.length) (b : Bool) :
    blendWords u v (List.replicate u.length (maskWord b)) = if b then u else v := by
  induction u generalizing v with
  | nil => cases v with
    | nil => cases b <;> rfl
    | cons y v => simp at hl
  | cons x u ih => cases v with
    | nil => simp at hl
    | cons y v =>
      obtain ⟨hx, hu⟩ := List.forall_mem_cons.1 hu
      obtain ⟨hy, hv⟩ := List.forall_mem_cons.1 hv
      have hhead := blend_maskWord hx hy b
      have htail := ih hu hv (by simpa using hl)
      simp only [blendWords] at htail
      simp only [blendWords, List.length_cons, List.replicate_succ, List.zip_cons_cons, List.zipWith_cons_cons, hhead, htail]
      cases b <;> rfl

/-- The all-zero vector is the split of 0. -/
theorem replicate_zero_eq_split (m : ModulusId) : List.replicate m.limbCount (0 : Int) = split m 0 := by
  cases m <;> decide +kernel

/-- AND with a Mask keeps a lazy-form vector or clears it (R138). -/
theorem andWords_mask {m : ModulusId} {u : List Int} (hu : lazyForm m u = true) (b : Bool) :
    andWords u (List.replicate m.limbCount (maskWord b)) = if b then u else split m 0 := by
  rw [← replicate_zero_eq_split, ← length_of_lazyForm hu]
  exact andWords_replicate (limb_range_of_lazyForm hu) b

/-- The blend by a Mask is one vector or the other (R140). -/
theorem blendWords_mask {m : ModulusId} {u v : List Int} (hu : lazyForm m u = true) (hv : lazyForm m v = true) (b : Bool) :
    blendWords u v (List.replicate m.limbCount (maskWord b)) = if b then u else v := by
  rw [← length_of_lazyForm hu]
  exact blendWords_replicate (limb_range_of_lazyForm hu) (limb_range_of_lazyForm hv)
    ((length_of_lazyForm hu).trans (length_of_lazyForm hv).symm) b

/-- csel by a Mask is one normalized vector or the other (R140, R143). -/
theorem fieldCsel_mask {m : ModulusId} {x y : List Int} (hx : lazyForm m x = true) (hy : lazyForm m y = true) (b : Bool) :
    fieldCsel m x y (List.replicate m.limbCount (maskWord b)) = if b then normalize m x else normalize m y :=
  blendWords_mask (lazyForm_normalize hx) (lazyForm_normalize hy) b

/-! ### The OR of two canonical vectors -/

/-- The OR of two words that hold numbers in [0, 2^k) is the OR of the numbers, again in [0, 2^k). -/
theorem or_words_bounds {k : Nat} (hk : k ≤ 62) {x y : Int} (hx : 0 ≤ x ∧ x < pow2 k) (hy : 0 ≤ y ∧ y < pow2 k) :
    0 ≤ (BitVec.ofInt 64 x ||| BitVec.ofInt 64 y).toInt ∧ (BitVec.ofInt 64 x ||| BitVec.ofInt 64 y).toInt < pow2 k := by
  obtain ⟨a, rfl⟩ := Int.eq_ofNat_of_zero_le hx.1
  obtain ⟨b, rfl⟩ := Int.eq_ofNat_of_zero_le hy.1
  have hle : 2 ^ k ≤ 2 ^ 62 := Nat.pow_le_pow_right (by decide) hk
  have ha : a < 2 ^ k := Int.ofNat_lt.1 hx.2
  have hb : b < 2 ^ k := Int.ofNat_lt.1 hy.2
  have hor : a ||| b < 2 ^ k := Nat.or_lt_two_pow ha hb
  have hval : (BitVec.ofInt 64 a ||| BitVec.ofInt 64 b).toInt = ((a ||| b : Nat) : Int) := by
    rw [BitVec.ofInt_natCast, BitVec.ofInt_natCast, BitVec.toInt_or, BitVec.toNat_ofNat, BitVec.toNat_ofNat,
      Nat.mod_eq_of_lt (by omega), Nat.mod_eq_of_lt (by omega)]
    exact Int.bmod_eq_of_le (by omega) (by omega)
  rw [hval, pow2]
  exact ⟨Int.natCast_nonneg _, Int.ofNat_lt.2 hor⟩

/-- A limb-by-limb combination of two vectors has its lower limbs in any range that the combination of lower limbs stays in. -/
theorem lower_zipWith {f : Int → Int → Int} {P Q : Int → Prop} (hf : ∀ a b, P a → P b → Q (f a b)) {x y : List Int}
    (hl : x.length = y.length) (hx : ∀ a ∈ x.dropLast, P a) (hy : ∀ b ∈ y.dropLast, P b) :
    ∀ z ∈ (List.zipWith f x y).dropLast, Q z := by
  have hdrop : (List.zipWith f x y).dropLast = List.zipWith f x.dropLast y.dropLast := by
    simp only [List.dropLast_eq_take, List.take_zipWith, List.length_zipWith, hl, min_self]
  intro z hz
  rw [hdrop, ← List.map_uncurry_zip_eq_zipWith, List.mem_map] at hz
  obtain ⟨⟨a, b⟩, hab, rfl⟩ := hz
  exact hf a b (hx a (List.of_mem_zip hab).1) (hy b (List.of_mem_zip hab).2)

/-- The OR of two canonical vectors is in lazy form (R142). -/
theorem lazyForm_orWords {m : ModulusId} {u v : List Int} (hu : canonical m u = true) (hv : canonical m v = true) :
    lazyForm m (orWords u v) = true := by
  obtain ⟨hlu, hlowu, htu0, htu1, -⟩ := (canonical_iff m u).1 hu
  obtain ⟨hlv, hlowv, htv0, htv1, -⟩ := (canonical_iff m v).1 hv
  have hl := hlu.trans hlv.symm
  have hB : m.limbWidth ≤ 62 := by cases m <;> decide
  have hT : m.topWidth ≤ 62 := by cases m <;> decide
  have hT29 := pow2_topWidth_bounds m
  obtain ⟨h0, h1⟩ := or_words_bounds hT ⟨htu0, htu1⟩ ⟨htv0, htv1⟩
  have htop : topLimb (orWords u v) = (BitVec.ofInt 64 (topLimb u) ||| BitVec.ofInt 64 (topLimb v)).toInt :=
    topLimb_zipWith _ hl (ne_nil_of_length hlu)
  rw [lazyForm_iff, htop, pow2_eq 32]
  exact ⟨by simp [orWords, hlu, hlv], lower_zipWith (fun _ _ => or_words_bounds hB) hl hlowu hlowv, by omega, by omega⟩

end Sys2Proof.Machine
end

section
/-! PROOFS. Vectors, points and registers that hold the same values, limb for limb equal or not, and the operations that keep them
so. Taken of a vector with itself, each of these lemmas says that the operation keeps the lazy form (R98, R112, R118, R142, R160). -/

namespace Sys2Proof.Machine

/-! ### Vectors -/

/-- Two lazy-form vectors of one value. -/
structure AlikeVec (m : ModulusId) (x y : List Int) : Prop where
  lazyLeft : lazyForm m x = true
  lazyRight : lazyForm m y = true
  val_eq : val m x = val m y

namespace AlikeVec

variable {m : ModulusId} {x x' y y' : List Int}

theorem refl (h : lazyForm m x = true) : AlikeVec m x x := ⟨h, h, rfl⟩

theorem fieldAdd (hx : AlikeVec m x x') (hy : AlikeVec m y y') : AlikeVec m (fieldAdd m x y) (fieldAdd m x' y') where
  lazyLeft := lazyForm_fieldAdd hx.lazyLeft hy.lazyLeft
  lazyRight := lazyForm_fieldAdd hx.lazyRight hy.lazyRight
  val_eq := by
    rw [val_fieldAdd m (length_of_lazyForm hx.lazyLeft) (length_of_lazyForm hy.lazyLeft),
      val_fieldAdd m (length_of_lazyForm hx.lazyRight) (length_of_lazyForm hy.lazyRight), hx.val_eq, hy.val_eq]

theorem fieldSub (hx : AlikeVec m x x') (hy : AlikeVec m y y') : AlikeVec m (fieldSub m x y) (fieldSub m x' y') where
  lazyLeft := lazyForm_fieldSub hx.lazyLeft hy.lazyLeft
  lazyRight := lazyForm_fieldSub hx.lazyRight hy.lazyRight
  val_eq := by
    rw [val_fieldSub m (length_of_lazyForm hx.lazyLeft) (length_of_lazyForm hy.lazyLeft),
      val_fieldSub m (length_of_lazyForm hx.lazyRight) (length_of_lazyForm hy.lazyRight), hx.val_eq, hy.val_eq]

theorem fieldMul (hx : AlikeVec m x x') (hy : AlikeVec m y y') : AlikeVec m (fieldMul m x y) (fieldMul m x' y') where
  lazyLeft := lazyForm_fieldMul hx.lazyLeft hy.lazyLeft
  lazyRight := lazyForm_fieldMul hx.lazyRight hy.lazyRight
  val_eq := by rw [val_fieldMul, val_fieldMul, hx.val_eq, hy.val_eq]

theorem exp (hx : AlikeVec m x x') (e : Nat) : AlikeVec m (exp m x e) (exp m x' e) where
  lazyLeft := lazyForm_exp hx.lazyLeft e
  lazyRight := lazyForm_exp hx.lazyRight e
  val_eq := by rw [val_exp, val_exp, hx.val_eq]

theorem settle_addLow (hx : AlikeVec m x x') {k : Int} (hk : -2 ^ 32 ≤ k ∧ k ≤ 2 ^ 32) :
    AlikeVec m (settle m (addLow k x)) (settle m (addLow k x')) where
  lazyLeft := lazyForm_settle_addLow hx.lazyLeft hk
  lazyRight := lazyForm_settle_addLow hx.lazyRight hk
  val_eq := by
    have hl := length_of_lazyForm hx.lazyLeft
    have hl' := length_of_lazyForm hx.lazyRight
    rw [val_settle m (by rw [length_addLow, hl]), val_settle m (by rw [length_addLow, hl']), val, val, vInt, vInt,
      valueAt_addLow _ _ (ne_nil_of_length hl), valueAt_addLow _ _ (ne_nil_of_length hl')]
    exact Int.ModEq.add_right k hx.val_eq

theorem settle_map_mul (hx : AlikeVec m x x') {k : Int} (hk : -2 ^ 31 ≤ k ∧ k < 2 ^ 31) :
    AlikeVec m (settle m (x.map (fun a => a * k))) (settle m (x'.map (fun a => a * k))) where
  lazyLeft := lazyForm_settle_map_mul hx.lazyLeft hk
  lazyRight := lazyForm_settle_map_mul hx.lazyRight hk
  val_eq := by
    rw [val_settle m (by simp [length_of_lazyForm hx.lazyLeft]), val_settle m (by simp [length_of_lazyForm hx.lazyRight]),
      val, val, vInt, vInt, valueAt_map_mul, valueAt_map_mul]
    exact Int.ModEq.mul_right k hx.val_eq

/-- Vectors of one value normalize to one vector. -/
theorem normalize_eq (hx : AlikeVec m x x') : normalize m x = normalize m x' := by
  rw [normalize_eq_split hx.lazyLeft, normalize_eq_split hx.lazyRight, hx.val_eq]

theorem normalize (hx : AlikeVec m x x') : AlikeVec m (normalize m x) (normalize m x') := by
  rw [← hx.normalize_eq]
  exact refl (lazyForm_normalize hx.lazyLeft)

theorem fieldCsel (hx : AlikeVec m x x') (hy : AlikeVec m y y') (b : Bool) :
    AlikeVec m (fieldCsel m x y (List.replicate m.limbCount (maskWord b)))
      (fieldCsel m x' y' (List.replicate m.limbCount (maskWord b))) := by
  rw [fieldCsel_mask hx.lazyLeft hy.lazyLeft, fieldCsel_mask hx.lazyRight hy.lazyRight]
  cases b
  · exact hy.normalize
  · exact hx.normalize

/-- The constants 0 to 2^n − 1, p among them, in lazy form. -/
theorem split {R : Int} (h0 : 0 ≤ R) (h1 : R < pow2 m.n) : AlikeVec m (split m R) (split m R) :=
  refl (lazyForm_split_of_lt_pow h0 h1)

theorem split_zero : AlikeVec m (Machine.split m 0) (Machine.split m 0) := split le_rfl (pow2_pos _)

theorem split_one : AlikeVec m (Machine.split m 1) (Machine.split m 1) :=
  split (by decide) (by have := p_eq m; have := c_lt_p m; have := c_bounds m; omega)

/-- The MODULUS vector. -/
theorem split_p : AlikeVec m (Machine.split m m.p) (Machine.split m m.p) :=
  split (Int.natCast_nonneg _) (by have := p_eq m; have := c_bounds m; omega)

end AlikeVec

/-! ### Points -/

/-- Two points whose coordinates are alike. -/
structure AlikePoint (m : ModulusId) (P Q : Point) : Prop where
  X : AlikeVec m P.X Q.X
  Y : AlikeVec m P.Y Q.Y
  Z : AlikeVec m P.Z Q.Z
  T : AlikeVec m P.T Q.T

section

variable {m : ModulusId} {ca ca' cd cd' : List Int} {P P' Q Q' : Point}

theorem alikePoint_identity : AlikePoint m (identityPoint m) (identityPoint m) :=
  ⟨AlikeVec.split_zero, AlikeVec.split_one, AlikeVec.split_one, AlikeVec.split_zero⟩

theorem alikePoint_lift {x x' y y' : List Int} (hx : AlikeVec m x x') (hy : AlikeVec m y y') :
    AlikePoint m (liftPoint m x y) (liftPoint m x' y') :=
  ⟨hx, hy, AlikeVec.split_one, hx.fieldMul hy⟩

theorem alikePoint_product {E E' F F' G G' H H' : List Int} (hE : AlikeVec m E E') (hF : AlikeVec m F F')
    (hG : AlikeVec m G G') (hH : AlikeVec m H H') : AlikePoint m (productPoint m E F G H) (productPoint m E' F' G' H') :=
  ⟨hE.fieldMul hF, hG.fieldMul hH, hF.fieldMul hG, hE.fieldMul hH⟩

theorem alikePoint_add (ha : AlikeVec m ca ca') (hd : AlikeVec m cd cd') (hP : AlikePoint m P P') (hQ : AlikePoint m Q Q') :
    AlikePoint m (pointAdd m ca cd P Q) (pointAdd m ca' cd' P' Q') := by
  have hA := hP.X.fieldMul hQ.X
  have hB := hP.Y.fieldMul hQ.Y
  have hC := (hP.T.fieldMul hd).fieldMul hQ.T
  have hD := hP.Z.fieldMul hQ.Z
  exact alikePoint_product ((((hP.X.fieldAdd hP.Y).fieldMul (hQ.X.fieldAdd hQ.Y)).fieldSub hA).fieldSub hB)
    (hD.fieldSub hC) (hD.fieldAdd hC) (hB.fieldSub (ha.fieldMul hA))

theorem alikePoint_double (ha : AlikeVec m ca ca') (hP : AlikePoint m P P') :
    AlikePoint m (pointDouble m ca P) (pointDouble m ca' P') := by
  have hA := hP.X.fieldMul hP.X
  have hB := hP.Y.fieldMul hP.Y
  have hzz := hP.Z.fieldMul hP.Z
  have hD := ha.fieldMul hA
  have ht := hP.X.fieldAdd hP.Y
  have hG := hD.fieldAdd hB
  exact alikePoint_product (((ht.fieldMul ht).fieldSub hA).fieldSub hB) (hG.fieldSub (hzz.fieldAdd hzz)) hG (hD.fieldSub hB)

theorem alikePoint_csel (hP : AlikePoint m P P') (hQ : AlikePoint m Q Q') (b : Bool) :
    AlikePoint m (pointCsel m P Q (List.replicate m.limbCount (maskWord b)))
      (pointCsel m P' Q' (List.replicate m.limbCount (maskWord b))) :=
  ⟨hP.X.fieldCsel hQ.X b, hP.Y.fieldCsel hQ.Y b, hP.Z.fieldCsel hQ.Z b, hP.T.fieldCsel hQ.T b⟩

theorem alikePoint_ladderStep (ha : AlikeVec m ca ca') (hd : AlikeVec m cd cd') (b : Bool) {r r' : Point × Point}
    (h0 : AlikePoint m r.1 r'.1) (h1 : AlikePoint m r.2 r'.2) :
    AlikePoint m (ladderStep m ca cd (List.replicate m.limbCount (maskWord b)) r).1
        (ladderStep m ca' cd' (List.replicate m.limbCount (maskWord b)) r').1 ∧
      AlikePoint m (ladderStep m ca cd (List.replicate m.limbCount (maskWord b)) r).2
        (ladderStep m ca' cd' (List.replicate m.limbCount (maskWord b)) r').2 :=
  ⟨alikePoint_csel (alikePoint_add ha hd h0 h1) (alikePoint_double ha h0) b,
    alikePoint_csel (alikePoint_double ha h1) (alikePoint_add ha hd h0 h1) b⟩

theorem alikePoint_ladderSteps (ha : AlikeVec m ca ca') (hd : AlikeVec m cd cd') (K : Int) (i : Nat) {r r' : Point × Point}
    (h0 : AlikePoint m r.1 r'.1) (h1 : AlikePoint m r.2 r'.2) :
    AlikePoint m (ladderSteps m ca cd K i r).1 (ladderSteps m ca' cd' K i r').1 := by
  induction i generalizing r r' with
  | zero => exact h0
  | succ i ih =>
    obtain ⟨h0', h1'⟩ := alikePoint_ladderStep ha hd (bitOf K i == 1) h0 h1
    exact ih h0' h1'

theorem alikePoint_ladder (ha : AlikeVec m ca ca') (hd : AlikeVec m cd cd') (K : Int) (hP : AlikePoint m P P') :
    AlikePoint m (ladder m ca cd K P) (ladder m ca' cd' K P') :=
  alikePoint_ladderSteps ha hd K m.n alikePoint_identity hP

end

/-! ### Registers -/

/-- A valid field register that holds what it may, and another that agrees with it on validity, tag and value. -/
structure AlikeReg (m : ModulusId) (r r' : FieldReg) : Prop where
  ok : r.ok m = true
  valid : r.valid = true
  same : SameValueReg m r r'

/-- A valid curve-parameter register that holds what it may, and another that agrees with it on validity and value. -/
structure AlikeCurve (m : ModulusId) (r r' : CurveReg) : Prop where
  ok : r.ok m = true
  valid : r.valid = true
  same : SameValueCurve m r r'

theorem SameValueReg.refl (m : ModulusId) (r : FieldReg) : SameValueReg m r r := ⟨rfl, fun _ => ⟨rfl, fun _ => rfl, fun _ => rfl⟩⟩

theorem SameValueCurve.refl (m : ModulusId) (r : CurveReg) : SameValueCurve m r r := ⟨rfl, fun _ => rfl⟩

/-- A FIELD register may hold any lazy-form vector. -/
theorem fieldReg_ok {m : ModulusId} {w : List Int} (h : lazyForm m w = true) : (fieldReg w).ok m = true := by
  simp [FieldReg.ok, fieldReg, length_of_lazyForm h, toInts_toLimbs_of_lazyForm m h, h]

theorem maskReg_ok (m : ModulusId) (b : Bool) : (maskReg m b).ok m = true := by cases b <;> simp [FieldReg.ok, maskReg]

/-- A valid FIELD register that holds what it may is in lazy form. -/
theorem FieldReg.lazyForm_of_ok {m : ModulusId} {r : FieldReg} (h : r.ok m = true) (hv : r.valid = true) (ht : r.tag = .field) :
    lazyForm m (toInts r.limbs) = true := by
  simp only [FieldReg.ok, hv, ht, Bool.not_true, Bool.false_or, Bool.and_eq_true] at h
  exact h.2

/-- A valid MASK register that holds what it may is the Mask of some bit. -/
theorem FieldReg.mask_of_ok {m : ModulusId} {r : FieldReg} (h : r.ok m = true) (hv : r.valid = true) (ht : r.tag = .mask) :
    ∃ b, r.limbs = List.replicate m.limbCount (maskWord b) := by
  simp only [FieldReg.ok, hv, ht, Bool.not_true, Bool.false_or, Bool.and_eq_true, Bool.or_eq_true, beq_iff_eq] at h
  obtain ⟨-, hb | hb⟩ := h
  · exact ⟨true, hb⟩
  · exact ⟨false, hb⟩

/-- A valid curve-parameter register that holds what it may is in lazy form. -/
theorem CurveReg.lazyForm_of_ok {m : ModulusId} {r : CurveReg} (h : r.ok m = true) (hv : r.valid = true) :
    lazyForm m (toInts r.limbs) = true := by
  simp only [CurveReg.ok, hv, Bool.not_true, Bool.false_or, Bool.and_eq_true] at h
  exact h.2

theorem AlikeVec.fieldReg {m : ModulusId} {x x' : List Int} (h : AlikeVec m x x') : AlikeReg m (fieldReg x) (fieldReg x') where
  ok := fieldReg_ok h.lazyLeft
  valid := rfl
  same := ⟨rfl, fun _ => ⟨rfl, fun _ => by
    simp only [Machine.fieldReg, toInts_toLimbs_of_lazyForm m h.lazyLeft, toInts_toLimbs_of_lazyForm m h.lazyRight, h.val_eq],
    fun ht => nomatch ht⟩⟩

theorem alikeReg_maskReg (m : ModulusId) (b : Bool) : AlikeReg m (maskReg m b) (maskReg m b) :=
  ⟨maskReg_ok m b, rfl, SameValueReg.refl m _⟩

/-- CA or CD after SETA or SETD: the limbs of a FIELD register. -/
theorem AlikeVec.curveReg {m : ModulusId} {w w' : Limbs} (h : AlikeVec m (toInts w) (toInts w')) :
    AlikeCurve m (curveReg w) (curveReg w') where
  ok := by simp [CurveReg.ok, Machine.curveReg, h.lazyLeft, ← length_of_lazyForm h.lazyLeft]
  valid := rfl
  same := ⟨rfl, fun _ => h.val_eq⟩

/-! ### Pending results -/

/-- Two pending register writes to one register, of alike contents. -/
def AlikeWrite (m : ModulusId) (w w' : Slot × FieldReg) : Prop := w.1 = w'.1 ∧ AlikeReg m w.2 w'.2

/-- Two pending results that write the same places with alike contents. A part that is not written need not be named. -/
structure AlikeResults (m : ModulusId) (a b : Results) : Prop where
  writeBacks : List.Forall₂ (AlikeWrite m) a.writeBacks b.writeBacks := by exact .nil
  dests : List.Forall₂ (AlikeWrite m) a.dests b.dests := by exact .nil
  ca : Option.Rel (AlikeCurve m) a.ca b.ca := by exact .none
  cd : Option.Rel (AlikeCurve m) a.cd b.cd := by exact .none
  result : a.result = b.result := by rfl
  data : a.data = b.data := by rfl
  dataLength : ∀ bs, a.data = some bs → bs.length = dataSize := by exact fun _ h => nomatch h

/-- One register written with alike vectors. -/
theorem AlikeVec.write {m : ModulusId} {x x' : List Int} (h : AlikeVec m x x') (d : Slot) :
    List.Forall₂ (AlikeWrite m) (writeField d x) (writeField d x') := .cons ⟨rfl, h.fieldReg⟩ .nil

/-- A point register written with alike points. -/
theorem AlikePoint.write {m : ModulusId} {P P' : Point} (h : AlikePoint m P P') (d : Slot) :
    List.Forall₂ (AlikeWrite m) (writePoint d P) (writePoint d P') :=
  .cons ⟨rfl, h.X.fieldReg⟩ (.cons ⟨rfl, h.Y.fieldReg⟩ (.cons ⟨rfl, h.Z.fieldReg⟩ (.cons ⟨rfl, h.T.fieldReg⟩ .nil)))

/-- Each first member of alike writes is a write of a valid register that holds what it may. -/
theorem ok_of_alikeWrites {m : ModulusId} {l l' : List (Slot × FieldReg)} (h : List.Forall₂ (AlikeWrite m) l l') :
    l.all (fun w => w.2.ok m && w.2.valid) = true := by
  induction h with
  | nil => rfl
  | cons hw _ ih => simp only [List.all_cons, hw.2.ok, hw.2.valid, ih, Bool.and_self]

theorem ok_of_alikeCurve {m : ModulusId} {c c' : Option CurveReg} (h : Option.Rel (AlikeCurve m) c c') :
    c.all (fun c => c.ok m && c.valid) = true := by
  cases h with
  | none => rfl
  | some h => simp only [Option.all_some, h.ok, h.valid, Bool.and_self]

theorem AlikeResults.ok {m : ModulusId} {a b : Results} (h : AlikeResults m a b) : a.ok m = true := by
  have hdata : a.data.all (fun bs => bs.length == dataSize) = true := by
    cases hd : a.data with
    | none => rfl
    | some bs => simpa using h.dataLength bs hd
  simp only [Results.ok, List.all_append, ok_of_alikeWrites h.writeBacks, ok_of_alikeWrites h.dests, ok_of_alikeCurve h.ca,
    ok_of_alikeCurve h.cd, hdata, Bool.and_self]

theorem AlikeResults.sameValueResults {m : ModulusId} {a b : Results} (h : AlikeResults m a b) : SameValueResults m a b := by
  have hwrites {l l' : List (Slot × FieldReg)} (hl : List.Forall₂ (AlikeWrite m) l l') :
      List.Forall₂ (fun w w' => w.1 = w'.1 ∧ SameValueReg m w.2 w'.2) l l' := hl.imp fun _ _ hw => ⟨hw.1, hw.2.same⟩
  have hcurve {c c' : Option CurveReg} (hc : Option.Rel (AlikeCurve m) c c') : Option.Rel (SameValueCurve m) c c' := by
    cases hc with
    | none => exact .none
    | some hc => exact .some hc.same
  exact ⟨hwrites h.writeBacks, hwrites h.dests, hcurve h.ca, hcurve h.cd, h.result, h.data⟩

end Sys2Proof.Machine
end

section
/-! PROOFS. The operands of two states that hold the same values: the operand checks end alike, and what a checked slot names is
alike (60_exceptions.md R168, R169). -/

namespace Sys2Proof.Machine

/-! ### Checked sources -/

/-- Every register of the source is valid and has the tag its slot needs (R168, R169). -/
def Source.Usable (s : State) : Source → Prop
  | .any i => (s.reg i).valid = true
  | .field i => s.FieldAt i
  | .mask i => (s.reg i).valid = true ∧ (s.reg i).tag = .mask
  | .point k => s.PointAt k
  | .curve => s.CurveSet

theorem Source.usable_iff (s : State) (x : Source) : x.Usable s ↔ x.valid s = true ∧ x.typed s = true := by
  cases x with
  | any i => simp [Source.Usable, Source.valid, Source.typed]
  | field i => simp [Source.Usable, Source.valid, Source.typed, State.FieldAt]
  | mask i => simp [Source.Usable, Source.valid, Source.typed]
  | point k =>
    simp only [Source.Usable, Source.valid, Source.typed, State.PointAt, State.FieldAt, coordSlots, Fin.forall_fin_succ, Fin.isValue,
      Fin.succ_zero_eq_one, Fin.succ_one_eq_two, List.all_cons, List.all_nil, Bool.and_true, Bool.and_eq_true, beq_iff_eq,
      IsEmpty.forall_iff, and_true]
    tauto
  | curve => simp [Source.Usable, Source.valid, Source.typed, State.CurveSet]

/-- No operand check fails exactly when every source is usable. -/
theorem operandError_eq_none_iff {sources : List Source} {s : State} :
    operandError sources s = none ↔ ∀ x ∈ sources, x.Usable s := by
  simp only [operandError_eq_none, List.all_eq_true, Source.usable_iff, ← forall_and]

/-! ### Two states that hold the same values -/

theorem SameValues.refl (s : State) : SameValues s s where
  params := rfl
  regs i := SameValueReg.refl _ _
  ca := SameValueCurve.refl _ _
  cd := SameValueCurve.refl _ _
  arg := rfl
  result := rfl
  data := rfl
  done := rfl
  err := rfl
  ecode := rfl
  ie := rfl
  inflight := by
    have hwrites (l : List (Slot × FieldReg)) :
        List.Forall₂ (fun w w' => w.1 = w'.1 ∧ SameValueReg s.modulus w.2 w'.2) l l :=
      List.forall₂_same.2 fun w _ => ⟨rfl, SameValueReg.refl _ _⟩
    have hcurve (c : Option CurveReg) : Option.Rel (SameValueCurve s.modulus) c c := by
      cases c with
      | none => exact .none
      | some c => exact .some (SameValueCurve.refl _ _)
    cases s.inflight with
    | none => exact .none
    | some f => exact .some ⟨rfl, hwrites _, hwrites _, hcurve _, hcurve _, rfl, rfl⟩
  agenda := rfl
  readData := rfl

section

variable {s t : State} (h : SameValues s t)
include h

theorem SameValues.modulus : s.modulus = t.modulus := congrArg Params.modulus h.params

theorem SameValues.valid (i : Slot) : (s.reg i).valid = (t.reg i).valid := (h.regs i).1

theorem SameValues.tag {i : Slot} (hv : (s.reg i).valid = true) : (s.reg i).tag = (t.reg i).tag := ((h.regs i).2 hv).1

theorem SameValues.source_valid (x : Source) : x.valid s = x.valid t := by
  cases x with
  | any i | field i | mask i => exact h.valid i
  | point k => simp only [Source.valid, h.valid]
  | curve => simp only [Source.valid, h.ca.1, h.cd.1]

theorem SameValues.source_typed {x : Source} (hv : x.valid s = true) : x.typed s = x.typed t := by
  cases x with
  | any i | curve => rfl
  | field i | mask i => simp only [Source.typed, h.tag hv]
  | point k =>
    simp only [Source.valid, coordSlots, List.all_cons, List.all_nil, Bool.and_true, Bool.and_eq_true] at hv
    obtain ⟨h0, h1, h2, h3⟩ := hv
    simp only [Source.typed, coordSlots, List.all_cons, List.all_nil, h.tag h0, h.tag h1, h.tag h2, h.tag h3]

/-- The operand checks fail alike: they look at valid bits and, where all are set, at tags. -/
theorem SameValues.operandError (sources : List Source) : operandError sources s = operandError sources t := by
  have hvalid : sources.all (Source.valid s) = sources.all (Source.valid t) := by simp only [funext h.source_valid]
  simp only [Machine.operandError, ← hvalid]
  split
  case isFalse => rfl
  case isTrue hv =>
    have htyped : sources.all (Source.typed s) = sources.all (Source.typed t) := by
      rw [Bool.eq_iff_iff, List.all_eq_true, List.all_eq_true]
      exact forall₂_congr fun x hx => by rw [h.source_typed (List.all_eq_true.1 hv x hx)]
    rw [htyped]

variable (hs : s.Inv) (ht : t.Inv)
include hs

/-- MOV's source. -/
theorem SameValues.alikeReg {i : Slot} (hv : (s.reg i).valid = true) : AlikeReg s.modulus (s.reg i) (t.reg i) :=
  ⟨hs.regs i, hv, h.regs i⟩

/-- An M source is the same Mask in both states. -/
theorem SameValues.mask {i : Slot} (hv : (s.reg i).valid = true ∧ (s.reg i).tag = .mask) :
    ∃ b, (s.reg i).limbs = List.replicate s.modulus.limbCount (maskWord b) ∧
      (t.reg i).limbs = List.replicate s.modulus.limbCount (maskWord b) := by
  obtain ⟨b, hb⟩ := FieldReg.mask_of_ok (hs.regs i) hv.1 hv.2
  obtain ⟨-, -, hmask⟩ := (h.regs i).2 hv.1
  exact ⟨b, hb, (hmask hv.2).symm.trans hb⟩

include ht

/-- An F source. -/
theorem SameValues.alikeVec {i : Slot} (hi : s.FieldAt i) : AlikeVec s.modulus (s.ints i) (t.ints i) := by
  obtain ⟨htag, hval, -⟩ := (h.regs i).2 hi.1
  refine ⟨FieldReg.lazyForm_of_ok (hs.regs i) hi.1 hi.2, ?_, hval hi.2⟩
  rw [h.modulus]
  exact FieldReg.lazyForm_of_ok (ht.regs i) ((h.valid i).symm.trans hi.1) (htag.symm.trans hi.2)

/-- A P source. -/
theorem SameValues.alikePoint {k : Slot} (hk : s.PointAt k) : AlikePoint s.modulus (s.point k) (t.point k) :=
  ⟨h.alikeVec hs ht (hk 0), h.alikeVec hs ht (hk 1), h.alikeVec hs ht (hk 2), h.alikeVec hs ht (hk 3)⟩

theorem SameValues.alikeCa (hc : s.CurveSet) : AlikeVec s.modulus s.caInts t.caInts := by
  refine ⟨CurveReg.lazyForm_of_ok hs.ca hc.1, ?_, h.ca.2 hc.1⟩
  rw [h.modulus]
  exact CurveReg.lazyForm_of_ok ht.ca (h.ca.1.symm.trans hc.1)

theorem SameValues.alikeCd (hc : s.CurveSet) : AlikeVec s.modulus s.cdInts t.cdInts := by
  refine ⟨CurveReg.lazyForm_of_ok hs.cd hc.2, ?_, h.cd.2 hc.2⟩
  rw [h.modulus]
  exact CurveReg.lazyForm_of_ok ht.cd (h.cd.1.symm.trans hc.2)

end

end Sys2Proof.Machine
end

section
/-! PROOFS. Every command, issued in two states that hold the same values, fails the same check or puts alike results in flight. -/

namespace Sys2Proof.Machine

/-! ### The meaning of a command as checks and results, in two states -/

/-- Two states with the invariant that hold the same values. -/
structure AlikeStates (s t : State) : Prop where
  left : s.Inv
  right : t.Inv
  same : SameValues s t

/-- The command fails the same check in both states, or passes all of them with alike results. -/
def ExecAlike (i : Instr) (s t : State) : Prop :=
  ∃ f r r', exec i s = issue i f r s ∧ exec i t = issue i f r' t ∧ (f = none → AlikeResults s.modulus r r')

section

variable {s t : State} {op : Instr}

theorem ExecAlike.intro {f : State → Option ErrorCode} {R : State → Results} (hx : ∀ u, exec op u = issue op (f u) (R u) u)
    (hf : f s = f t) (hR : f s = none → AlikeResults s.modulus (R s) (R t)) : ExecAlike op s t :=
  ⟨f s, R s, R t, hx s, hf ▸ hx t, hR⟩

variable (h : AlikeStates s t)
include h

theorem AlikeStates.ofSources (sources : List Source) {R : State → Results}
    (hx : ∀ u, exec op u = issue op (operandError sources u) (R u) u)
    (hR : (∀ x ∈ sources, x.Usable s) → AlikeResults s.modulus (R s) (R t)) : ExecAlike op s t :=
  .intro hx (h.same.operandError sources) fun hf => hR (operandError_eq_none_iff.1 hf)

theorem AlikeStates.modulus : t.modulus = s.modulus := h.same.modulus.symm

/-- What a checked F source names. -/
theorem AlikeStates.field {sources : List Source} (hf : ∀ x ∈ sources, x.Usable s) {a : Slot} (ha : .field a ∈ sources) :
    AlikeVec s.modulus (s.ints a) (t.ints a) := h.same.alikeVec h.left h.right (hf _ ha)

theorem AlikeStates.mask {sources : List Source} (hf : ∀ x ∈ sources, x.Usable s) {a : Slot} (ha : .mask a ∈ sources) :
    ∃ b, (s.reg a).limbs = List.replicate s.modulus.limbCount (maskWord b) ∧
      (t.reg a).limbs = List.replicate s.modulus.limbCount (maskWord b) := h.same.mask h.left (hf _ ha)

theorem AlikeStates.point {sources : List Source} (hf : ∀ x ∈ sources, x.Usable s) {k : Slot} (hk : .point k ∈ sources) :
    AlikePoint s.modulus (s.point k) (t.point k) := h.same.alikePoint h.left h.right (hf _ hk)

theorem AlikeStates.curve {sources : List Source} (hf : ∀ x ∈ sources, x.Usable s) (hc : .curve ∈ sources) :
    AlikeVec s.modulus s.caInts t.caInts ∧ AlikeVec s.modulus s.cdInts t.cdInts :=
  ⟨h.same.alikeCa h.left h.right (hf _ hc), h.same.alikeCd h.left h.right (hf _ hc)⟩

/-- A command that computes one field element from one, the configuration and ARG. -/
theorem AlikeStates.unary {d a : Slot} (F : ModulusId → Word → List Int → List Int)
    (hx : ∀ u, exec op u = issue op (operandError [.field a] u) { dests := writeField d (F u.modulus u.arg (u.ints a)) } u)
    (hF : ∀ m w {x x'}, AlikeVec m x x' → AlikeVec m (F m w x) (F m w x')) : ExecAlike op s t :=
  h.ofSources [.field a] hx fun hf => by
    rw [h.modulus, ← h.same.arg]
    exact { dests := (hF _ _ (h.field hf (.head _))).write d }

/-- A command that computes one field element from two. -/
theorem AlikeStates.binary {d a b : Slot} (F : ModulusId → List Int → List Int → List Int)
    (hx : ∀ u, exec op u =
      issue op (operandError [.field a, .field b] u) { dests := writeField d (F u.modulus (u.ints a) (u.ints b)) } u)
    (hF : ∀ m {x x' y y'}, AlikeVec m x x' → AlikeVec m y y' → AlikeVec m (F m x y) (F m x' y')) : ExecAlike op s t :=
  h.ofSources [.field a, .field b] hx fun hf => by
    rw [h.modulus]
    exact { dests := (hF _ (h.field hf (.head _)) (h.field hf (.tail _ (.head _)))).write d }

end

/-! ### Constants and bounds of single commands -/

/-- ARG as a signed number has 32 bits. -/
theorem smallOperand_bounds (w : Word) : -2 ^ 31 ≤ w.toInt ∧ w.toInt < 2 ^ 31 := ⟨BitVec.le_toInt w, BitVec.toInt_lt⟩

theorem selectedConstant_bounds (m : ModulusId) (k : Slot) : 0 ≤ selectedConstant m k ∧ selectedConstant m k < pow2 m.n := by
  have hp := p_eq m
  have hc := c_lt_p m
  have hc0 := c_bounds m
  simp only [selectedConstant]
  split <;> omega

theorem Memory.readInt_lt (d : Memory) (a k : Nat) : d.readInt a k < 2 ^ (8 * k) := by
  induction k generalizing a with
  | zero => simp [Memory.readInt]
  | succ k ih =>
    have hbyte := (d.read a).isLt
    have hrest := ih (a + 1)
    rw [Memory.readInt, Nat.mul_succ, pow_add]
    omega

/-- The nb bytes of DATA fit the limbs with the top one below 2^32. -/
theorem packed_fits (m : ModulusId) : ((2 ^ (8 * m.byteCount) : Nat) : Int) ≤ 2 ^ 32 * topWeight m := by
  cases m <;> decide +kernel

theorem lazyForm_split_packedInteger (s : State) : lazyForm s.modulus (split s.modulus s.packedInteger) = true := by
  have hlt : ((s.packedInteger : Nat) : Int) < ((2 ^ (8 * s.modulus.byteCount) : Nat) : Int) :=
    Int.ofNat_lt.2 (Memory.readInt_lt s.data 0 s.modulus.byteCount)
  exact lazyForm_split_of_lt (Int.natCast_nonneg _) (hlt.trans_le (packed_fits s.modulus))

theorem length_packBytes (m : ModulusId) (x : Int) : (packBytes m x).length = dataSize := by simp [packBytes]

theorem sqrtConstant_bounds (m : ModulusId) : 0 ≤ (sqrtConstant m : Int) ∧ (sqrtConstant m : Int) < pow2 m.n :=
  ⟨Int.natCast_nonneg _, by cases m <;> decide +kernel⟩

/-- SQRT's two exponentiations and its choice look at values alone (R129). -/
theorem AlikeVec.fieldSqrt {m : ModulusId} {x x' : List Int} (hx : AlikeVec m x x') :
    AlikeVec m (fieldSqrt m x) (fieldSqrt m x') := by
  obtain ⟨hi0, hi1⟩ := sqrtConstant_bounds m
  simp only [Machine.fieldSqrt, ← (hx.exp (quarticExponent m)).normalize_eq]
  split
  · exact (hx.exp (sqrtExponent m)).normalize
  · exact ((hx.exp (sqrtExponent m)).fieldMul (AlikeVec.split hi0 hi1)).normalize

/-! ### The commands that write more than one field element, or none -/

section

variable {s t : State} (h : AlikeStates s t)
include h

theorem execAlike_mov (d a : Slot) : ExecAlike (.mov d a) s t :=
  h.ofSources [.any a] (fun _ => rfl) fun hf =>
    { dests := .cons ⟨rfl, h.same.alikeReg h.left (hf (.any a) (.head _))⟩ .nil }

theorem execAlike_ldc (d k : Slot) : ExecAlike (.ldc d k) s t :=
  h.ofSources [] (fun _ => rfl) fun _ => by
    rw [h.modulus]
    obtain ⟨h0, h1⟩ := selectedConstant_bounds s.modulus k
    exact { dests := (AlikeVec.split h0 h1).write d }

theorem execAlike_unpack (d : Slot) : ExecAlike (.unpack d) s t :=
  h.ofSources [] (fun _ => rfl) fun _ => by
    have hX : t.packedInteger = s.packedInteger := by simp only [State.packedInteger, h.modulus, h.same.data]
    rw [h.modulus, hX]
    exact { dests := (AlikeVec.refl (lazyForm_split_packedInteger s)).write d }

theorem execAlike_pack (a : Slot) : ExecAlike (.pack a) s t :=
  h.ofSources [.field a] (fun _ => rfl) fun hf => by
    have ha := h.field hf (.head _)
    rw [h.modulus]
    exact
      { writeBacks := ha.normalize.write a
        data := by rw [ha.normalize_eq]
        dataLength := by rintro _ ⟨⟩; exact length_packBytes _ _ }

theorem execAlike_leg (d a : Slot) : ExecAlike (.leg d a) s t :=
  h.ofSources [.field a] (fun _ => rfl) fun hf => by
    have hx := (h.field hf (.head _)).exp (legExponent s.modulus)
    rw [h.modulus]
    exact
      { dests := hx.normalize.write d
        result := by rw [hx.normalize_eq] }

theorem execAlike_sqrt (d a : Slot) : ExecAlike (.sqrt d a) s t := by
  refine .intro (f := fun u => if u.modulus.hasSqrt then operandError [.field a] u else some .unsupported) (fun _ => rfl) ?_ ?_
  · simp only [h.modulus, h.same.operandError]
  · intro hf
    have hsqrt : s.modulus.hasSqrt = true := by
      by_contra hno
      simp [hno] at hf
    simp only [hsqrt, if_true] at hf
    rw [h.modulus]
    exact { dests := (h.field (operandError_eq_none_iff.1 hf) (.head _)).fieldSqrt.write d }

/-- The write-backs of two normalized sources. -/
theorem AlikeStates.normalizedPair {sources : List Source} (hf : ∀ x ∈ sources, x.Usable s) {a b : Slot}
    (ha : .field a ∈ sources) (hb : .field b ∈ sources) :
    List.Forall₂ (AlikeWrite s.modulus)
      (writeField a (normalize s.modulus (s.ints a)) ++ writeField b (normalize s.modulus (s.ints b)))
      (writeField a (normalize s.modulus (t.ints a)) ++ writeField b (normalize s.modulus (t.ints b))) :=
  List.rel_append ((h.field hf ha).normalize.write a) ((h.field hf hb).normalize.write b)

theorem execAlike_eq (a b : Slot) : ExecAlike (.eq a b) s t :=
  h.ofSources [.field a, .field b] (fun _ => rfl) fun hf => by
    have ha := h.field hf (.head _)
    have hb := h.field hf (.tail _ (.head _))
    rw [h.modulus]
    exact
      { writeBacks := h.normalizedPair hf (.head _) (.tail _ (.head _))
        result := by rw [ha.normalize_eq, hb.normalize_eq] }

theorem execAlike_bit (a : Slot) : ExecAlike (.bit a) s t := by
  have hindex : t.bitIndex = s.bitIndex := congrArg BitVec.toNat h.same.arg.symm
  refine .intro (f := fun u => (operandError [.field a] u).or (if u.bitIndex < u.modulus.n then none else some .arg))
    (fun _ => rfl) ?_ ?_
  · simp only [h.modulus, hindex, h.same.operandError]
  · intro hf
    have ha := h.field (operandError_eq_none_iff.1 (Option.or_eq_none_iff.1 hf).1) (.head _)
    rw [h.modulus, hindex]
    exact
      { writeBacks := ha.normalize.write a
        result := by rw [ha.normalize_eq] }

theorem execAlike_fill (d : Slot) : ExecAlike (.fill d) s t :=
  h.ofSources [] (fun _ => rfl) fun _ => by
    have hbit : t.fillBit = s.fillBit := congrArg (fun w : Word => w.getLsbD 0) h.same.arg.symm
    rw [h.modulus, hbit]
    exact { dests := .cons ⟨rfl, alikeReg_maskReg _ _⟩ .nil }

theorem execAlike_andm (d a k : Slot) : ExecAlike (.andm d a k) s t :=
  h.ofSources [.field a, .mask k] (fun _ => rfl) fun hf => by
    have ha := (h.field hf (.head _)).normalize
    obtain ⟨b, hs, ht⟩ := h.mask hf (.tail _ (.head _))
    have hand : AlikeVec s.modulus (andWords (normalize s.modulus (s.ints a)) (s.reg k).limbs)
        (andWords (normalize s.modulus (t.ints a)) (t.reg k).limbs) := by
      rw [hs, ht, andWords_mask ha.lazyLeft, andWords_mask ha.lazyRight]
      cases b
      · exact AlikeVec.split_zero
      · exact ha
    rw [h.modulus]
    exact
      { writeBacks := ha.write a
        dests := hand.write d }

theorem execAlike_orm (d a b : Slot) : ExecAlike (.orm d a b) s t :=
  h.ofSources [.field a, .field b] (fun _ => rfl) fun hf => by
    have ha := h.field hf (.head _)
    have hb := h.field hf (.tail _ (.head _))
    have hor : AlikeVec s.modulus (orWords (normalize s.modulus (s.ints a)) (normalize s.modulus (s.ints b)))
        (orWords (normalize s.modulus (t.ints a)) (normalize s.modulus (t.ints b))) := by
      rw [← ha.normalize_eq, ← hb.normalize_eq]
      exact .refl (lazyForm_orWords (canonical_normalize ha.lazyLeft) (canonical_normalize hb.lazyLeft))
    rw [h.modulus]
    exact
      { writeBacks := h.normalizedPair hf (.head _) (.tail _ (.head _))
        dests := hor.write d }

theorem execAlike_csel (d a b k : Slot) : ExecAlike (.csel d a b k) s t :=
  h.ofSources [.field a, .field b, .mask k] (fun _ => rfl) fun hf => by
    have ha := h.field hf (.head _)
    have hb := h.field hf (.tail _ (.head _))
    obtain ⟨bit, hs, ht⟩ := h.mask hf (.tail _ (.tail _ (.head _)))
    have hblend := ha.fieldCsel hb bit
    simp only [h.modulus, hs, ht]
    exact
      { writeBacks := h.normalizedPair hf (.head _) (.tail _ (.head _))
        dests := hblend.write d }

theorem execAlike_seta (a : Slot) : ExecAlike (.seta a) s t :=
  h.ofSources [.field a] (fun _ => rfl) fun hf => { ca := .some (h.field hf (.head _)).curveReg }

theorem execAlike_setd (a : Slot) : ExecAlike (.setd a) s t :=
  h.ofSources [.field a] (fun _ => rfl) fun hf => { cd := .some (h.field hf (.head _)).curveReg }

theorem execAlike_pzero (d : Slot) : ExecAlike (.pzero d) s t :=
  h.ofSources [] (fun _ => rfl) fun _ => by
    rw [h.modulus]
    exact { dests := alikePoint_identity.write d }

theorem execAlike_pinit (d a b : Slot) : ExecAlike (.pinit d a b) s t :=
  h.ofSources [.field a, .field b] (fun _ => rfl) fun hf => by
    rw [h.modulus]
    exact { dests := (alikePoint_lift (h.field hf (.head _)) (h.field hf (.tail _ (.head _)))).write d }

theorem execAlike_padd (d a b : Slot) : ExecAlike (.padd d a b) s t :=
  h.ofSources [.point a, .point b, .curve] (fun _ => rfl) fun hf => by
    obtain ⟨hca, hcd⟩ := h.curve hf (.tail _ (.tail _ (.head _)))
    rw [h.modulus]
    exact { dests := (alikePoint_add hca hcd (h.point hf (.head _)) (h.point hf (.tail _ (.head _)))).write d }

theorem execAlike_pdbl (d a : Slot) : ExecAlike (.pdbl d a) s t :=
  h.ofSources [.point a, .curve] (fun _ => rfl) fun hf => by
    obtain ⟨hca, -⟩ := h.curve hf (.tail _ (.head _))
    rw [h.modulus]
    exact { dests := (alikePoint_double hca (h.point hf (.head _))).write d }

theorem execAlike_ptpl (d a : Slot) : ExecAlike (.ptpl d a) s t :=
  h.ofSources [.point a, .curve] (fun _ => rfl) fun hf => by
    obtain ⟨hca, hcd⟩ := h.curve hf (.tail _ (.head _))
    have ha := h.point hf (.head _)
    rw [h.modulus]
    exact { dests := (alikePoint_add hca hcd (alikePoint_double hca ha) ha).write d }

/-- PMUL: the normalized scalars are one vector, so the ladders take the same branches. -/
theorem execAlike_pmul (d a b : Slot) : ExecAlike (.pmul d a b) s t :=
  h.ofSources [.point a, .field b, .curve] (fun _ => rfl) fun hf => by
    obtain ⟨hca, hcd⟩ := h.curve hf (.tail _ (.tail _ (.head _)))
    have hb := h.field hf (.tail _ (.head _))
    rw [h.modulus, ← hb.normalize_eq]
    exact
      { writeBacks := (AlikeVec.refl (lazyForm_normalize hb.lazyLeft)).write b
        dests := (alikePoint_ladder hca hcd _ (h.point hf (.head _))).write d }

/-- Every command fails the same check or puts alike results in flight. -/
theorem exec_alike (i : Instr) : ExecAlike i s t := by
  cases i with
  | nop => exact h.ofSources [] (fun _ => rfl) fun _ => {}
  | mov d a => exact execAlike_mov h d a
  | ldc d k => exact execAlike_ldc h d k
  | unpack d => exact execAlike_unpack h d
  | pack a => exact execAlike_pack h a
  | norm d => exact h.unary (fun m _ x => normalize m x) (fun _ => rfl) fun _ _ _ _ hx => hx.normalize
  | add d a b => exact h.binary fieldAdd (fun _ => rfl) fun _ _ _ _ _ hx hy => hx.fieldAdd hy
  | sub d a b => exact h.binary fieldSub (fun _ => rfl) fun _ _ _ _ _ hx hy => hx.fieldSub hy
  | neg d a =>
    exact h.unary (fun m _ x => fieldSub m (split m m.p) x) (fun _ => rfl) fun _ _ _ _ hx => AlikeVec.split_p.fieldSub hx
  | sadd d a =>
    exact h.unary (fun m w x => settle m (addLow w.toInt x)) (fun _ => rfl) fun _ w _ _ hx =>
      hx.settle_addLow (by have := smallOperand_bounds w; omega)
  | ssub d a =>
    exact h.unary (fun m w x => settle m (addLow (-w.toInt) x)) (fun _ => rfl) fun _ w _ _ hx =>
      hx.settle_addLow (by have := smallOperand_bounds w; omega)
  | smul d a =>
    exact h.unary (fun m w x => settle m (x.map fun z => z * w.toInt)) (fun _ => rfl) fun _ w _ _ hx =>
      hx.settle_map_mul (smallOperand_bounds w)
  | mul d a b => exact h.binary fieldMul (fun _ => rfl) fun _ _ _ _ _ hx hy => hx.fieldMul hy
  | sqr d a => exact h.unary (fun m _ x => fieldMul m x x) (fun _ => rfl) fun _ _ _ _ hx => hx.fieldMul hx
  | inv d a => exact h.unary (fun m _ x => exp m x (invExponent m)) (fun _ => rfl) fun _ _ _ _ hx => hx.exp _
  | div d a b =>
    exact h.binary (fun m x y => fieldMul m x (exp m y (invExponent m))) (fun _ => rfl) fun _ _ _ _ _ hx hy =>
      hx.fieldMul (hy.exp _)
  | leg d a => exact execAlike_leg h d a
  | sqrt d a => exact execAlike_sqrt h d a
  | eq a b => exact execAlike_eq h a b
  | bit a => exact execAlike_bit h a
  | fill d => exact execAlike_fill h d
  | andm d a k => exact execAlike_andm h d a k
  | orm d a b => exact execAlike_orm h d a b
  | csel d a b k => exact execAlike_csel h d a b k
  | seta a => exact execAlike_seta h a
  | setd a => exact execAlike_setd h a
  | pzero d => exact execAlike_pzero h d
  | pinit d a b => exact execAlike_pinit h d a b
  | padd d a b => exact execAlike_padd h d a b
  | pdbl d a => exact execAlike_pdbl h d a
  | ptpl d a => exact execAlike_ptpl h d a
  | pmul d a b => exact execAlike_pmul h d a b

end

end Sys2Proof.Machine
end

section
/-! PROOFS. Every field after the pending writes, the completion and the reset; the invariant at reset and over every step (R25, R28,
R35); what no step changes (R21) and when DONE rises (R190). -/

namespace Sys2Proof.Machine

/-! ### Every field after the pending writes (R189) -/

section

variable (r : Results) (s : State)

@[simp] theorem apply_params : (r.apply s).params = s.params := by obtain ⟨v, h⟩ := apply_eq r s; rw [h]
@[simp] theorem apply_modulus : (r.apply s).modulus = s.modulus := congrArg Params.modulus (apply_params r s)
@[simp] theorem apply_ca : (r.apply s).ca = r.ca.getD s.ca := by obtain ⟨v, h⟩ := apply_eq r s; rw [h]
@[simp] theorem apply_cd : (r.apply s).cd = r.cd.getD s.cd := by obtain ⟨v, h⟩ := apply_eq r s; rw [h]
@[simp] theorem apply_arg : (r.apply s).arg = s.arg := by obtain ⟨v, h⟩ := apply_eq r s; rw [h]
@[simp] theorem apply_result : (r.apply s).result = r.result.getD s.result := by obtain ⟨v, h⟩ := apply_eq r s; rw [h]
@[simp] theorem apply_data : (r.apply s).data = (r.data.map (s.data.writeBytes 0)).getD s.data := by
  obtain ⟨v, h⟩ := apply_eq r s; rw [h]
@[simp] theorem apply_done : (r.apply s).done = s.done := by obtain ⟨v, h⟩ := apply_eq r s; rw [h]
@[simp] theorem apply_err : (r.apply s).err = s.err := by obtain ⟨v, h⟩ := apply_eq r s; rw [h]
@[simp] theorem apply_ecode : (r.apply s).ecode = s.ecode := by obtain ⟨v, h⟩ := apply_eq r s; rw [h]
@[simp] theorem apply_ie : (r.apply s).ie = s.ie := by obtain ⟨v, h⟩ := apply_eq r s; rw [h]
@[simp] theorem apply_inflight : (r.apply s).inflight = s.inflight := by obtain ⟨v, h⟩ := apply_eq r s; rw [h]
@[simp] theorem apply_agenda : (r.apply s).agenda = s.agenda := by obtain ⟨v, h⟩ := apply_eq r s; rw [h]
@[simp] theorem apply_readData : (r.apply s).readData = s.readData := by obtain ⟨v, h⟩ := apply_eq r s; rw [h]

end

theorem complete_params (s : State) : (complete s).params = s.params := by
  cases h : s.inflight with
  | none => rw [complete_of_idle h]
  | some f => simp [complete_of_inflight h]

theorem complete_done_of_inflight {s : State} (h : s.inflight ≠ none) : (complete s).done = true := by
  obtain ⟨f, hf⟩ := Option.ne_none_iff_exists'.1 h
  rw [complete_of_inflight hf]; rfl

/-! ### What recording an error and issuing a command keep (R164, R186)

`g` reads a part of the state that ERR and ECODE are not in. -/

section

variable {α : Type} (g : State → α) (hg : ∀ (s : State) (b : Bool) (c : BitVec 4), g (s.setError b c) = g s)
include hg

theorem raiseError_keeps (e : ErrorCode) (s : State) : g (raiseError e s) = g s := by
  obtain ⟨b, c, h⟩ := raiseError_eq_setError e s
  rw [h, hg]

theorem unlessBusy_keeps {s u : State} (hu : g u = g s) : g (unlessBusy s u) = g s := by
  unfold unlessBusy
  split
  · exact raiseError_keeps g hg .busy s
  · exact hu

theorem gate_illegal_keeps (s : State) : g (gate s (raiseError .illegal s)) = g s := by
  unfold gate
  split
  · rfl
  · split <;> exact raiseError_keeps g hg _ s

/-- What is not in the in-flight state either, no issue changes. -/
theorem exec_keeps (hf : ∀ (s : State) (f : Option Inflight), g (s.setInflight f) = g s) {i : Instr} {s u : State}
    (h : exec i s = .next u) : g u = g s := by
  obtain ⟨f, r, hx⟩ := exec_eq_issue i s
  rw [hx] at h
  obtain ⟨-, rfl⟩ | ⟨-, -, rfl⟩ | ⟨-, e, -, rfl⟩ | ⟨-, -, rfl⟩ := issue_cases h
  · rfl
  · exact hg s _ _
  · exact hg s _ _
  · exact hf s _

end

/-! ### irq (R37) -/

theorem irq_iff (s : State) : s.irq = true ↔ s.ie = true ∧ (s.done = true ∨ s.err = true) := by simp [State.irq]

theorem complete_ie (s : State) : (complete s).ie = s.ie := by
  cases h : s.inflight with
  | none => rw [complete_of_idle h]
  | some f => simp [complete_of_inflight h]

theorem raiseError_err (e : ErrorCode) (s : State) : (raiseError e s).err = true := by
  by_cases h : s.err = true
  · rw [raiseError_of_err h, h]
  · rw [raiseError_of_clear (by simpa using h)]; rfl

/-- Settles O23: a completion sets DONE, an error ERR, and neither changes IE. -/
theorem irqFollowsDoneAndErr : Obligations.IrqFollowsDoneAndErr := by
  intro s
  refine ⟨irq_iff s, fun hie hf => ?_, fun hie e => ?_⟩
  · exact (irq_iff _).2 ⟨(complete_ie s).trans hie, .inl (complete_done_of_inflight hf)⟩
  · exact (irq_iff _).2 ⟨(raiseError_keeps State.ie (fun _ _ _ => rfl) e s).trans hie, .inr (raiseError_err e s)⟩

/-! ### Reset (R42, R181, R182) -/

theorem resetWith_reg (q : Params) (i : Slot) : (State.resetWith q).reg i = FieldReg.atReset q.modulus := by
  simp [State.resetWith, State.reg]

theorem atReset_resetWith (q : Params) : AtReset (State.resetWith q) where
  regs i := by rw [resetWith_reg]; exact ⟨rfl, rfl⟩
  ca := rfl
  cd := rfl
  arg := rfl
  result := rfl
  data _ := rfl
  busy := rfl
  done := rfl
  err := rfl
  ecode := rfl
  ie := rfl
  inflight := rfl
  irq := rfl

/-- The reset operation gives the reset values and keeps the model's own two fields. -/
theorem atReset_resetFapu (s : State) : AtReset (resetFapu s) := { atReset_resetWith s.params with }

/-- A CTRL write with SRST is the reset, whatever its other bits. -/
theorem takeTurn_ctrl_srst (s : State) {v : Word} (hv : v.getLsbD 0 = true) :
    takeTurn (s.writeAt 0x004 v) s = .next (resetFapu s) := by
  rw [State.writeAt, takeTurn_write (by decide) (by decide)]
  simp only [writeWindow, writeCtrl, hv, if_true]

/-- Settles O6: both resets are the one reset operation. -/
theorem bothResetsGiveTheResetState : Obligations.BothResetsGiveTheResetState := fun s =>
  ⟨⟨resetFapu s, rfl, fun _ hv => takeTurn_ctrl_srst s hv, atReset_resetFapu s, rfl, rfl, rfl⟩,
    fun q => ⟨atReset_resetWith q, rfl⟩⟩

theorem inv_resetWith (q : Params) : (State.resetWith q).Inv where
  regs i := by rw [resetWith_reg]; simp [FieldReg.ok, FieldReg.atReset, State.modulus, State.resetWith]
  ca := by simp [CurveReg.ok, CurveReg.atReset, State.modulus, State.resetWith]
  cd := by simp [CurveReg.ok, CurveReg.atReset, State.modulus, State.resetWith]
  data := resetWith_data_wf q
  inflight := rfl
  ecode := rfl

/-- Settles O9: after reset every register is invalid and has its N limbs. -/
theorem invariantHoldsAtReset : Obligations.InvariantHoldsAtReset := inv_resetWith

/-! ### Every operation keeps the invariant -/

/-- The six codes (R162). -/
theorem code_bounds (e : ErrorCode) : 1 ≤ e.code.toNat ∧ e.code.toNat ≤ 6 := by cases e <;> decide

theorem Results.ok_iff (m : ModulusId) (r : Results) : r.ok m = true ↔
    (∀ w ∈ r.writeBacks ++ r.dests, w.2.ok m = true ∧ w.2.valid = true) ∧
      (∀ c, r.ca = some c → c.ok m = true ∧ c.valid = true) ∧ (∀ c, r.cd = some c → c.ok m = true ∧ c.valid = true) ∧
      ∀ bs, r.data = some bs → bs.length = dataSize := by
  simp only [Results.ok, Bool.and_eq_true, List.all_eq_true, Option.all_eq_true, beq_iff_eq, and_assoc]

namespace State.Inv

variable {s : State} (hs : s.Inv)
include hs

theorem setError (e : ErrorCode) : (s.setError true e.code).Inv := { hs with ecode := code_bounds e }

theorem raiseError (e : ErrorCode) : (raiseError e s).Inv := by
  by_cases h : s.err = true
  · rwa [raiseError_of_err h]
  · rw [raiseError_of_clear (by simpa using h)]; exact hs.setError e

theorem clearError : (clearError s).Inv := { hs with ecode := rfl }

/-- The pending writes of a command in flight. -/
theorem complete : (complete s).Inv := by
  cases hf : s.inflight with
  | none => rwa [complete_of_idle hf]
  | some f =>
    have hfl := hs.inflight
    rw [hf, Option.all_some, Bool.and_eq_true, Results.ok_iff] at hfl
    obtain ⟨-, hregs, hca, hcd, hdata⟩ := hfl
    rw [complete_of_inflight hf]
    exact
      { regs := fun i => by
          simp only [setDone_reg, setInflight_reg, setDone_modulus, setInflight_modulus, apply_modulus, apply_reg]
          obtain ⟨w, hw, -, hr⟩ | hr := setRegs_reg_cases s (f.results.writeBacks ++ f.results.dests) i
          · rw [hr]; exact (hregs w hw).1
          · rw [hr]; exact hs.regs i
        ca := by
          simp only [setDone_ca, setInflight_ca, setDone_modulus, setInflight_modulus, apply_modulus, apply_ca]
          cases hc : f.results.ca with
          | none => exact hs.ca
          | some c => exact (hca c hc).1
        cd := by
          simp only [setDone_cd, setInflight_cd, setDone_modulus, setInflight_modulus, apply_modulus, apply_cd]
          cases hc : f.results.cd with
          | none => exact hs.cd
          | some c => exact (hcd c hc).1
        data := by
          simp only [setDone_data, setInflight_data, apply_data]
          cases hd : f.results.data with
          | none => exact hs.data
          | some bs => exact Memory.writeBytes_wf hs.data (by simp [hdata bs hd])
        inflight := rfl
        ecode := by simpa only [setDone_err, setInflight_err, setDone_ecode, setInflight_ecode, apply_err, apply_ecode] using hs.ecode }

/-- A host write that is taken only while nothing is in flight. -/
theorem unlessBusy {u : State} (hu : u.Inv) : (unlessBusy s u).Inv := by
  unfold Machine.unlessBusy
  split
  · exact hs.raiseError .busy
  · exact hu

theorem gate {u : State} (hu : u.Inv) : (gate s u).Inv := by
  unfold Machine.gate
  split
  · exact hs
  · split
    · exact hs.raiseError .busy
    · exact hu

/-- The issue of a command: what is put in flight is well formed, and its results are of the forms registers may hold. -/
theorem exec {i : Instr} (hi : i.wellFormed = true) {u : State} (hx : exec i s = .next u) : u.Inv := by
  obtain ⟨f, r, _, hr, -, hok⟩ := exec_alike ⟨hs, hs, SameValues.refl s⟩ i
  rw [hr] at hx
  obtain ⟨-, rfl⟩ | ⟨-, -, rfl⟩ | ⟨-, e, -, rfl⟩ | ⟨-, hf, rfl⟩ := issue_cases hx
  · exact hs
  · exact hs.setError .busy
  · exact hs.setError e
  · exact { hs with inflight := by simp [hi, (hok hf).ok] }

theorem takeTurn {t : Turn} {u : State} (h : takeTurn t s = .next u) : u.Inv := by
  obtain ⟨v, rfl⟩ | rfl | rfl | ⟨i, hi, hx⟩ | rfl | ⟨b, rfl⟩ | ⟨b, rfl⟩ | rfl | ⟨v, rfl⟩ | ⟨w, v, hw, rfl⟩ | rfl :=
    takeTurn_cases h
  · exact { hs with }
  · exact hs.complete
  · exact { inv_resetWith s.params with }
  · exact hs.exec hi hx
  · exact hs.gate (hs.raiseError .illegal)
  · exact { hs.clearError with }
  · exact { hs with }
  · exact { hs with }
  · exact hs.unlessBusy { hs with }
  · exact hs.unlessBusy { hs with data := Memory.writeWord_wf hs.data hw v }
  · exact hs

end State.Inv

/-- Settles O10: every turn keeps the invariant. The results of all 32 commands are covered by `exec_alike`, of a state and itself. -/
theorem everyStepKeepsTheInvariant : Obligations.EveryStepKeepsTheInvariant := by
  intro s u hs h
  obtain ⟨-, rfl⟩ | ⟨t, rest, -, ht⟩ := step_cases h
  · exact hs.complete
  · exact State.Inv.takeTurn (s := s.setAgenda rest) { hs with } ht

/-! ### No step changes the parameters (R21) -/

theorem takeTurn_params {t : Turn} {s u : State} (h : takeTurn t s = .next u) : u.params = s.params := by
  obtain ⟨v, rfl⟩ | rfl | rfl | ⟨i, -, hx⟩ | rfl | ⟨b, rfl⟩ | ⟨b, rfl⟩ | rfl | ⟨v, rfl⟩ | ⟨w, v, -, rfl⟩ | rfl :=
    takeTurn_cases h
  · rfl
  · exact complete_params s
  · exact resetFapu_params s
  · exact exec_keeps State.params (fun _ _ _ => rfl) (fun _ _ => rfl) hx
  · exact gate_illegal_keeps State.params (fun _ _ _ => rfl) s
  · rfl
  · rfl
  · rfl
  · exact unlessBusy_keeps State.params (fun _ _ _ => rfl) rfl
  · exact unlessBusy_keeps State.params (fun _ _ _ => rfl) rfl
  · rfl

/-- Settles O8: a case per turn; only the reset rebuilds the state, and it does so from the parameters. -/
theorem noStepChangesTheParameters : Obligations.NoStepChangesTheParameters := by
  intro s u h
  obtain ⟨-, rfl⟩ | ⟨t, rest, -, ht⟩ := step_cases h
  · exact complete_params s
  · exact (takeTurn_params ht).trans (setAgenda_params s rest)

/-! ### DONE rises at a completion alone (R190) -/

/-- A window write leaves DONE as it is or clears it. -/
theorem writeWindow_done {off : Nat} {v : Word} {s u : State} (h : writeWindow off v s = .next u) :
    u.done = s.done ∨ u.done = false := by
  obtain ⟨-, rfl⟩ | ⟨-, rfl⟩ | ⟨-, i, -, -, hx⟩ | ⟨-, -, rfl⟩ | ⟨-, rfl⟩ | ⟨-, -, rfl⟩ | rfl := writeWindow_cases h
  · unfold writeCtrl
    split
    · exact .inr rfl
    · split <;> exact .inl rfl
  · unfold writeStatus
    split
    · exact .inr rfl
    · exact .inl rfl
  · exact .inl (exec_keeps State.done (fun _ _ _ => rfl) (fun _ _ => rfl) hx)
  · exact .inl (gate_illegal_keeps State.done (fun _ _ _ => rfl) s)
  · exact .inl (unlessBusy_keeps State.done (fun _ _ _ => rfl) rfl)
  · exact .inl (unlessBusy_keeps State.done (fun _ _ _ => rfl) rfl)
  · exact .inl rfl

/-- Every turn but the execution unit's leaves DONE as it is or clears it. -/
theorem takeTurn_done {t : Turn} {s u : State} (h : takeTurn t s = .next u) (ht : t ≠ .complete) :
    u.done = s.done ∨ u.done = false := by
  cases t with
  | complete => exact absurd rfl ht
  | hardReset => cases h; exact .inr rfl
  | read addr bytes =>
    simp only [takeTurn, busRead] at h
    obtain ⟨-, off, -, -, -, h⟩ := hostAccess_next h
    cases h; exact .inl rfl
  | write addr bytes v =>
    simp only [takeTurn, busWrite] at h
    obtain ⟨-, off, -, -, -, h⟩ := hostAccess_next h
    exact writeWindow_done h

/-- A completion raises DONE only with a command in flight. -/
theorem inflight_of_complete_done {s : State} (h0 : s.done = false) (h1 : (complete s).done = true) : s.inflight ≠ none := by
  intro hf
  rw [complete_of_idle hf, h0] at h1
  cases h1

/-- Settles O24: only the completion sets DONE, and only with a command in flight. -/
theorem doneRisesOnlyAtCompletion : Obligations.DoneRisesOnlyAtCompletion := by
  intro s u h h0 h1
  obtain ⟨ha, rfl⟩ | ⟨t, rest, ha, ht⟩ := step_cases h
  · exact ⟨inflight_of_complete_done h0 h1, complete_inflight s, .inl ha⟩
  · by_cases hc : t = .complete
    · subst hc
      cases ht
      exact ⟨inflight_of_complete_done (s := s.setAgenda rest) h0 h1, complete_inflight _, .inr ⟨rest, ha⟩⟩
    · obtain hd | hd := takeTurn_done ht hc
      · rw [hd, setAgenda_done, h0] at h1; cases h1
      · rw [hd] at h1; cases h1

end Sys2Proof.Machine
end

section
/-! PROOFS. Value abstraction (R199): every operation and every turn takes two states that hold the same values to two states that
again do. -/

namespace Sys2Proof.Machine

theorem isSome_of_rel {α β : Type} {R : α → β → Prop} {a : Option α} {b : Option β} (h : Option.Rel R a b) :
    a.isSome = b.isSome := by cases h <;> rfl

/-- A part that is written in both results, or in none and kept in both states. -/
theorem getD_of_rel {α β : Type} {R : α → β → Prop} {a : Option α} {b : Option β} {x : α} {y : β} (h : Option.Rel R a b)
    (hxy : R x y) : R (a.getD x) (b.getD y) := by
  cases h with
  | none => exact hxy
  | some hab => exact hab

namespace SameValues

variable {s t : State} (h : SameValues s t)
include h

/-! ### Errors and the gate -/

theorem busy : s.busy = t.busy := isSome_of_rel h.inflight

theorem setError (b : Bool) (c : BitVec 4) : SameValues (s.setError b c) (t.setError b c) := { h with err := rfl, ecode := rfl }

theorem raiseError (e : ErrorCode) : SameValues (raiseError e s) (raiseError e t) := by
  unfold Machine.raiseError
  rw [← h.err]
  split
  · exact h
  · exact h.setError true e.code

theorem gate {u v : State} (huv : SameValues u v) : SameValues (gate s u) (gate t v) := by
  unfold Machine.gate
  rw [← h.err, ← h.busy]
  split
  · exact h
  · split
    · exact h.raiseError .busy
    · exact huv

theorem unlessBusy {u v : State} (huv : SameValues u v) : SameValues (unlessBusy s u) (unlessBusy t v) := by
  unfold Machine.unlessBusy
  rw [← h.busy]
  split
  · exact h.raiseError .busy
  · exact huv

theorem resetFapu : SameValues (resetFapu s) (resetFapu t) := by
  unfold Machine.resetFapu
  rw [← h.params, ← h.agenda, ← h.readData]
  exact .refl _

/-! ### Completion -/

theorem setReg (i : Slot) {r r' : FieldReg} (hr : SameValueReg s.modulus r r') : SameValues (s.setReg i r) (t.setReg i r') :=
  { h with
    regs := fun j => by
      rw [setReg_reg, setReg_reg, setReg_modulus]
      split
      · exact hr
      · exact h.regs j }

theorem setRegs {m : ModulusId} (hm : s.modulus = m) {l l' : List (Slot × FieldReg)}
    (hl : List.Forall₂ (fun w w' => w.1 = w'.1 ∧ SameValueReg m w.2 w'.2) l l') : SameValues (s.setRegs l) (t.setRegs l') := by
  induction hl generalizing s t with
  | nil => exact h
  | cons hw _ ih =>
    obtain ⟨hi, hr⟩ := hw
    simp only [State.setRegs, hi]
    exact ih (h.setReg _ (hm ▸ hr)) hm

/-- The pending writes of two results of the same values. -/
theorem apply {r r' : Results} (hr : SameValueResults s.modulus r r') : SameValues (r.apply s) (r'.apply t) := by
  obtain ⟨hback, hdest, hca, hcd, hresult, hdata⟩ := hr
  exact
    { params := by simpa using h.params
      regs := fun i => by
        have hregs := h.setRegs rfl (List.rel_append hback hdest)
        obtain ⟨v, hv⟩ := setRegs_eq s (r.writeBacks ++ r.dests)
        have hi := hregs.regs i
        rw [apply_reg, apply_reg, apply_modulus]
        rwa [show (s.setRegs (r.writeBacks ++ r.dests)).modulus = s.modulus by rw [hv]; rfl] at hi
      ca := by simpa using getD_of_rel hca h.ca
      cd := by simpa using getD_of_rel hcd h.cd
      arg := by simpa using h.arg
      result := by simp [hresult, h.result]
      data := by simp [hdata, h.data]
      done := by simpa using h.done
      err := by simpa using h.err
      ecode := by simpa using h.ecode
      ie := by simpa using h.ie
      inflight := by simpa using h.inflight
      agenda := by simpa using h.agenda
      readData := by simpa using h.readData }

theorem complete : SameValues (complete s) (complete t) := by
  have hf := h.inflight
  unfold Machine.complete
  generalize s.inflight = a at hf
  generalize t.inflight = b at hf
  cases hf with
  | none => exact h
  | some hfg => exact { h.apply hfg.2 with inflight := .none, done := rfl }

/-! ### Issue -/

/-- Two issues that fail the same check, or put results of the same values in flight. -/
theorem issue {op : Instr} {f : Option ErrorCode} {r r' : Results} (hr : f = none → SameValueResults s.modulus r r') :
    SameOutcome SameValues (issue op f r s) (issue op f r' t) := by
  refine h.gate ?_
  cases f with
  | none => exact { h with inflight := .some ⟨rfl, hr rfl⟩ }
  | some e => exact h.raiseError e

/-! ### Host accesses -/

theorem statusWord : s.statusWord = t.statusWord := by simp only [State.statusWord, h.busy, h.done, h.err, h.ecode]

theorem readWindow (off : Nat) : readWindow off s = readWindow off t := by
  simp only [Machine.readWindow, h.modulus, State.ctrlWord, h.ie, h.statusWord, h.arg, h.result, h.data]

theorem setReadData {v v' : Word} (hv : v = v') : SameValues (s.setReadData v) (t.setReadData v') := { h with readData := hv }

theorem hostAccess (addr bytes : Nat) {effect effect' : Nat → Outcome}
    (heffect : ∀ off, SameOutcome SameValues (effect off) (effect' off)) :
    SameOutcome SameValues (hostAccess addr bytes s effect) (hostAccess addr bytes t effect') := by
  unfold Machine.hostAccess inWindow
  rw [← h.params]
  split
  · split
    · exact heffect _
    · rfl
  · rfl

theorem writeCtrl (v : Word) : SameValues (writeCtrl v s) (writeCtrl v t) := by
  unfold Machine.writeCtrl
  split
  · exact h.resetFapu
  · split
    · exact { h.setError false 0 with ie := rfl }
    · exact { h with ie := rfl }

theorem writeStatus (v : Word) : SameValues (writeStatus v s) (writeStatus v t) := by
  unfold Machine.writeStatus
  split
  · exact { h with done := rfl }
  · exact h

end SameValues

namespace AlikeStates

variable {s t : State} (h : AlikeStates s t)
include h

theorem exec (i : Instr) : SameOutcome SameValues (exec i s) (exec i t) := by
  obtain ⟨f, r, r', hs, ht, hr⟩ := exec_alike h i
  rw [hs, ht]
  exact h.same.issue fun hf => (hr hf).sameValueResults

theorem writeCmd (v : Word) : SameOutcome SameValues (writeCmd v s) (writeCmd v t) := by
  unfold Machine.writeCmd
  split
  · exact h.exec _
  · exact h.same.gate (h.same.raiseError .illegal)

theorem writeWindow (off : Nat) (v : Word) : SameOutcome SameValues (writeWindow off v s) (writeWindow off v t) := by
  have hsame := h.same
  unfold Machine.writeWindow
  split
  · exact hsame.writeCtrl v
  split
  · exact hsame.writeStatus v
  split
  · exact h.writeCmd v
  split
  · exact hsame.unlessBusy { hsame with arg := rfl }
  split
  · exact hsame.unlessBusy { hsame with data := congrArg (Memory.writeWord · _ v) hsame.data }
  · exact hsame

theorem takeTurn (a : Turn) : SameOutcome SameValues (takeTurn a s) (takeTurn a t) := by
  cases a with
  | read addr bytes =>
    simp only [Machine.takeTurn, busRead]
    refine h.same.hostAccess addr bytes fun off => ?_
    exact h.same.setReadData (h.same.readWindow off)
  | write addr bytes v => exact h.same.hostAccess addr bytes fun off => h.writeWindow off v
  | complete => exact h.same.complete
  | hardReset => exact h.same.resetFapu

end AlikeStates

/-- Settles O58: the two agendas are one, and `AlikeStates.takeTurn` is the step of the simulation. -/
theorem hostsSeeValuesNotLimbs : Obligations.HostsSeeValuesNotLimbs := by
  intro s t hs ht h
  cases ha : s.agenda with
  | nil =>
    rw [step_of_empty ha, step_of_empty (h.agenda.symm.trans ha)]
    exact h.complete
  | cons a rest =>
    rw [step_of_turn ha, step_of_turn (h.agenda.symm.trans ha)]
    have hrest : AlikeStates (s.setAgenda rest) (t.setAgenda rest) := ⟨{ hs with }, { ht with }, { h with agenda := rfl }⟩
    exact hrest.takeTurn a

end Sys2Proof.Machine
end

section
/-! PROOFS. What each command writes, and what it therefore leaves unchanged from issue to completion (R23, R24, R131, R189). -/

namespace Sys2Proof.Machine

/-! ### A register after a list of writes -/

/-- Where all writes to a register write one record, that record remains. -/
theorem setRegs_reg_of_mem {s : State} {l : List (Slot × FieldReg)} {j : Slot} {r : FieldReg} (hj : j ∈ l.map Prod.fst)
    (hr : ∀ w ∈ l, w.1 = j → w.2 = r) : (s.setRegs l).reg j = r := by
  induction l generalizing s with
  | nil => cases hj
  | cons w l ih =>
    obtain ⟨i, x⟩ := w
    by_cases hlater : j ∈ l.map Prod.fst
    · exact ih hlater fun w hw => hr w (List.mem_cons_of_mem _ hw)
    · have hi : i = j := by
        rw [List.map_cons, List.mem_cons] at hj
        exact (hj.resolve_right hlater).symm
      rw [State.setRegs, setRegs_reg_of_notMem _ _ fun w hw he => hlater (List.mem_map.2 ⟨w, hw, he⟩), setReg_reg, if_pos hi]
      exact hr (i, x) List.mem_cons_self hi

/-- The completion of a command just put in flight. -/
theorem complete_setInflight (f : Inflight) (s : State) :
    complete (s.setInflight (some f)) = ((f.results.apply s).setInflight none).setDone true := by
  rw [complete_of_inflight (f := f) rfl, apply_setInflight]; rfl

/-- An issue whose command is in flight afterwards has passed its checks, and its results are those in flight. -/
theorem issue_eq_accepted {op : Instr} {f : Option ErrorCode} {r r' : Results} {s : State} (hs : s.Ready)
    (h : issue op f r s = .next (s.setInflight (some { op := op, results := r' }))) : f = none ∧ r = r' := by
  have hnone := hs.2
  have hidle {b : Bool} {c : BitVec 4} (he : s.setInflight (some { op := op, results := r' }) = s.setError b c) : False := by
    have := congrArg State.inflight he
    rw [setInflight_inflight, setError_inflight, hnone] at this
    cases this
  obtain ⟨herr, -⟩ | ⟨-, -, he⟩ | ⟨-, e, -, he⟩ | ⟨-, hf, ht⟩ := issue_cases h
  · rw [hs.1] at herr; cases herr
  · exact (hidle he).elim
  · exact (hidle he).elim
  · have := congrArg State.inflight ht
    simp only [setInflight_inflight, Option.some.injEq, Inflight.mk.injEq, true_and] at this
    exact ⟨hf, this.symm⟩

/-- The canonical vector of a normalized source, as its register holds it (R131). -/
theorem holdsCanonical_normalize {m : ModulusId} {w : List Int} (h : lazyForm m w = true) :
    (fieldReg (normalize m w)).HoldsCanonical m (val m w) := by
  have hw : toInts (fieldReg (normalize m w)).limbs = normalize m w := toInts_toLimbs_of_lazyForm m (lazyForm_normalize h)
  refine ⟨rfl, rfl, ?_, ?_⟩
  · rw [hw]; exact canonical_normalize h
  · rw [hw]; exact vInt_normalize h

/-! ### What the results of a command may write -/

/-- The results write the command's destinations, its normalized sources, and of CA, CD, RESULT and DATA only what the command is
for. Each part has its usual proof as default, so a command names only what is its own. -/
structure WritesOnly (i : Instr) (s : State) (r : Results) : Prop where
  dests : r.dests.map Prod.fst = i.destinations := by rfl
  writeBacks : r.writeBacks = i.writtenBack.map (fun j => (j, fieldReg (normalize s.modulus (s.ints j)))) := by rfl
  ca : (∀ a, i ≠ .seta a) → r.ca = none := by exact fun _ => rfl
  cd : (∀ a, i ≠ .setd a) → r.cd = none := by exact fun _ => rfl
  result : (∀ a b, i ≠ .eq a b) → (∀ a, i ≠ .bit a) → (∀ d a, i ≠ .leg d a) → r.result = none := by exact fun _ _ _ => rfl
  data : (∀ a, i ≠ .pack a) → r.data = none := by exact fun _ => rfl
  mask : ∀ w ∈ r.dests, w.2.tag = .mask → i = .fill w.1 ∨ ∃ a, i = .mov w.1 a ∧ (s.reg a).tag = .mask := by
    simp [writeField, writePoint, fieldReg]

/-- The command is an issue whose results write only what they may, its normalized sources being checked ones. -/
def ExecWritesOnly (i : Instr) (s : State) : Prop :=
  ∃ f r, exec i s = issue i f r s ∧ WritesOnly i s r ∧ (f = none → ∀ j ∈ i.writtenBack, s.FieldAt j)

section

variable {i : Instr} {f : Option ErrorCode} {r : Results} {s : State}

/-- A command without normalized sources. -/
theorem ExecWritesOnly.plain (hx : exec i s = issue i f r s) (hw : WritesOnly i s r) (hb : i.writtenBack = []) : ExecWritesOnly i s :=
  ⟨f, r, hx, hw, fun _ j hj => by rw [hb] at hj; cases hj⟩

/-- A command whose normalized sources are among its F sources. -/
theorem ExecWritesOnly.normalizing (sources : List Source) (hx : exec i s = issue i f r s) (hw : WritesOnly i s r)
    (hf : f = none → operandError sources s = none) (hb : ∀ j ∈ i.writtenBack, Source.field j ∈ sources) : ExecWritesOnly i s :=
  ⟨f, r, hx, hw, fun h j hj => operandError_eq_none_iff.1 (hf h) _ (hb j hj)⟩

end

/-- What each command writes, read off its results. -/
theorem exec_writesOnly (i : Instr) (s : State) : ExecWritesOnly i s := by
  cases i with
  | nop => exact .plain (f := none) rfl {} rfl
  | mov d a => exact .plain rfl { mask := by simp } rfl
  | ldc d k => exact .plain (f := none) rfl {} rfl
  | unpack d => exact .plain (f := none) rfl {} rfl
  | pack a => exact .normalizing [.field a] rfl { data := fun h => (h a rfl).elim } id (by simp [Instr.writtenBack])
  | norm d => exact .plain rfl {} rfl
  | add d a b => exact .plain rfl {} rfl
  | sub d a b => exact .plain rfl {} rfl
  | neg d a => exact .plain rfl {} rfl
  | sadd d a => exact .plain rfl {} rfl
  | ssub d a => exact .plain rfl {} rfl
  | smul d a => exact .plain rfl {} rfl
  | mul d a b => exact .plain rfl {} rfl
  | sqr d a => exact .plain rfl {} rfl
  | inv d a => exact .plain rfl {} rfl
  | div d a b => exact .plain rfl {} rfl
  | leg d a => exact .plain rfl { result := fun _ _ h => (h d a rfl).elim } rfl
  | sqrt d a => exact .plain rfl {} rfl
  | eq a b =>
    exact .normalizing [.field a, .field b] rfl { result := fun h _ _ => (h a b rfl).elim } id (by simp [Instr.writtenBack])
  | bit a =>
    exact .normalizing [.field a] rfl { result := fun _ h _ => (h a rfl).elim } (fun hf => (Option.or_eq_none_iff.1 hf).1)
      (by simp [Instr.writtenBack])
  | fill d => exact .plain (f := none) rfl { mask := by simp } rfl
  | andm d a k => exact .normalizing [.field a, .mask k] rfl {} id (by simp [Instr.writtenBack])
  | orm d a b => exact .normalizing [.field a, .field b] rfl {} id (by simp [Instr.writtenBack])
  | csel d a b k => exact .normalizing [.field a, .field b, .mask k] rfl {} id (by simp [Instr.writtenBack])
  | seta a => exact .plain rfl { ca := fun h => (h a rfl).elim } rfl
  | setd a => exact .plain rfl { cd := fun h => (h a rfl).elim } rfl
  | pzero d => exact .plain (f := none) rfl {} rfl
  | pinit d a b => exact .plain rfl {} rfl
  | padd d a b => exact .plain rfl {} rfl
  | pdbl d a => exact .plain rfl {} rfl
  | ptpl d a => exact .plain rfl {} rfl
  | pmul d a b => exact .normalizing [.point a, .field b, .curve] rfl {} id (by simp [Instr.writtenBack])

/-! ### The frame of an accepted command -/

/-- Every pending register of a command accepted in a state with the invariant is valid. -/
theorem dests_valid {i : Instr} {s : State} {r : Results} (hs : s.Inv) (hr : s.Ready)
    (hx : exec i s = .next (s.setInflight (some { op := i, results := r }))) :
    ∀ w ∈ r.writeBacks ++ r.dests, w.2.valid = true := by
  obtain ⟨f, r', _, hx', -, hok⟩ := exec_alike ⟨hs, hs, SameValues.refl s⟩ i
  obtain ⟨hf, rfl⟩ := issue_eq_accepted hr (hx'.symm.trans hx)
  intro w hw
  exact (((Results.ok_iff _ _).1 (hok hf).ok).1 w hw).2

section

variable {i : Instr} {s : State} {r : Results} (hw : WritesOnly i s r)
include hw

theorem WritesOnly.notMem {j : Slot} (hd : j ∉ i.destinations) : ∀ w ∈ r.dests, w.1 ≠ j := fun w hmem he =>
  hd (hw.dests ▸ List.mem_map.2 ⟨w, hmem, he⟩)

theorem WritesOnly.writeBack_eq {w : Slot × FieldReg} (hmem : w ∈ r.writeBacks) :
    w.1 ∈ i.writtenBack ∧ w.2 = fieldReg (normalize s.modulus (s.ints w.1)) := by
  rw [hw.writeBacks, List.mem_map] at hmem
  obtain ⟨j, hj, rfl⟩ := hmem
  exact ⟨hj, rfl⟩

/-- A register that is neither a destination nor a normalized source keeps its contents. -/
theorem WritesOnly.reg_kept {j : Slot} (hd : j ∉ i.destinations) (hb : j ∉ i.writtenBack) :
    (s.setRegs (r.writeBacks ++ r.dests)).reg j = s.reg j := by
  refine setRegs_reg_of_notMem _ _ fun w hmem => ?_
  obtain hmem | hmem := List.mem_append.1 hmem
  · exact fun he => hb (he ▸ (hw.writeBack_eq hmem).1)
  · exact hw.notMem hd w hmem

/-- A normalized source that is no destination gets its canonical vector. -/
theorem WritesOnly.reg_normalized {j : Slot} (hd : j ∉ i.destinations) (hb : j ∈ i.writtenBack) :
    (s.setRegs (r.writeBacks ++ r.dests)).reg j = fieldReg (normalize s.modulus (s.ints j)) := by
  rw [setRegs_append, setRegs_reg_of_notMem _ _ (hw.notMem hd)]
  refine setRegs_reg_of_mem ?_ fun w hmem he => he ▸ (hw.writeBack_eq hmem).2
  rw [hw.writeBacks, List.map_map]
  exact List.mem_map.2 ⟨j, hb, rfl⟩

/-- A MASK tag comes from FILL, or from MOV of a Mask, alone. -/
theorem WritesOnly.reg_mask {j : Slot} (ht : ((s.setRegs (r.writeBacks ++ r.dests)).reg j).tag = .mask) :
    (s.reg j).tag = .mask ∨ i = .fill j ∨ ∃ a, i = .mov j a ∧ (s.reg a).tag = .mask := by
  obtain ⟨w, hmem, rfl, hreg⟩ | hreg := setRegs_reg_cases s (r.writeBacks ++ r.dests) j
  · rw [hreg] at ht
    obtain hmem | hmem := List.mem_append.1 hmem
    · rw [(hw.writeBack_eq hmem).2] at ht; cases ht
    · exact .inr (hw.mask w hmem ht)
  · exact .inl (hreg ▸ ht)

end

/-- Settles O31: a rejected command changes ERR and ECODE alone; an accepted one applies results that `exec_writesOnly` describes. -/
theorem commandsWriteOnlyTheirDestinations : Obligations.CommandsWriteOnlyTheirDestinations := by
  intro i s t hs hr hx
  obtain ⟨f, r, hi, hw, hfield⟩ := exec_writesOnly i s
  obtain ⟨herr, -⟩ | ⟨-, hbusy, -⟩ | ⟨-, e, -, rfl⟩ | ⟨-, hf, rfl⟩ := issue_cases (hi.symm.trans hx)
  · rw [hr.1] at herr; cases herr
  · rw [State.busy, hr.2] at hbusy; cases hbusy
  · rw [complete_of_idle (s := s.setError true e.code) hr.2]
    exact ⟨fun _ _ _ => rfl, fun _ _ _ h => (h hr.2).elim, fun _ => rfl, fun _ => rfl, fun _ _ _ => rfl, fun _ _ => rfl, rfl, rfl,
      rfl, rfl, rfl, fun _ => .inl, fun _ => id⟩
  · have hreg (j : Slot) : (complete (s.setInflight (some { op := i, results := r }))).reg j =
        (s.setRegs (r.writeBacks ++ r.dests)).reg j := by
      rw [complete_setInflight, setDone_reg, setInflight_reg, apply_reg]
    simp only [hreg]
    simp only [complete_setInflight, setDone_ca, setDone_cd, setDone_result, setDone_data, setDone_arg, setDone_ie, setDone_params,
      setDone_agenda, setDone_readData, setInflight_ca, setInflight_cd, setInflight_result, setInflight_data, setInflight_arg,
      setInflight_ie, setInflight_params, setInflight_agenda, setInflight_readData, apply_ca, apply_cd, apply_result, apply_data,
      apply_arg, apply_ie, apply_params, apply_agenda, apply_readData]
    refine ⟨fun j => hw.reg_kept, fun j hd hb _ => ?_, fun h => ?_, fun h => ?_, fun h h' h'' => ?_, fun h j => ?_, trivial, trivial, trivial,
      trivial, trivial, fun j => hw.reg_mask, fun j hv => ?_⟩
    · rw [hw.reg_normalized hd hb]
      obtain ⟨hvalid, htag⟩ := hfield hf j hb
      exact holdsCanonical_normalize (FieldReg.lazyForm_of_ok (hs.regs j) hvalid htag)
    · rw [hw.ca h]; rfl
    · rw [hw.cd h]; rfl
    · rw [hw.result h h' h'']; rfl
    · rw [hw.data h]; rfl
    · obtain ⟨w, hmem, -, hreg⟩ | hreg := setRegs_reg_cases s (r.writeBacks ++ r.dests) j
      · rw [hreg]; exact dests_valid hs hr hx w hmem
      · rw [hreg]; exact hv

end Sys2Proof.Machine
end

section
/-! PROOFS. The extension invariant X·Y = Z·T modulo p of every point a command writes (R27, R146 to R159). -/

namespace Sys2Proof.Machine

/-! ### Points that satisfy the invariant -/

/-- X·Y ≡ Z·T modulo p (R27). -/
def Point.Extended (m : ModulusId) (P : Point) : Prop := vInt m P.X * vInt m P.Y ≡ vInt m P.Z * vInt m P.T [ZMOD (m.p : Int)]

theorem vInt_fieldMul_modEq (m : ModulusId) (x y : List Int) : vInt m (fieldMul m x y) ≡ vInt m x * vInt m y [ZMOD (m.p : Int)] :=
  val_reduce m _

theorem vInt_normalize_modEq {m : ModulusId} {w : List Int} (h : lazyForm m w = true) :
    vInt m (normalize m w) ≡ vInt m w [ZMOD (m.p : Int)] := val_normalize h

theorem extended_identity (m : ModulusId) : (identityPoint m).Extended m := by
  simp [Point.Extended, identityPoint]

theorem extended_lift (m : ModulusId) (x y : List Int) : (liftPoint m x y).Extended m := by
  simpa [Point.Extended, liftPoint] using (vInt_fieldMul_modEq m x y).symm

/-- (E·F)(G·H) = (F·G)(E·H): both point formulas end so. -/
theorem extended_product (m : ModulusId) (E F G H : List Int) : (productPoint m E F G H).Extended m := by
  have hXY := (vInt_fieldMul_modEq m E F).mul (vInt_fieldMul_modEq m G H)
  have hZT := (vInt_fieldMul_modEq m F G).mul (vInt_fieldMul_modEq m E H)
  have hperm : vInt m E * vInt m F * (vInt m G * vInt m H) = vInt m F * vInt m G * (vInt m E * vInt m H) := by ring
  rw [hperm] at hXY
  exact hXY.trans hZT.symm

theorem extended_add (m : ModulusId) (ca cd : List Int) (P Q : Point) : (pointAdd m ca cd P Q).Extended m :=
  extended_product m _ _ _ _

theorem extended_double (m : ModulusId) (ca : List Int) (P : Point) : (pointDouble m ca P).Extended m :=
  extended_product m _ _ _ _

/-- Normalizing the coordinates keeps the invariant, so a csel of two points has it too. -/
theorem extended_csel {m : ModulusId} {P Q : Point} (hP : AlikePoint m P P) (hQ : AlikePoint m Q Q) (hPe : P.Extended m)
    (hQe : Q.Extended m) (b : Bool) : (pointCsel m P Q (List.replicate m.limbCount (maskWord b))).Extended m := by
  have normalized {R : Point} (hR : AlikePoint m R R) (hRe : R.Extended m) :
      vInt m (normalize m R.X) * vInt m (normalize m R.Y) ≡ vInt m (normalize m R.Z) * vInt m (normalize m R.T)
        [ZMOD (m.p : Int)] :=
    ((vInt_normalize_modEq hR.X.lazyLeft).mul (vInt_normalize_modEq hR.Y.lazyLeft)).trans
      (hRe.trans ((vInt_normalize_modEq hR.Z.lazyLeft).mul (vInt_normalize_modEq hR.T.lazyLeft)).symm)
  simp only [Point.Extended, pointCsel, fieldCsel_mask hP.X.lazyLeft hQ.X.lazyLeft, fieldCsel_mask hP.Y.lazyLeft hQ.Y.lazyLeft,
    fieldCsel_mask hP.Z.lazyLeft hQ.Z.lazyLeft, fieldCsel_mask hP.T.lazyLeft hQ.T.lazyLeft]
  cases b
  · exact normalized hQ hQe
  · exact normalized hP hPe

theorem extended_ladderSteps {m : ModulusId} {ca cd : List Int} (ha : AlikeVec m ca ca) (hd : AlikeVec m cd cd) (K : Int) (i : Nat)
    {r : Point × Point} (h0 : AlikePoint m r.1 r.1) (h1 : AlikePoint m r.2 r.2) (he : r.1.Extended m) :
    (ladderSteps m ca cd K i r).1.Extended m := by
  induction i generalizing r with
  | zero => exact he
  | succ i ih =>
    obtain ⟨h0', h1'⟩ := alikePoint_ladderStep ha hd (bitOf K i == 1) h0 h1
    exact ih h0' h1' (extended_csel (alikePoint_add ha hd h0 h1) (alikePoint_double ha h0) (extended_add m ca cd _ _)
      (extended_double m ca _) _)

theorem extended_ladder {m : ModulusId} {ca cd : List Int} (ha : AlikeVec m ca ca) (hd : AlikeVec m cd cd) (K : Int) {P : Point}
    (hP : AlikePoint m P P) : (ladder m ca cd K P).Extended m :=
  extended_ladderSteps ha hd K m.n alikePoint_identity hP (extended_identity m)

/-! ### The commands that write a point -/

/-- The command's results write a lazy-form point with the invariant to P[d]. -/
def WritesExtended (i : Instr) (d : Slot) (s : State) : Prop :=
  ∃ f r Q, exec i s = issue i f r s ∧ r.dests = writePoint d Q ∧ (f = none → AlikePoint s.modulus Q Q ∧ Q.Extended s.modulus)

theorem writesExtended_pzero (s : State) (d : Slot) : WritesExtended (.pzero d) d s :=
  ⟨none, _, _, rfl, rfl, fun _ => ⟨alikePoint_identity, extended_identity _⟩⟩

section

variable {s : State} (h : AlikeStates s s) (d : Slot)
include h

theorem writesExtended_pinit (a b : Slot) : WritesExtended (.pinit d a b) d s :=
  ⟨_, _, _, rfl, rfl, fun hf => by
    have hf := operandError_eq_none_iff.1 hf
    exact ⟨alikePoint_lift (h.field hf (.head _)) (h.field hf (.tail _ (.head _))), extended_lift _ _ _⟩⟩

theorem writesExtended_padd (a b : Slot) : WritesExtended (.padd d a b) d s :=
  ⟨_, _, _, rfl, rfl, fun hf => by
    have hf := operandError_eq_none_iff.1 hf
    obtain ⟨hca, hcd⟩ := h.curve hf (.tail _ (.tail _ (.head _)))
    exact ⟨alikePoint_add hca hcd (h.point hf (.head _)) (h.point hf (.tail _ (.head _))), extended_add _ _ _ _ _⟩⟩

theorem writesExtended_pdbl (a : Slot) : WritesExtended (.pdbl d a) d s :=
  ⟨_, _, _, rfl, rfl, fun hf => by
    have hf := operandError_eq_none_iff.1 hf
    obtain ⟨hca, -⟩ := h.curve hf (.tail _ (.head _))
    exact ⟨alikePoint_double hca (h.point hf (.head _)), extended_double _ _ _⟩⟩

theorem writesExtended_ptpl (a : Slot) : WritesExtended (.ptpl d a) d s :=
  ⟨_, _, _, rfl, rfl, fun hf => by
    have hf := operandError_eq_none_iff.1 hf
    obtain ⟨hca, hcd⟩ := h.curve hf (.tail _ (.head _))
    have ha := h.point hf (.head _)
    exact ⟨alikePoint_add hca hcd (alikePoint_double hca ha) ha, extended_add _ _ _ _ _⟩⟩

theorem writesExtended_pmul (a b : Slot) : WritesExtended (.pmul d a b) d s :=
  ⟨_, _, _, rfl, rfl, fun hf => by
    have hf := operandError_eq_none_iff.1 hf
    obtain ⟨hca, hcd⟩ := h.curve hf (.tail _ (.tail _ (.head _)))
    have ha := h.point hf (.head _)
    exact ⟨alikePoint_ladder hca hcd _ ha, extended_ladder hca hcd _ ha⟩⟩

end

/-! ### The point registers after the completion -/

/-- A command that runs has passed its checks, and its pending writes are what the run changes. -/
theorem Runs.eq_apply {i : Instr} {s u : State} {f : Option ErrorCode} {r : Results} (hs : s.Ready) (hx : exec i s = issue i f r s)
    (h : Runs i s u) : f = none ∧ u = ((r.apply s).setInflight none).setDone true := by
  obtain ⟨_, hex, ⟨r', rfl⟩, rfl⟩ := h
  obtain ⟨hf, rfl⟩ := issue_eq_accepted hs (hx.symm.trans hex)
  exact ⟨hf, complete_setInflight _ s⟩

theorem coordSlot_inj {k : Slot} {i j : Fin 4} : coordSlot k i = coordSlot k j ↔ i = j := by
  simp only [coordSlot, Fin.ext_iff]
  omega

/-- The four registers of P[d] after a point is written to it. -/
theorem setRegs_writePoint_reg (s : State) (d : Slot) (Q : Point) :
    (s.setRegs (writePoint d Q)).reg (coordSlot d 0) = fieldReg Q.X ∧
      (s.setRegs (writePoint d Q)).reg (coordSlot d 1) = fieldReg Q.Y ∧
      (s.setRegs (writePoint d Q)).reg (coordSlot d 2) = fieldReg Q.Z ∧
      (s.setRegs (writePoint d Q)).reg (coordSlot d 3) = fieldReg Q.T := by
  refine ⟨?_, ?_, ?_, ?_⟩ <;> simp [writePoint, State.setRegs, setReg_reg, coordSlot_inj]

theorem fieldReg_toInts {m : ModulusId} {w : List Int} (h : AlikeVec m w w) : toInts (fieldReg w).limbs = w :=
  toInts_toLimbs_of_lazyForm m h.lazyLeft

/-- P[d] after the pending writes of a command that writes the lazy-form point Q. -/
theorem apply_point {m : ModulusId} {s : State} {r : Results} {d : Slot} {Q : Point} (hr : r.dests = writePoint d Q)
    (hQ : AlikePoint m Q Q) : (r.apply s).point d = Q := by
  obtain ⟨hX, hY, hZ, hT⟩ := setRegs_writePoint_reg (s.setRegs r.writeBacks) d Q
  simp only [State.point, State.ints, apply_reg, setRegs_append, hr, hX, hY, hZ, hT, fieldReg_toInts hQ.X, fieldReg_toInts hQ.Y,
    fieldReg_toInts hQ.Z, fieldReg_toInts hQ.T]

/-- What P[d] represents modulo p satisfies the invariant where its limb vectors do. -/
theorem ringPoint_extended {u : State} {d : Slot} (h : (u.point d).Extended u.modulus) :
    (u.ringPoint d).X * (u.ringPoint d).Y = (u.ringPoint d).Z * (u.ringPoint d).T := by
  have hz := (ZMod.intCast_eq_intCast_iff _ _ _).2 h
  push_cast at hz
  exact hz

/-- Settles O56: each of the six commands writes a point of the form (E·F, G·H, F·G, E·H), the identity, a lift, or a csel of such
points. -/
theorem writtenPointsSatisfyTheExtensionInvariant : Obligations.WrittenPointsSatisfyTheExtensionInvariant := by
  intro s u i d hs hr hi hrun
  have h : AlikeStates s s := ⟨hs, hs, .refl s⟩
  have hw : WritesExtended i d s := by
    obtain rfl | ⟨a, b, rfl⟩ | ⟨a, b, rfl⟩ | ⟨a, rfl⟩ | ⟨a, rfl⟩ | ⟨a, b, rfl⟩ := hi
    · exact writesExtended_pzero s d
    · exact writesExtended_pinit h d a b
    · exact writesExtended_padd h d a b
    · exact writesExtended_pdbl h d a
    · exact writesExtended_ptpl h d a
    · exact writesExtended_pmul h d a b
  obtain ⟨f, r, Q, hx, hdests, hQ⟩ := hw
  obtain ⟨hf, rfl⟩ := hrun.eq_apply hr hx
  obtain ⟨hlazy, hext⟩ := hQ hf
  refine ringPoint_extended ?_
  have hpoint : (((r.apply s).setInflight none).setDone true).point d = Q := apply_point hdests hlazy
  rw [hpoint, setDone_modulus, setInflight_modulus, apply_modulus]
  exact hext

end Sys2Proof.Machine
end

section
/-! PROOFS. The host register window (20_memory.md): an equation for each register's read and write (R49 to R58), the accesses that
have no step (R46, R47), and the CMD write that runs a command (R54). -/

namespace Sys2Proof

/-- What `checked` accepts, the converse of `checked_eq_ok`. -/
theorem checked_of_fields {w : Word} {unused points selectors : List Slot} (i : Instr) (hz : zField w = 0)
    (hu : ∀ k ∈ unused, k = 0) (hp : ∀ k ∈ points, pointSlotOk k = true) (hs : ∀ k ∈ selectors, selectorSlotOk k = true) :
    checked w unused points selectors i = .ok i := by
  have hu' : unused.any (fun k => k != 0) = false := by simpa using hu
  have hp' : points.any (fun k => !pointSlotOk k) = false := by simpa using hp
  have hs' : selectors.any (fun k => !selectorSlotOk k) = false := by simpa using hs
  simp [checked, hz, hu', hp', hs']

/-- The opcode of the assembled word selects the command's row of the decoder, which finds the operands in their slots and the
unused slots zero; what it still checks of point and selector slots is `Instr.wellFormed`. -/
theorem decode_encode_of_wellFormed {i : Instr} (h : i.wellFormed = true) : decode (encode i) = .ok i := by
  cases i <;> simp only [Instr.wellFormed, Bool.and_eq_true, and_assoc] at h <;>
    simp (disch := decide) only [encode, decode, opField_commandWord, slotD_commandWord, slotA_commandWord,
      slotB_commandWord, slotM_commandWord] <;>
    exact checked_of_fields _ (zField_commandWord (by decide) _ _ _ _) (by simp) (by simp [h]) (by simp [h])

end Sys2Proof

namespace Sys2Proof.Machine

/-! ### Accesses (R46, R47) -/

theorem takeTurn_readAt {off : Nat} (h4 : off % 4 = 0) (h : off ≤ 0xFFC) (s : State) :
    takeTurn (s.readAt off) s = .next (s.setReadData (readWindow off s)) := takeTurn_read (by omega) h4 s

theorem takeTurn_writeAt {off : Nat} (h4 : off % 4 = 0) (h : off ≤ 0xFFC) (v : Word) (s : State) :
    takeTurn (s.writeAt off v) s = writeWindow off v s := takeTurn_write (by omega) h4 v s

theorem hostAccess_of_unaligned {s : State} {addr bytes : Nat} (hin : addr / 4096 = s.params.basePage)
    (hno : bytes ≠ 4 ∨ addr % 4 ≠ 0) (effect : Nat → Outcome) : hostAccess addr bytes s effect = .refused .notAlignedWord := by
  have hw : inWindow s addr = true := by simp [inWindow, hin]
  have hb : ¬ (bytes = 4 ∧ windowOffset addr % 4 = 0) := by rw [windowOffset]; omega
  rw [hostAccess, if_pos hw, if_neg hb]

theorem hostAccess_of_outside {s : State} {addr : Nat} (hout : addr / 4096 ≠ s.params.basePage) (bytes : Nat)
    (effect : Nat → Outcome) : hostAccess addr bytes s effect = .fault .outsideWindow := by
  have hw : ¬ inWindow s addr = true := by simpa [inWindow] using hout
  rw [hostAccess, if_neg hw]

/-- Settles O18: a read and a write reach the window through one access rule. -/
theorem accessesOutsideTheInterfaceStop : Obligations.AccessesOutsideTheInterfaceStop := by
  intro s addr bytes v
  simp only [takeTurn, busRead, busWrite]
  exact ⟨fun hin hno => ⟨hostAccess_of_unaligned hin hno _, hostAccess_of_unaligned hin hno _⟩,
    fun hout => ⟨hostAccess_of_outside hout bytes _, hostAccess_of_outside hout bytes _⟩⟩

/-! ### The register map (R49): what each read returns and each write does -/

section

variable (v : Word) (s : State)

@[simp] theorem readWindow_id : readWindow 0x000 s = BitVec.ofNat 32 (0x46500100 + s.modulus.number) := rfl
@[simp] theorem readWindow_ctrl : readWindow 0x004 s = s.ctrlWord := rfl
@[simp] theorem readWindow_status : readWindow 0x008 s = s.statusWord := rfl
@[simp] theorem readWindow_cmd : readWindow 0x00C s = 0 := rfl
@[simp] theorem readWindow_arg : readWindow 0x010 s = s.arg := rfl
@[simp] theorem readWindow_result : readWindow 0x014 s = s.result := rfl
@[simp] theorem readWindow_nbits : readWindow 0x018 s = BitVec.ofNat 32 s.modulus.n := rfl
@[simp] theorem readWindow_cval : readWindow 0x01C s = BitVec.ofNat 32 s.modulus.c := rfl
@[simp] theorem readWindow_nbytes : readWindow 0x020 s = BitVec.ofNat 32 ((s.modulus.n + 7) / 8) := rfl

@[simp] theorem writeWindow_ctrl : writeWindow 0x004 v s = .next (writeCtrl v s) := rfl
@[simp] theorem writeWindow_status : writeWindow 0x008 v s = .next (writeStatus v s) := rfl
@[simp] theorem writeWindow_cmd : writeWindow 0x00C v s = writeCmd v s := rfl
@[simp] theorem writeWindow_arg : writeWindow 0x010 v s = .next (writeArg v s) := rfl

end

section

variable {w : Nat} (hw : w ≤ 16) (s : State)
include hw

theorem readWindow_data : readWindow (0x040 + 4 * w) s = s.data.readWord w := by
  have hdiv : (0x040 + 4 * w - 0x040) / 4 = w := by omega
  simp (disch := omega) only [readWindow, if_neg, if_pos, hdiv]

theorem writeWindow_data (v : Word) : writeWindow (0x040 + 4 * w) v s = .next (writeData w v s) := by
  have hdiv : (0x040 + 4 * w - 0x040) / 4 = w := by omega
  simp (disch := omega) only [writeWindow, if_neg, if_pos, hdiv]

end

theorem readWindow_reserved {off : Nat} (h : ReservedOffset off) (s : State) : readWindow off s = 0 := by
  obtain ⟨-, h⟩ := h
  simp (disch := omega) only [readWindow, if_neg]

/-- No write rule names a reserved or a read-only offset. -/
theorem writeWindow_ignored {off : Nat} (h : ReservedOffset off ∨ ReadOnlyOffset off) (v : Word) (s : State) :
    writeWindow off v s = .next s := by
  unfold ReservedOffset ReadOnlyOffset at h
  simp (disch := omega) only [writeWindow, if_neg]

/-- The offsets of R50's writes are word offsets of the window. -/
theorem word_offset_of_ignored {off : Nat} (h : ReservedOffset off ∨ ReadOnlyOffset off) : off % 4 = 0 ∧ off ≤ 0xFFC := by
  unfold ReservedOffset ReadOnlyOffset at h; omega

/-- Settles O12: the reserved and read-only offsets are none of the offsets the register map gives a read or a write. -/
theorem reservedAndReadOnlyOffsets : Obligations.ReservedAndReadOnlyOffsets := by
  intro s off
  refine ⟨fun h => ?_, fun h v => ?_, fun h => ⟨_, takeTurn_readAt h.1 h.2 s⟩⟩
  · obtain ⟨h4, hle⟩ := word_offset_of_ignored (.inl h)
    rw [takeTurn_readAt h4 hle, readWindow_reserved h]
  · obtain ⟨h4, hle⟩ := word_offset_of_ignored h
    rw [takeTurn_writeAt h4 hle, writeWindow_ignored h]

/-! ### CTRL and STATUS (R52, R53) -/

/-- IE at bit 2. -/
theorem ctrlWord_eq_shift (s : State) : s.ctrlWord = (BitVec.ofBool s.ie).setWidth 32 <<< 2 := by
  cases h : s.ie <;> simp [State.ctrlWord, h, bit01]

/-- The four fields of STATUS do not overlap: their sum is their OR. -/
theorem statusWord_fields (busy done err : Bool) (ecode : BitVec 4) :
    BitVec.ofNat 32 (bit01 busy + 2 * bit01 done + 4 * bit01 err + 256 * ecode.toNat) =
      (BitVec.ofBool busy).setWidth 32 ||| ((BitVec.ofBool done).setWidth 32 <<< 1) |||
        ((BitVec.ofBool err).setWidth 32 <<< 2) ||| (ecode.setWidth 32 <<< 8) := by
  revert busy done err ecode; decide

/-- A CTRL write without SRST. -/
theorem writeCtrl_of_no_srst {v : Word} (hv : v.getLsbD 0 = false) (s : State) :
    writeCtrl v s =
      { s with err := if v.getLsbD 1 then false else s.err
               ecode := if v.getLsbD 1 then 0 else s.ecode
               ie := v.getLsbD 2 } := by
  cases h : v.getLsbD 1 <;> simp only [writeCtrl, hv, h] <;> rfl

theorem writeStatus_eq (v : Word) (s : State) :
    writeStatus v s = { s with done := if v.getLsbD 1 then false else s.done } := by
  cases h : v.getLsbD 1 <;> simp only [writeStatus, h] <;> rfl

/-- Settles O13: with SRST the write is the reset; without it, it touches ERR, ECODE and IE alone. -/
theorem ctrlRegister : Obligations.CtrlRegister := by
  intro s v
  refine ⟨fun hv => ⟨_, takeTurn_ctrl_srst s hv, atReset_resetFapu s, resetFapu_params s⟩, fun hv => ?_, ?_⟩
  · rw [takeTurn_writeAt rfl (by decide), writeWindow_ctrl, writeCtrl_of_no_srst hv]
  · rw [takeTurn_readAt rfl (by decide), readWindow_ctrl, ctrlWord_eq_shift]

/-- Settles O14: a STATUS write touches DONE alone; the word read is a sum of fields that do not overlap. -/
theorem statusRegister : Obligations.StatusRegister := by
  intro s v
  constructor
  · rw [takeTurn_writeAt rfl (by decide), writeWindow_status, writeStatus_eq]
  · rw [takeTurn_readAt rfl (by decide), readWindow_status, State.statusWord, statusWord_fields, State.busy]

/-! ### ARG and DATA (R55, R57): writes that are taken only while nothing is in flight -/

theorem unlessBusy_of_idle {s : State} (h : s.inflight = none) (u : State) : unlessBusy s u = u := by
  simp [unlessBusy, State.busy, h]

theorem unlessBusy_of_inflight {s : State} (h : s.inflight ≠ none) (u : State) : unlessBusy s u = raiseError .busy s := by
  rw [unlessBusy, if_pos (show s.busy = true from Option.isSome_iff_ne_none.2 h)]

theorem takeTurn_writeArg (s : State) (v : Word) : takeTurn (s.writeAt 0x010 v) s = .next (unlessBusy s (s.setArg v)) := by
  rw [takeTurn_writeAt rfl (by decide), writeWindow_arg, writeArg]

theorem takeTurn_writeData (s : State) {w : Nat} (hw : w ≤ 16) (v : Word) :
    takeTurn (s.writeAt (0x040 + 4 * w) v) s = .next (unlessBusy s (s.setData (s.data.writeWord w v))) := by
  rw [takeTurn_writeAt (by omega) (by omega), writeWindow_data hw, writeData]

theorem takeTurn_readData (s : State) {w : Nat} (hw : w ≤ 16) :
    takeTurn (s.readAt (0x040 + 4 * w)) s = .next (s.setReadData (s.data.readWord w)) := by
  rw [takeTurn_readAt (by omega) (by omega), readWindow_data hw]

/-- Settles O15: a write of ARG passes `unlessBusy`. -/
theorem argRegister : Obligations.ArgRegister := by
  intro s v
  refine ⟨fun h => ?_, fun h => ?_, ?_⟩
  · rw [takeTurn_writeArg, unlessBusy_of_idle h]; rfl
  · rw [takeTurn_writeArg, unlessBusy_of_inflight h]
  · rw [takeTurn_readAt rfl (by decide), readWindow_arg]

/-- Byte j of the word that DATAw reads as is DATA[4w+j]. -/
theorem Memory.extractLsb'_readWord (d : Memory) (w : Nat) {j : Nat} (hj : j < 4) :
    (d.readWord w).extractLsb' (8 * j) 8 = d.read (4 * w + j) := by
  have h0 := (d.read (4 * w)).isLt
  have h1 := (d.read (4 * w + 1)).isLt
  have h2 := (d.read (4 * w + 2)).isLt
  have h3 := (d.read (4 * w + 3)).isLt
  apply BitVec.eq_of_toNat_eq
  rw [BitVec.extractLsb'_toNat, Memory.readWord, BitVec.toNat_ofNat, Nat.shiftRight_eq_div_pow]
  interval_cases j <;> simp only [Nat.add_zero, Nat.reduceMul, Nat.reducePow] <;> omega

theorem Memory.readWord_eq_sum (d : Memory) (w : Nat) :
    d.readWord w = BitVec.ofNat 32 (∑ j ∈ Finset.range 4, (d.read (4 * w + j)).toNat * 2 ^ (8 * j)) := by
  simp [Memory.readWord, Finset.sum_range_succ]

/-- The four bytes that a DATAw write puts, least significant first. -/
theorem getD_bytes (v : Word) {k : Nat} (hk : k < 4) :
    [byteOf v 0, byteOf v 1, byteOf v 2, byteOf v 3].getD k 0 = v.extractLsb' (8 * k) 8 := by
  interval_cases k <;> rfl

theorem Memory.read_writeWord {d : Memory} (hd : d.wf = true) {w : Nat} (hw : w ≤ 16) (v : Word) (j : Nat) :
    (d.writeWord w v).read j = if 4 * w ≤ j ∧ j < 4 * w + 4 then v.extractLsb' (8 * (j - 4 * w)) 8 else d.read j := by
  rw [Memory.writeWord, Memory.read_writeBytes hd (by simp [dataSize]; omega)]
  exact ite_congr rfl (fun h => getD_bytes v (by omega)) (fun _ => rfl)

/-- Settles O16: the write by `Memory.read_writeWord`, whose premise, a canonical window, the invariant gives. -/
theorem dataWindow : Obligations.DataWindow := by
  intro s w v hs hw
  refine ⟨fun h => ⟨s.data.writeWord w v, ?_, Memory.read_writeWord hs.data hw v⟩, fun h => ?_, ?_⟩
  · rw [takeTurn_writeData s hw, unlessBusy_of_idle h]; rfl
  · rw [takeTurn_writeData s hw, unlessBusy_of_inflight h]
  · rw [takeTurn_readData s hw, Memory.readWord_eq_sum]

/-- Settles O11: each read is an equation of the register map, and the bytes of a DATA word are those it was read from. -/
theorem readsReturnTheRegisters : Obligations.ReadsReturnTheRegisters := by
  intro s
  refine ⟨?_, ?_, ?_, ?_, ?_, ?_, ?_, ⟨s.statusWord, ?_⟩, fun w hw =>
    ⟨s.data.readWord w, takeTurn_readData s hw, fun _ hj => Memory.extractLsb'_readWord s.data w hj⟩⟩
  · rw [takeTurn_readAt rfl (by decide), readWindow_id, BitVec.ofNat_add]; rfl
  all_goals simp [takeTurn_readAt]

/-! ### CMD (R54) -/

theorem writeCmd_of_decode {w : Word} {i : Instr} (h : decode w = .ok i) (s : State) : writeCmd w s = exec i s := by
  simp only [writeCmd, h]

theorem step_of_cmd {s : State} {w : Word} {i : Instr} {rest : List Turn} (ha : s.agenda = s.writeAt 0x00C w :: rest)
    (hd : decode w = .ok i) : step s = exec i (s.setAgenda rest) :=
  calc step s = takeTurn ((s.setAgenda rest).writeAt 0x00C w) (s.setAgenda rest) := step_of_turn ha
    _ = writeCmd w (s.setAgenda rest) := by rw [takeTurn_writeAt rfl (by decide), writeWindow_cmd]
    _ = exec i (s.setAgenda rest) := writeCmd_of_decode hd _

/-- `withFetchWord` of a 32-bit word is the host's CMD write of it, before the turns that were to come. -/
theorem withFetchWord_agenda (s : State) (w : Word) :
    (s.withFetchWord 32 w.toNat).agenda = (s.withFetchWord 32 w.toNat).writeAt 0x00C w :: s.agenda := by
  have hw : BitVec.ofNat 32 (w.toNat % 2 ^ 32) = w := by rw [Nat.mod_eq_of_lt w.isLt, BitVec.ofNat_toNat, BitVec.setWidth_eq]
  rw [State.withFetchWord, hw]; rfl

/-- Settles O28: the turn is a CMD write of a word that decodes to the command, by assumption or since it was assembled from it. -/
theorem aStepRunsTheDecodedCommand : Obligations.AStepRunsTheDecodedCommand :=
  ⟨fun _ _ _ _ ha hd => step_of_cmd ha hd,
    fun s i hi => step_of_cmd (withFetchWord_agenda s (encode i)) (decode_encode_of_wellFormed hi)⟩

end Sys2Proof.Machine
end

section
/-! PROOFS. The encoding (30_encoding.md): decoder and encoder are inverse to each other (R72, R80), and the decoder, the masks and
matches of the opcode table (R71) and its slot columns (R72, R74) accept the same words. -/

namespace Sys2Proof

open Machine

/-! ### Decoder and encoder (R72, R80) -/

/-- Settles O1: the decoder evaluated at the ten words. -/
theorem exampleWordsDecode : Obligations.ExampleWordsDecode := ⟨rfl, rfl, rfl, rfl, rfl, rfl, rfl, rfl, rfl, rfl⟩

/-- Settles O2: the decoder reads well-formed commands only, and reads each of them from its assembled word. -/
theorem decodeOfEncodeIsTheCommand : Obligations.DecodeOfEncodeIsTheCommand :=
  fun _ => ⟨wellFormed_of_decode, decode_encode_of_wellFormed⟩

/-- The word is assembled from its fields, of which the decoder has found the reserved bits and the command's unused slots zero. -/
theorem encode_of_decode {w : Word} {i : Instr} (h : decode w = .ok i) : encode i = w := by
  simp only [decode] at h
  split at h
  case h_33 => cases h
  all_goals
    rename_i hop
    obtain ⟨rfl, hz, hunused, -, -⟩ := checked_eq_ok h
    simp only [List.forall_mem_cons, List.not_mem_nil, false_implies, implies_true, and_true] at hunused
    refine Eq.trans ?_ (commandWord_fields hz)
    simp only [hop, hunused, encode]

/-- Settles O3: the word is assembled from its fields, and the decoder checks what `Instr.wellFormed` asks. -/
theorem encodeOfDecodeIsTheWord : Obligations.EncodeOfDecodeIsTheWord :=
  fun _ _ h => ⟨encode_of_decode h, wellFormed_of_decode h⟩

/-! ### A mask and match test, field by field (R68, R71) -/

/-- The six fields of a word, op d a b m z. -/
def wordFields (w : Word) : Nat × Slot × Slot × Slot × Slot × Nat := (opField w, slotD w, slotA w, slotB w, slotM w, zField w)

theorem wordFields_injective : Function.Injective wordFields := by
  intro w v h
  simp only [wordFields, Prod.mk.injEq] at h
  obtain ⟨hop, hd, ha, hb, hm, hz⟩ := h
  apply BitVec.eq_of_toNat_eq
  rw [toNat_eq_fields w, toNat_eq_fields v, hop, hd, ha, hb, hm, hz]

theorem opField_and (w v : Word) : opField (w &&& v) = opField w &&& opField v := by
  simp only [opField, BitVec.toNat_and, Nat.shiftRight_and_distrib]

theorem slotAt_and (lo : Nat) (w v : Word) : slotAt lo (w &&& v) = slotAt lo w &&& slotAt lo v := by
  apply Fin.ext
  simp only [slotAt, Fin.and_val, BitVec.toNat_and, Nat.shiftRight_and_distrib]
  exact Nat.and_mod_two_pow (n := 5)

theorem zField_and (w v : Word) : zField (w &&& v) = zField w &&& zField v := by
  rw [zField, BitVec.toNat_and]
  exact Nat.and_mod_two_pow (n := 6)

theorem wordFields_and (w v : Word) :
    wordFields (w &&& v) = (opField w &&& opField v, slotD w &&& slotD v, slotA w &&& slotA v, slotB w &&& slotB v,
      slotM w &&& slotM v, zField w &&& zField v) := by
  simp only [wordFields, opField_and, slotD, slotA, slotB, slotM, slotAt_and, zField_and]

/-! ### The opcode table and its slot columns (R69, R71, R72, R74) -/

/-- The bits of a slot that are 0 in every value the kind admits: the mask of a row covers these bits of the slot. -/
def Machine.SlotKind.zeroBits : SlotKind → Slot
  | .unused => 0b11111
  | .point => 0b11000
  | .selector => 0b11100
  | .field | .any | .mask => 0

theorem and_zeroBits_eq_zero_iff (k : SlotKind) (v : Slot) : v &&& k.zeroBits = 0 ↔ k.admits v = true := by
  cases k <;> revert v <;> decide

/-- Every slot of the word holds a value its kind admits. -/
def Machine.SlotRow.AdmitsSlots (q : SlotRow) (w : Word) : Prop :=
  q.d.admits (slotD w) = true ∧ q.a.admits (slotA w) = true ∧ q.b.admits (slotB w) = true ∧ q.m.admits (slotM w) = true

/-- The word has the row's opcode, slots that the row admits and zero reserved bits. -/
def Machine.SlotRow.Admits (q : SlotRow) (w : Word) : Prop := opField w = q.op ∧ q.AdmitsSlots w ∧ zField w = 0

/-- The mask of `r` covers op, z and the zero bits of each slot of `q`; its match holds the opcode of `q` and zeros. -/
abbrev OpcodeRow.HasSlots (r : OpcodeRow) (q : SlotRow) : Prop :=
  wordFields r.mask = (63, q.d.zeroBits, q.a.zeroBits, q.b.zeroBits, q.m.zeroBits, 63) ∧
    wordFields r.pattern = (q.op, 0, 0, 0, 0, 0)

theorem selects_iff_admits {r : OpcodeRow} {q : SlotRow} (h : r.HasSlots q) (w : Word) : r.selects w = true ↔ q.Admits w := by
  obtain ⟨hmask, hpattern⟩ := h
  simp only [wordFields, Prod.mk.injEq] at hmask
  obtain ⟨hop, hd, ha, hb, hm, hz⟩ := hmask
  have hopw : opField w &&& 63 = opField w := Nat.and_two_pow_sub_one_of_lt_two_pow (n := 6) (opField_lt w)
  have hzw : zField w &&& 63 = zField w := Nat.and_two_pow_sub_one_of_lt_two_pow (n := 6) (Nat.mod_lt _ (by decide))
  rw [OpcodeRow.selects, beq_iff_eq, ← wordFields_injective.eq_iff, wordFields_and, hpattern, hop, hd, ha, hb, hm, hz, hopw, hzw]
  simp only [Prod.mk.injEq, and_zeroBits_eq_zero_iff, SlotRow.Admits, SlotRow.AdmitsSlots, and_assoc]

/-- Each row of masks and matches agrees with a row of slot columns. -/
theorem exists_slotRow_of_opcodeRow : ∀ r ∈ opcodeTable, ∃ q ∈ slotTable, r.HasSlots q := by decide

/-- Each row of slot columns agrees with a row of masks and matches. -/
theorem exists_opcodeRow_of_slotRow : ∀ q ∈ slotTable, ∃ r ∈ opcodeTable, r.HasSlots q := by decide

/-- The masks and matches of R72 and its slot columns select the same words. -/
theorem exists_selects_iff_exists_admits (w : Word) :
    (∃ r ∈ opcodeTable, r.selects w = true) ↔ ∃ q ∈ slotTable, q.Admits w := by
  constructor
  · rintro ⟨r, hr, hsel⟩
    obtain ⟨q, hq, hrq⟩ := exists_slotRow_of_opcodeRow r hr
    exact ⟨q, hq, (selects_iff_admits hrq w).1 hsel⟩
  · rintro ⟨q, hq, hadm⟩
    obtain ⟨r, hr, hrq⟩ := exists_opcodeRow_of_slotRow q hq
    exact ⟨r, hr, (selects_iff_admits hrq w).2 hadm⟩

/-! ### The words the decoder accepts (R71, R72) -/

/-- What `checked` accepts. -/
theorem exists_checked_eq_ok_iff {w : Word} {unused points selectors : List Slot} {i : Instr} :
    (∃ j, checked w unused points selectors i = .ok j) ↔ zField w = 0 ∧ (∀ k ∈ unused, k = 0) ∧
      (∀ k ∈ points, pointSlotOk k = true) ∧ ∀ k ∈ selectors, selectorSlotOk k = true :=
  ⟨fun ⟨_, h⟩ => (checked_eq_ok h).2, fun ⟨hz, hu, hp, hs⟩ => ⟨i, checked_of_fields i hz hu hp hs⟩⟩

/-- The slots of the word that the row gives the kind `kind`, in slot order. -/
def Machine.SlotRow.slotsOf (q : SlotRow) (kind : SlotKind) (w : Word) : List Slot :=
  ([(q.d, slotD w), (q.a, slotA w), (q.b, slotB w), (q.m, slotM w)].filter (fun p => p.1 == kind)).map Prod.snd

theorem admits_iff {k : SlotKind} {v : Slot} : k.admits v = true ↔
    (k = .unused → v = 0) ∧ (k = .point → pointSlotOk v = true) ∧ (k = .selector → selectorSlotOk v = true) := by
  cases k <;> simp [SlotKind.admits, pointSlotOk, selectorSlotOk]

theorem forall_mem_slotsOf {q : SlotRow} {kind : SlotKind} {w : Word} {P : Slot → Prop} :
    (∀ k ∈ q.slotsOf kind w, P k) ↔ (q.d = kind → P (slotD w)) ∧ (q.a = kind → P (slotA w)) ∧ (q.b = kind → P (slotB w)) ∧
      (q.m = kind → P (slotM w)) := by
  simp [SlotRow.slotsOf, or_imp, forall_and, eq_comm (a := kind)]

/-- The checks of `checked`, made of the slots of each kind, are the row's. -/
theorem admitsSlots_iff {q : SlotRow} {w : Word} :
    q.AdmitsSlots w ↔ (∀ k ∈ q.slotsOf .unused w, k = 0) ∧ (∀ k ∈ q.slotsOf .point w, pointSlotOk k = true) ∧
      ∀ k ∈ q.slotsOf .selector w, selectorSlotOk k = true := by
  simp only [SlotRow.AdmitsSlots, admits_iff, forall_mem_slotsOf]
  tauto

/-- The decoder checks each slot of a word with the row's opcode as the kind that the row gives it. -/
theorem decode_eq_checked {w : Word} : ∀ q ∈ slotTable, opField w = q.op →
    ∃ i, decode w = checked w (q.slotsOf .unused w) (q.slotsOf .point w) (q.slotsOf .selector w) i := by
  simp only [slotTable, slotRowsLow, slotRowsMiddle, slotRowsHigh, List.forall_mem_append, List.forall_mem_cons, List.not_mem_nil,
    false_implies, implies_true, and_true]
  and_intros
  all_goals
    intro hop
    exact ⟨_, by simp only [decode, hop]; rfl⟩

/-- The opcodes that the decoder knows are those of the 32 rows. -/
theorem exists_op_of_decode {w : Word} {i : Instr} (h : decode w = .ok i) : ∃ q ∈ slotTable, opField w = q.op := by
  simp only [decode] at h
  split at h
  case h_33 => cases h
  all_goals
    rename_i hop
    rw [hop]
    decide

/-- The decoder accepts a word with the row's opcode when the row admits it. -/
theorem exists_decode_iff_of_op {q : SlotRow} {w : Word} (hq : q ∈ slotTable) (hop : opField w = q.op) :
    (∃ i, decode w = .ok i) ↔ q.Admits w := by
  obtain ⟨i, hi⟩ := decode_eq_checked q hq hop
  rw [hi, exists_checked_eq_ok_iff, ← admitsSlots_iff, and_comm]
  exact (and_iff_right hop).symm

/-- The decoder accepts the words that the slot columns of R72 admit. -/
theorem exists_decode_iff_exists_admits (w : Word) : (∃ i, decode w = .ok i) ↔ ∃ q ∈ slotTable, q.Admits w := by
  constructor
  · rintro ⟨i, hi⟩
    obtain ⟨q, hq, hop⟩ := exists_op_of_decode hi
    exact ⟨q, hq, (exists_decode_iff_of_op hq hop).1 ⟨i, hi⟩⟩
  · rintro ⟨q, hq, hadm⟩
    exact (exists_decode_iff_of_op hq hadm.1).2 hadm

/-- The decoder accepts the words that a row of the opcode table selects. -/
theorem exists_decode_iff_exists_selects (w : Word) : (∃ i, decode w = .ok i) ↔ ∃ r ∈ opcodeTable, r.selects w = true :=
  (exists_decode_iff_exists_admits w).trans (exists_selects_iff_exists_admits w).symm

theorem exists_error_iff {w : Word} : (∃ e, decode w = .error e) ↔ ¬ ∃ i, decode w = .ok i := by
  cases decode w <;> simp

/-- The decoder rejects the words that no row of the opcode table selects. -/
theorem exists_error_iff_forall_selects (w : Word) :
    (∃ e, decode w = .error e) ↔ ∀ r ∈ opcodeTable, r.selects w = false := by
  rw [exists_error_iff, exists_decode_iff_exists_selects]
  simp

/-- A row selects words with its own opcode only. -/
theorem op_eq_of_selects {r : OpcodeRow} (hr : r ∈ opcodeTable) {w : Word} (h : r.selects w = true) :
    opField w = opField r.pattern := by
  obtain ⟨q, -, hrq⟩ := exists_slotRow_of_opcodeRow r hr
  exact ((selects_iff_admits hrq w).1 h).1.trans (congrArg Prod.fst hrq.2).symm

/-- No two rows share an opcode. -/
theorem opcodeRow_ext_op : ∀ r ∈ opcodeTable, ∀ r' ∈ opcodeTable, opField r'.pattern = opField r.pattern → r' = r := by decide

/-- The row with the opcode of a command carries its mnemonic. -/
theorem mnemonic_eq_of_op (i : Instr) : ∀ r ∈ opcodeTable, opField (encode i) = opField r.pattern → r.mnemonic = i.mnemonic := by
  cases i <;> simp (disch := decide) only [encode, opField_commandWord, Instr.mnemonic] <;> decide

/-- Settles O4: the decoder accepts what some row selects; that row has the word's opcode, which fixes both the row and the
mnemonic. -/
theorem decoderIsTheOpcodeTable : Obligations.DecoderIsTheOpcodeTable := by
  refine fun w => ⟨fun i hi => ?_, exists_error_iff_forall_selects w⟩
  obtain ⟨r, hr, hsel⟩ := (exists_decode_iff_exists_selects w).1 ⟨i, hi⟩
  have hop := op_eq_of_selects hr hsel
  refine ⟨r, hr, hsel, mnemonic_eq_of_op i r hr ?_, fun r' hr' hsel' => ?_⟩
  · rw [encode_of_decode hi, hop]
  · exact opcodeRow_ext_op r hr r' hr' ((op_eq_of_selects hr' hsel').symm.trans hop)

/-! ### Reserved encodings (R73, R74) -/

/-- The reserved opcode values, as R73 lists them. -/
def ReservedOp (op : Nat) : Prop :=
  op ∈ [0x06, 0x07, 0x0E, 0x0F, 0x12, 0x13, 0x1E, 0x1F] ∨ (0x22 ≤ op ∧ op ≤ 0x27) ∨ 0x2E ≤ op

theorem not_reservedOp_of_mem_slotTable : ∀ q ∈ slotTable, ¬ ReservedOp q.op := by
  unfold ReservedOp
  decide

theorem slotRow_ext_op : ∀ q ∈ slotTable, ∀ q' ∈ slotTable, q'.op = q.op → q' = q := by decide

theorem refusesSlots_iff {q : SlotRow} {w : Word} : q.RefusesSlots w ↔ opField w = q.op ∧ ¬ q.AdmitsSlots w := by
  simp only [SlotRow.RefusesSlots, SlotRow.AdmitsSlots, ← Bool.not_eq_true, Bool.and_eq_true, and_assoc]

/-- A word that one row admits is refused by no row: a row that refuses it would have its opcode, so be that row. -/
theorem not_refusesSlots_of_admits {w : Word} {q q' : SlotRow} (hq : q ∈ slotTable) (hadm : q.Admits w) (hq' : q' ∈ slotTable) :
    ¬ q'.RefusesSlots w := by
  obtain ⟨hop, hslots, -⟩ := hadm
  rw [refusesSlots_iff]
  rintro ⟨hop', hno⟩
  obtain rfl := slotRow_ext_op q hq q' hq' (hop'.symm.trans hop)
  exact hno hslots

/-- No row selects a word with a reserved opcode, reserved bits or a reserved slot value. -/
theorem forall_selects_of_reserved {w : Word}
    (h : ReservedOp (opField w) ∨ zField w ≠ 0 ∨ ∃ q ∈ slotTable, q.RefusesSlots w) :
    ∀ r ∈ opcodeTable, r.selects w = false := by
  simp only [← Bool.not_eq_true]
  intro r hr hsel
  obtain ⟨q, hq, hadm⟩ := (exists_selects_iff_exists_admits w).1 ⟨r, hr, hsel⟩
  have ⟨hopq, _, hzero⟩ := hadm
  obtain hop | hz | ⟨q', hq', hno⟩ := h
  · exact not_reservedOp_of_mem_slotTable q hq (hopq ▸ hop)
  · exact hz hzero
  · exact not_refusesSlots_of_admits hq hadm hq' hno

/-- A CMD write of a rejected word in a ready state records E_ILLEGAL (R166). -/
theorem writeCmd_of_error {w : Word} {e : DecodeError} (h : decode w = .error e) {s : State} (hs : s.Ready) :
    writeCmd w s = .next (s.setError true 2) := by
  simp only [writeCmd, h, issueIllegal, gate_of_ready hs, raiseError_of_clear hs.1, ErrorCode.code]

theorem decode_eq_nop_iff (w : Word) : decode w = .ok .nop ↔ w = 0x00000000 :=
  ⟨fun h => (encode_of_decode h).symm, by rintro rfl; rfl⟩

/-- Settles O5: no row selects a reserved encoding, so the decoder rejects it. -/
theorem reservedEncodingsRaiseIllegal : Obligations.ReservedEncodingsRaiseIllegal := by
  refine ⟨fun w h => ?_, decode_eq_nop_iff⟩
  have hno := forall_selects_of_reserved (w := w) (by simpa only [ReservedOp, or_assoc] using h)
  obtain ⟨e, he⟩ := (exists_error_iff_forall_selects w).2 hno
  refine ⟨hno, fun s hs => ?_⟩
  rw [takeTurn_writeAt rfl (by decide), writeWindow_cmd, writeCmd_of_error he hs]

end Sys2Proof
end

section
/-! PROOFS. Data movement (40_representation.md R90 to R97): a command whose sources are usable runs to its pending writes; what a
register written with a limb vector holds; the DATA bytes as an integer and back. -/

namespace Sys2Proof.Machine

/-! ### normalize (R90) -/

/-- Settles O32: `normalize_eq_split`, and split of a number in [0, p) is canonical. -/
theorem normalizeIsExact : Obligations.NormalizeIsExact := fun _ _ h => ⟨normalize_eq_split h, canonical_normalize h⟩

/-! ### Runs and registers -/

/-- A command that checks its sources only runs when they are usable. -/
theorem runs_of_usable {i : Instr} {sources : List Source} {s : State} {r : Results} (hs : s.Ready)
    (hx : exec i s = issue i (operandError sources s) r s) (h : ∀ x ∈ sources, x.Usable s) :
    Runs i s ((r.apply s).setDone true) :=
  runs_of_exec hs (by rw [hx, operandError_eq_none_iff.2 h])

/-- A command whose one pending write is a register. -/
theorem runs_writeReg {i : Instr} {sources : List Source} {s : State} {d : Slot} {x : FieldReg} (hs : s.Ready)
    (hx : exec i s = issue i (operandError sources s) { dests := [(d, x)] } s) (h : ∀ x ∈ sources, x.Usable s) :
    Runs i s ((s.setReg d x).setDone true) :=
  runs_of_usable hs hx h

/-- A FIELD register of a state that satisfies the invariant is in lazy form. -/
theorem State.Inv.lazyForm_ints {s : State} (hs : s.Inv) {a : Slot} (ha : s.FieldAt a) : lazyForm s.modulus (s.ints a) = true :=
  FieldReg.lazyForm_of_ok (hs.regs a) ha.1 ha.2

theorem holds_fieldReg {m : ModulusId} {w : List Int} (h : lazyForm m w = true) : (fieldReg w).Holds m (val m w) := by
  refine ⟨rfl, rfl, ?_, ?_⟩ <;> rw [fieldReg_toInts (.refl h)]
  exact h

/-- The top limb of the vector of a number in [0, 2^n) is inside the value bits. -/
theorem topLimb_split_bounds {m : ModulusId} {R : Int} (h0 : 0 ≤ R) (h1 : R < pow2 m.n) :
    0 ≤ topLimb (split m R) ∧ topLimb (split m R) < pow2 m.topWidth := by
  rw [topLimb_split]
  refine ⟨Int.ediv_nonneg h0 (pow2_pos _).le, Int.ediv_lt_of_lt_mul (pow2_pos _) ?_⟩
  rwa [mul_comm, ← pow2_n]

/-! ### NOP, MOV and LDC (R91 to R93) -/

/-- The integers the selectors 0 to 3 name (R92). -/
theorem selectedConstant_eq {m : ModulusId} {k : Slot} {x : Int}
    (h : (k.val, x) ∈ [(0, 0), (1, 1), (2, (m.p : Int) - 1), (3, (m.p : Int))]) : selectedConstant m k = x := by
  simp only [List.mem_cons, Prod.mk.injEq, List.not_mem_nil, or_false] at h
  obtain ⟨hk, rfl⟩ | ⟨hk, rfl⟩ | ⟨hk, rfl⟩ | ⟨hk, rfl⟩ := h <;> simp [selectedConstant, hk]

/-- Settles O34: each command's pending writes, and for LDC the vector of a number below 2^n. -/
theorem nopMovLdcResults : Obligations.NopMovLdcResults := by
  intro s hs
  refine ⟨runs_of_exec (r := {}) hs rfl, fun d a ha => ?_, fun d k x hx => ?_⟩
  · exact runs_writeReg (sources := [.any a]) hs rfl (List.forall_mem_singleton.2 ha)
  · obtain ⟨h0, h1⟩ := selectedConstant_bounds s.modulus k
    have hrun : Runs (.ldc d k) s ((s.setReg d (fieldReg (split s.modulus (selectedConstant s.modulus k)))).setDone true) :=
      runs_writeReg (sources := []) hs rfl (List.forall_mem_nil _)
    rw [selectedConstant_eq hx] at h0 h1 hrun
    have hlazy := lazyForm_split_of_lt_pow h0 h1
    refine ⟨_, hrun, ?_, ?_⟩
    · have hholds := holds_fieldReg hlazy
      rwa [val_split] at hholds
    · rw [fieldReg_toInts (.refl hlazy), vInt_split]
      exact ⟨rfl, topLimb_split_bounds h0 h1⟩

/-! ### UNPACK (R94) -/

theorem Memory.readInt_eq_sum (d : Memory) (a k : Nat) :
    d.readInt a k = ∑ j ∈ Finset.range k, (d.read (a + j)).toNat * 2 ^ (8 * j) := by
  induction k generalizing a with
  | zero => rfl
  | succ k ih =>
    rw [Memory.readInt, ih, Finset.sum_range_succ', Finset.mul_sum, add_comm]
    congr 1
    · refine Finset.sum_congr rfl fun j _ => ?_
      rw [show a + 1 + j = a + (j + 1) by omega, Nat.mul_succ, pow_add]; ring
    · simp

/-- UNPACK's one pending write. -/
theorem runs_unpack {s : State} (hs : s.Ready) (d : Slot) :
    Runs (.unpack d) s ((s.setReg d (fieldReg (split s.modulus s.packedInteger))).setDone true) :=
  runs_writeReg (sources := []) hs rfl (List.forall_mem_nil _)

/-- Settles O35: the vector of a number of nb bytes is in lazy form. -/
theorem unpackResult : Obligations.UnpackResult := by
  intro s d hs
  have hlazy := lazyForm_split_packedInteger s
  have hsum : s.packedInteger = ∑ j ∈ Finset.range s.modulus.byteCount, (s.data.read j).toNat * 2 ^ (8 * j) := by
    simp [State.packedInteger, Memory.readInt_eq_sum]
  refine ⟨_, runs_unpack hs d, ?_⟩
  rw [← hsum]
  constructor
  · rw [fieldReg_toInts (.refl hlazy), vInt_split]
  · have hholds := holds_fieldReg hlazy
    rwa [val_split] at hholds

/-! ### NORM and PACK (R95 to R97) -/

theorem Memory.read_of_ge {m : Memory} {lo j : Nat} (hm : m.wfFrom lo = true) (hj : dataSize ≤ j) : m.read j = 0 := by
  induction m generalizing lo with
  | nil => rfl
  | cons c m ih =>
    obtain ⟨a, v⟩ := c
    obtain ⟨-, ha, -, hrest⟩ := Memory.wfFrom_cons.1 hm
    rw [Memory.read, if_neg (by omega), ih hrest]

theorem byteCount_le (m : ModulusId) : m.byteCount ≤ dataSize := by cases m <;> decide

/-- Byte j of pack_bytes(x) (R95). -/
theorem getD_packBytes (m : ModulusId) {x : Int} (hx : 0 ≤ x) (j : Nat) :
    (packBytes m x).getD j 0 = if j < m.byteCount then BitVec.ofNat 8 (x.toNat / 2 ^ (8 * j)) else 0 := by
  have hnb := byteCount_le m
  obtain ⟨y, rfl⟩ := Int.eq_ofNat_of_zero_le hx
  by_cases hj : j < dataSize
  · have hbyte : BitVec.ofInt 8 (asr (y : Int) (8 * j)) = BitVec.ofNat 8 (y / 2 ^ (8 * j)) := by
      rw [asr, pow2, ← Int.natCast_ediv, BitVec.ofInt_natCast]
    simp [packBytes, List.getD_eq_getElem?_getD, hj, hbyte]
  · rw [if_neg (by omega), List.getD_eq_default _ _ (by rw [length_packBytes]; omega)]

/-- A canonical DATA window after all its bytes are written with pack_bytes(x). -/
theorem Memory.read_writeBytes_packBytes {d : Memory} (hd : d.wf = true) (m : ModulusId) {x : Int} (hx : 0 ≤ x) (j : Nat) :
    (d.writeBytes 0 (packBytes m x)).read j = if j < m.byteCount then BitVec.ofNat 8 (x.toNat / 2 ^ (8 * j)) else 0 := by
  have hnb := byteCount_le m
  rw [Memory.read_writeBytes hd (by rw [length_packBytes, zero_add]), length_packBytes]
  by_cases hj : j < dataSize
  · rw [if_pos (by omega), Nat.sub_zero, getD_packBytes m hx]
  · rw [if_neg (by omega), if_neg (by omega), Memory.read_of_ge hd (by omega)]

/-- The state after PACK Fa: the canonical vector of F[a] written back, and its bytes in DATA (R96). -/
def State.afterPack (s : State) (a : Slot) : State :=
  ((s.setReg a (fieldReg (normalize s.modulus (s.ints a)))).setData
    (s.data.writeBytes 0 (packBytes s.modulus (s.valAt a)))).setDone true

@[simp] theorem afterPack_modulus (s : State) (a : Slot) : (s.afterPack a).modulus = s.modulus := rfl
@[simp] theorem afterPack_data (s : State) (a : Slot) :
    (s.afterPack a).data = s.data.writeBytes 0 (packBytes s.modulus (s.valAt a)) := by
  rw [State.afterPack, setDone_data, setData_data]

theorem runs_pack {s : State} (hs : s.Inv) (hr : s.Ready) {a : Slot} (ha : s.FieldAt a) : Runs (.pack a) s (s.afterPack a) := by
  rw [State.afterPack, State.valAt, ← vInt_normalize (hs.lazyForm_ints ha)]
  exact runs_of_usable (sources := [.field a])
    (r := { writeBacks := writeField a (normalize s.modulus (s.ints a))
            data := some (packBytes s.modulus (vInt s.modulus (normalize s.modulus (s.ints a)))) })
    hr rfl (List.forall_mem_singleton.2 ha)

/-- Settles O36: the write-back by `holdsCanonical_normalize`, the bytes by `Memory.read_writeBytes_packBytes`. -/
theorem normPackResults : Obligations.NormPackResults := by
  intro s a hs hr ha
  have hcanon := holdsCanonical_normalize (hs.lazyForm_ints ha)
  refine ⟨⟨_, ?_, hcanon⟩, _, _, runs_pack hs hr ha, hcanon, ?_⟩
  · exact runs_writeReg (sources := [.field a]) hr rfl (List.forall_mem_singleton.2 ha)
  · exact Memory.read_writeBytes_packBytes hs.data _ (val_nonneg _ _)

/-! ### UNPACK after PACK -/

/-- Bytes that are the little-endian bytes of x give x back, modulo 2^(8k) for k bytes. -/
theorem Memory.readInt_of_bytes {d : Memory} {a k x : Nat} (h : ∀ j < k, d.read (a + j) = BitVec.ofNat 8 (x / 2 ^ (8 * j))) :
    d.readInt a k = x % 2 ^ (8 * k) := by
  induction k generalizing a x with
  | zero => simp [Memory.readInt, Nat.mod_one]
  | succ k ih =>
    have hbyte : (d.read a).toNat = x % 2 ^ 8 := by
      have := h 0 (by omega)
      simp only [Nat.add_zero, Nat.mul_zero, pow_zero, Nat.div_one] at this
      rw [this, BitVec.toNat_ofNat]
    have hrest : d.readInt (a + 1) k = x / 2 ^ 8 % 2 ^ (8 * k) := ih fun j hj => by
      rw [Nat.div_div_eq_div_mul, ← pow_add, show a + 1 + j = a + (j + 1) by omega, h (j + 1) (by omega)]
      congr 3; omega
    rw [Memory.readInt, hbyte, hrest, show 8 * (k + 1) = 8 + 8 * k by omega, pow_add, Nat.mod_mul]

/-- A value below p has nb bytes. -/
theorem p_le_bytes (m : ModulusId) : m.p ≤ 2 ^ (8 * m.byteCount) := by
  have h : m.n ≤ 8 * m.byteCount := by rw [ModulusId.byteCount]; omega
  exact (Nat.sub_le _ _).trans (Nat.pow_le_pow_right (by decide) h)

/-- The integer that UNPACK reads after PACK Fa is the value packed. -/
theorem packedInteger_afterPack {s : State} (hs : s.Inv) (a : Slot) :
    ((s.afterPack a).packedInteger : Int) = s.valAt a := by
  have h0 : 0 ≤ s.valAt a := val_nonneg _ _
  have h1 : s.valAt a < (s.modulus.p : Int) := val_lt _ _
  have hp := p_le_bytes s.modulus
  have hread : (s.afterPack a).packedInteger = (s.valAt a).toNat % 2 ^ (8 * s.modulus.byteCount) :=
    Memory.readInt_of_bytes fun j hj => by
      rw [zero_add, afterPack_data, Memory.read_writeBytes_packBytes hs.data _ h0]
      exact if_pos hj
  rw [hread, Nat.mod_eq_of_lt (by omega), Int.toNat_of_nonneg h0]

/-- Settles O37: UNPACK after PACK writes split(val(F[a])), the vector PACK wrote back. -/
theorem unpackAfterPackIsTheValue : Obligations.UnpackAfterPackIsTheValue := by
  intro s a d hs hr ha
  have hlazy := hs.lazyForm_ints ha
  have hunpack := runs_unpack (s := s.afterPack a) hr d
  rw [packedInteger_afterPack hs a, afterPack_modulus, State.valAt, ← normalize_eq_split hlazy] at hunpack
  exact ⟨_, _, runs_pack hs hr ha, hunpack, holdsCanonical_normalize hlazy⟩

end Sys2Proof.Machine
end

section
/-! PROOFS. Addition, subtraction, negation and the small-operand commands (41_add_sub.md R99 to R112): how far the top limb of a
lazy result can be from its value bits (R107, R108, R118), and the value each command writes. -/

namespace Sys2Proof.Machine

/-! ### The limbs of a lazy result (R107, R108, R118) -/

/-- The limbs of a lazy result but SMUL's: the lower ones in [0, 2^B), the top one at most 2 outside its value bits. -/
def NearCanonical (m : ModulusId) (w : List Int) : Prop := LowerInRange m w ∧ -2 ≤ topLimb w ∧ topLimb w ≤ pow2 m.topWidth + 2

/-- settle brings a vector whose lower limbs hold at least −1 and less than 2 top weights near the canonical limbs. -/
theorem nearCanonical_settle {m : ModulusId} {s : List Int} (hl : s.length = m.limbCount)
    (ha : -topWeight m ≤ lowPart m s) (hb : lowPart m s < 2 * topWeight m) (ht : -2 ^ 64 ≤ topLimb s ∧ topLimb s ≤ 2 ^ 64) :
    NearCanonical m (settle m s) := by
  obtain ⟨hlo, hhi⟩ := topLimb_settle_bounds (a := -1) hl (by rwa [neg_one_mul]) hb ht
  exact ⟨lowerInRange_settle hl, by omega, by omega⟩

theorem nearCanonical_fieldAdd {m : ModulusId} {x y : List Int} (hx : lazyForm m x = true) (hy : lazyForm m y = true) :
    NearCanonical m (fieldAdd m x y) := by
  obtain ⟨hlx, hbx, htx⟩ := lazyForm_bounds hx
  obtain ⟨hly, hby, hty⟩ := lazyForm_bounds hy
  have hlow := lowPart_zipWith_add hlx hly
  have htop := topLimb_zipWith (fun a b => a + b) (hlx.trans hly.symm) (ne_nil_of_length hlx)
  exact nearCanonical_settle (by simp [hlx, hly]) (by omega) (by omega) (by omega)

theorem nearCanonical_fieldSub {m : ModulusId} {x y : List Int} (hx : lazyForm m x = true) (hy : lazyForm m y = true) :
    NearCanonical m (fieldSub m x y) := by
  obtain ⟨hlx, hbx, htx⟩ := lazyForm_bounds hx
  obtain ⟨hly, hby, hty⟩ := lazyForm_bounds hy
  have hlow := lowPart_zipWith_sub hlx hly
  have htop := topLimb_zipWith (fun a b => a - b) (hlx.trans hly.symm) (ne_nil_of_length hlx)
  exact nearCanonical_settle (by simp [hlx, hly]) (by omega) (by omega) (by omega)

/-- The top weight absorbs any 33-bit signed number added to limb 0. -/
theorem nearCanonical_settle_addLow {m : ModulusId} {x : List Int} {k : Int} (hx : lazyForm m x = true)
    (hk : -2 ^ 32 ≤ k ∧ k ≤ 2 ^ 32) : NearCanonical m (settle m (addLow k x)) := by
  obtain ⟨hl, hb, ht⟩ := lazyForm_bounds hx
  have hw := topWeight_ge m
  have hN := limbCount_ge m
  have hlow := lowPart_addLow k hl
  have htop := topLimb_addLow k (w := x) (by omega)
  exact nearCanonical_settle (by rw [length_addLow, hl]) (by omega) (by omega) (by omega)

/-- The product of two lazy-form values is at most 2^64 times the square of the top weight. -/
theorem abs_vInt_mul_le_of_lazyForm {m : ModulusId} {x y : List Int} (hx : lazyForm m x = true) (hy : lazyForm m y = true) :
    |vInt m x * vInt m y| ≤ 2 ^ 64 * topWeight m * topWeight m := by
  have hpos := topWeight_pos m
  calc |vInt m x * vInt m y| = |vInt m x| * |vInt m y| := abs_mul _ _
    _ ≤ (2 ^ 32 * topWeight m) * (2 ^ 32 * topWeight m) :=
        mul_le_mul (abs_vInt_le_of_lazyForm hx) (abs_vInt_le_of_lazyForm hy) (abs_nonneg _) (by positivity)
    _ = 2 ^ 64 * topWeight m * topWeight m := by ring

/-- The top limb of split(R) is inside ±b when R is inside ±b top weights. -/
theorem topLimb_split_abs_le {m : ModulusId} {R b : Int} (h : |R| ≤ b * topWeight m) :
    -b ≤ topLimb (split m R) ∧ topLimb (split m R) ≤ b := by
  obtain ⟨hlo, hhi⟩ := abs_le.1 h
  rw [topLimb_split]
  exact ⟨(Int.le_ediv_iff_mul_le (topWeight_pos m)).2 (by rwa [neg_mul]), Int.ediv_le_of_le_mul (topWeight_pos m) hhi⟩

/-- What reduce settles is a split, so its lower limbs hold less than one top weight. -/
theorem nearCanonical_fieldMul {m : ModulusId} {x y : List Int} (hx : lazyForm m x = true) (hy : lazyForm m y = true) :
    NearCanonical m (fieldMul m x y) := by
  have hw := topWeight_pos m
  have hlow := lowPart_split_bounds m (lowBits (vInt m x * vInt m y) m.n + m.c * asr (vInt m x * vInt m y) m.n)
  have htop := topLimb_split_abs_le (reduced_bounds (abs_vInt_mul_le_of_lazyForm hx hy))
  exact nearCanonical_settle (length_split m _) (by omega) (by omega) (by omega)

/-- The top limb after SMUL: the lower limbs of a lazy-form vector times k hold at most 2^31 top weights either way (R108). -/
theorem topLimb_settle_map_mul_bounds {m : ModulusId} {x : List Int} {k : Int} (hx : lazyForm m x = true)
    (hk : -2 ^ 31 ≤ k ∧ k < 2 ^ 31) :
    -2 ^ 31 - 2 ≤ topLimb (settle m (x.map (fun z => z * k))) ∧
      topLimb (settle m (x.map (fun z => z * k))) ≤ 2 ^ 31 + pow2 m.topWidth + 2 := by
  obtain ⟨hl, ⟨hlow0, hlow1⟩, htop0, htop1⟩ := lazyForm_bounds hx
  have htop := topLimb_map (fun z => z * k) (ne_nil_of_length hl)
  have hlow := lowPart_map_mul k hl
  obtain ⟨hlo, hhi⟩ := topLimb_settle_bounds (m := m) (a := -2 ^ 31) (b := 2 ^ 31) (s := x.map (fun z => z * k)) (by simp [hl])
    (by rw [hlow]; nlinarith) (by rw [hlow]; nlinarith) (by rw [htop]; constructor <;> nlinarith)
  omega

/-- Settles O33: every vector the commands settle has little below its top limb, and settle carries no more than that up. -/
theorem lazyResultsAreBounded : Obligations.LazyResultsAreBounded := by
  intro m x y k hx hy hk0 hk1
  refine ⟨?_, fun _ => lowerInRange_settle (by simp [length_of_lazyForm hx]),
    fun hk => topLimb_settle_map_mul_bounds hx ⟨hk0, hk⟩⟩
  simp only [List.forall_mem_cons, List.not_mem_nil, false_imp_iff, implies_true, and_true]
  exact ⟨nearCanonical_fieldAdd hx hy, nearCanonical_fieldSub hx hy, nearCanonical_settle_addLow hx (by omega),
    nearCanonical_fieldMul hx hy⟩

/-! ### The values written (R100 to R105) -/

/-- −x is p − x (R102): the MODULUS vector has value 0. -/
theorem val_fieldSub_modulus (m : ModulusId) {x : List Int} (hx : x.length = m.limbCount) :
    val m (fieldSub m (split m m.p) x) = -val m x % (m.p : Int) := by
  rw [val_fieldSub m (length_split m _) hx, val_split, Int.emod_self, zero_sub]

theorem val_settle_addLow (m : ModulusId) (k : Int) {x : List Int} (hx : x.length = m.limbCount) :
    val m (settle m (addLow k x)) = (val m x + k) % (m.p : Int) := by
  rw [val_settle m (by rw [length_addLow, hx]), val, vInt, valueAt_addLow _ _ (ne_nil_of_length hx), val, Int.emod_add_emod]
  rfl

theorem val_settle_map_mul (m : ModulusId) (k : Int) {x : List Int} (hx : x.length = m.limbCount) :
    val m (settle m (x.map (fun z => z * k))) = val m x * k % (m.p : Int) := by
  rw [val_settle m (by simp [hx]), val, vInt, valueAt_map_mul]
  exact ((Int.mod_modEq _ _).mul_right k).symm

/-- A command whose one pending write is a lazy-form vector of value v leaves a register that holds v. -/
theorem exists_runs_holds {i : Instr} {sources : List Source} {s : State} {d : Slot} {w : List Int} {v : Int} (hr : s.Ready)
    (hx : exec i s = issue i (operandError sources s) { dests := writeField d w } s) (h : ∀ x ∈ sources, x.Usable s)
    (hw : lazyForm s.modulus w = true) (hv : val s.modulus w = v) :
    ∃ r : FieldReg, Runs i s ((s.setReg d r).setDone true) ∧ r.Holds s.modulus v :=
  ⟨fieldReg w, runs_writeReg hr hx h, hv ▸ holds_fieldReg hw⟩

/-- Settles O38: each command's one pending write, in lazy form, has the value the limb-level laws give. -/
theorem addSubNegResults : Obligations.AddSubNegResults := by
  intro s d a b hs hr ha hb
  have hla := hs.lazyForm_ints ha
  have hlb := hs.lazyForm_ints hb
  have hone : ∀ x ∈ [Source.field a], x.Usable s := List.forall_mem_singleton.2 ha
  have htwo : ∀ x ∈ [Source.field a, Source.field b], x.Usable s := List.forall_mem_cons.2 ⟨ha, List.forall_mem_singleton.2 hb⟩
  refine ⟨?add, ?sub, ?neg⟩
  case add =>
    exact exists_runs_holds hr rfl htwo (lazyForm_fieldAdd hla hlb) (val_fieldAdd _ (length_of_lazyForm hla) (length_of_lazyForm hlb))
  case sub =>
    exact exists_runs_holds hr rfl htwo (lazyForm_fieldSub hla hlb) (val_fieldSub _ (length_of_lazyForm hla) (length_of_lazyForm hlb))
  case neg =>
    exact exists_runs_holds hr rfl hone (lazyForm_fieldSub AlikeVec.split_p.lazyLeft hla)
      (val_fieldSub_modulus _ (length_of_lazyForm hla))

/-- Settles O39: as ADD and SUB, for every signed 32-bit k; SSUB adds −k, which the least k takes to 2^31. -/
theorem smallOperandResults : Obligations.SmallOperandResults := by
  intro s d a hs hr ha
  have hla := hs.lazyForm_ints ha
  have hk : -2 ^ 31 ≤ s.smallOperand ∧ s.smallOperand < 2 ^ 31 := smallOperand_bounds s.arg
  have husable : ∀ x ∈ [Source.field a], x.Usable s := List.forall_mem_singleton.2 ha
  refine ⟨?sadd, ?ssub, ?smul⟩
  case sadd =>
    exact exists_runs_holds hr rfl husable (lazyForm_settle_addLow hla (by omega)) (val_settle_addLow _ _ (length_of_lazyForm hla))
  case ssub =>
    exact exists_runs_holds hr rfl husable (lazyForm_settle_addLow hla (by omega)) (val_settle_addLow _ _ (length_of_lazyForm hla))
  case smul =>
    exact exists_runs_holds hr rfl husable (lazyForm_settle_map_mul hla hk) (val_settle_map_mul _ _ (length_of_lazyForm hla))

end Sys2Proof.Machine
end

section
/-! PROOFS. Multiplication and squaring (42_multiply_reduce.md R114 to R118): the value MUL and SQR write, and SQR's limb vector as
MUL's of a register with itself. -/

namespace Sys2Proof.Machine

/-- MUL writes the limb vector of the product; the sources may be one register. -/
theorem runs_mul {s : State} (hr : s.Ready) (d : Slot) {a b : Slot} (ha : s.FieldAt a) (hb : s.FieldAt b) :
    Runs (.mul d a b) s ((s.setReg d (fieldReg (fieldMul s.modulus (s.ints a) (s.ints b)))).setDone true) :=
  runs_writeReg (sources := [.field a, .field b]) hr rfl (List.forall_mem_cons.2 ⟨ha, List.forall_mem_singleton.2 hb⟩)

/-- SQR writes the limb vector of the product of the source with itself (R117). -/
theorem runs_sqr {s : State} (hr : s.Ready) (d : Slot) {a : Slot} (ha : s.FieldAt a) :
    Runs (.sqr d a) s ((s.setReg d (fieldReg (fieldMul s.modulus (s.ints a) (s.ints a)))).setDone true) :=
  runs_writeReg (sources := [.field a]) hr rfl (List.forall_mem_singleton.2 ha)

/-- The register of a product of lazy-form vectors holds the product of their values (R116). -/
theorem holds_fieldMul {m : ModulusId} {x y : List Int} (hx : lazyForm m x = true) (hy : lazyForm m y = true) :
    (fieldReg (fieldMul m x y)).Holds m (val m x * val m y % (m.p : Int)) :=
  val_fieldMul m x y ▸ holds_fieldReg (lazyForm_fieldMul hx hy)

/-- Settles O40: MUL writes the product's register, and SQR the register MUL writes for a source with itself. -/
theorem mulSqrResults : Obligations.MulSqrResults := by
  intro s d a b hs hr ha hb
  have hla := hs.lazyForm_ints ha
  have hlb := hs.lazyForm_ints hb
  refine ⟨⟨_, runs_mul hr d ha hb, holds_fieldMul hla hlb⟩, _, runs_sqr hr d ha, runs_mul hr d ha ha, ?_⟩
  rw [pow_two]
  exact holds_fieldMul hla hla

end Sys2Proof.Machine
end

section
/-! PROOFS. The fixed-exponent commands (43_exponentiation.md R120 to R130): the values INV, DIV, LEG and SQRT write, and that these
are the inverse, the quotient, the Legendre symbol and a square root modulo p. -/

namespace Sys2Proof.Machine

theorem two_lt_p (m : ModulusId) : 2 < m.p := by
  have := c_lt_p m
  omega

/-- A register's value is its own residue modulo p. -/
theorem valAt_emod (s : State) (i : Slot) : s.valAt i % s.pInt = s.valAt i := Int.emod_emod_of_dvd _ dvd_rfl

/-- 0 is the only value that p divides. -/
theorem dvd_valAt_iff (s : State) (i : Slot) : s.pInt ∣ s.valAt i ↔ s.valAt i = 0 := by
  rw [Int.dvd_iff_emod_eq_zero, valAt_emod]

/-! ### INV and DIV (R123, R124, R126) -/

/-- Settles O41: EXP(x, p − 2) and its product with the dividend are lazy-form vectors of the values R123 and R124 give. -/
theorem invDivResults : Obligations.InvDivResults := by
  intro s d a b hs hr ha hb
  have hla := hs.lazyForm_ints ha
  have hlb := hs.lazyForm_ints hb
  refine ⟨?inv, ?div⟩
  case inv =>
    exact exists_runs_holds (sources := [.field a]) hr rfl (List.forall_mem_singleton.2 ha) (lazyForm_exp hla _) (val_exp _ _ _)
  case div =>
    refine exists_runs_holds (sources := [.field a, .field b]) hr rfl
      (List.forall_mem_cons.2 ⟨ha, List.forall_mem_singleton.2 hb⟩) (lazyForm_fieldMul hla (lazyForm_exp hlb _)) ?_
    rw [val_fieldMul, val_exp]
    exact (Int.mod_modEq _ _).mul_left _

/-- For a prime p that does not divide y, y^(p−2) is an inverse of y modulo p, by Fermat's little theorem (R123). -/
theorem pow_sub_two_mul_modEq_one {p : Nat} (hp : p.Prime) {y : Int} (hy : ¬ (p : Int) ∣ y) : y ^ (p - 2) * y ≡ 1 [ZMOD p] := by
  have he : p - 2 + 1 = p - 1 := by have := hp.two_le; omega
  rw [← pow_succ, he]
  exact Int.ModEq.pow_card_sub_one_eq_one hp ((Nat.prime_iff_prime_int.1 hp).coprime_iff_not_dvd.2 hy).symm

/-- Settles O42: the values of `invDivResults`, by Fermat for a nonzero y; for y = 0 the exponent p − 2 is not 0. -/
theorem invAndDivInvert : Obligations.InvAndDivInvert := by
  intro s d a b hs hr ha hb hp
  obtain ⟨-, rdiv, hrunDiv, hdiv⟩ := invDivResults s d a b hs hr ha hb
  obtain ⟨⟨rinv, hrunInv, hinv⟩, -⟩ := invDivResults s d b b hs hr hb hb
  have htwo := two_lt_p s.modulus
  have he : s.modulus.p - 2 ≠ 0 := by omega
  have hone : (1 : Int) % s.pInt = 1 := Int.emod_eq_of_lt one_pos.le (by rw [State.pInt]; omega)
  have hfermat (h : s.valAt b ≠ 0) : s.valAt b ^ (s.modulus.p - 2) * s.valAt b ≡ 1 [ZMOD s.pInt] :=
    pow_sub_two_mul_modEq_one hp (mt (dvd_valAt_iff s b).1 h)
  refine ⟨⟨rinv, _, hrunInv, hinv, fun h => ?inverse, fun h => by simp [h, he]⟩,
    rdiv, _, hrunDiv, hdiv, fun h => ?quotient, fun h => by simp [h, he]⟩
  case inverse =>
    exact (((Int.mod_modEq _ _).mul_right _).trans (hfermat h)).eq.trans hone
  case quotient =>
    have hcancel := (hfermat h).mul_left (s.valAt a)
    rw [← mul_assoc, mul_one] at hcancel
    exact (((Int.mod_modEq _ _).mul_right _).trans hcancel).eq.trans (valAt_emod s a)

/-! ### LEG (R125, R127) -/

/-- The value LEG writes, val(F[a])^((p−1)/2) mod p (R125). -/
def State.eulerAt (s : State) (a : Slot) : Int := s.valAt a ^ ((s.modulus.p - 1) / 2) % s.pInt

theorem val_exp_legExponent (s : State) (a : Slot) :
    val s.modulus (exp s.modulus (s.ints a) (legExponent s.modulus)) = s.eulerAt a := val_exp _ _ _

/-- LEG writes the canonical vector of its value, and RESULT by that value. -/
theorem exists_runs_leg {s : State} (hs : s.Inv) (hr : s.Ready) (d : Slot) {a : Slot} (ha : s.FieldAt a) :
    ∃ r : FieldReg, Runs (.leg d a) s (((s.setReg d r).setResult (legendreWord (s.eulerAt a))).setDone true) ∧
      r.HoldsCanonical s.modulus (s.eulerAt a) := by
  have hlazy := lazyForm_exp (hs.lazyForm_ints ha) (legExponent s.modulus)
  have hrun := runs_of_usable (i := .leg d a) (sources := [.field a]) hr rfl (List.forall_mem_singleton.2 ha)
  have hcanon := holdsCanonical_normalize hlazy
  rw [vInt_normalize hlazy, val_exp_legExponent] at hrun
  rw [val_exp_legExponent] at hcanon
  exact ⟨_, hrun, hcanon⟩

theorem legendreWord_zero : legendreWord 0 = 0x00000000 := rfl

theorem legendreWord_one : legendreWord 1 = 0x00000001 := rfl

theorem legendreWord_p_sub_one (m : ModulusId) : legendreWord ((m.p : Int) - 1) = 0xFFFFFFFF := by
  have := two_lt_p m
  rw [legendreWord, if_neg (by omega), if_neg (by omega)]

/-- Settles O43: `exists_runs_leg`, with RESULT for each of the three values. -/
theorem legResult : Obligations.LegResult := by
  intro s d a hs hr ha
  obtain ⟨r, hrun, hcanon⟩ := exists_runs_leg hs hr d ha
  refine ⟨r, _, hrun, hcanon, fun h => ?_, fun h => ?_, fun h => ?_⟩ <;> rw [State.eulerAt, h]
  · exact legendreWord_zero
  · exact legendreWord_one
  · exact legendreWord_p_sub_one s.modulus

theorem p_odd (m : ModulusId) : m.p % 2 = 1 := by cases m <;> decide +kernel

/-- LEG's value is the Legendre symbol modulo p, by Euler's criterion (R127). -/
theorem eulerAt_eq_legendreSym (s : State) (a : Slot) [Fact s.modulus.p.Prime] :
    s.eulerAt a = legendreSym s.modulus.p (s.valAt a) % s.pInt := by
  have he : (s.modulus.p - 1) / 2 = s.modulus.p / 2 := by have := p_odd s.modulus; omega
  refine (ZMod.intCast_eq_intCast_iff _ _ _).1 ?_
  rw [legendreSym.eq_pow, he, Int.cast_pow]

/-- RESULT for a Legendre symbol modulo p is the symbol as a 32-bit word. -/
theorem legendreWord_emod (m : ModulusId) {l : Int} (h : l = 0 ∨ l = 1 ∨ l = -1) :
    legendreWord (l % (m.p : Int)) = BitVec.ofInt 32 l := by
  have := two_lt_p m
  obtain rfl | rfl | rfl := h
  · rfl
  · rw [Int.emod_eq_of_lt one_pos.le (by omega), legendreWord_one]; rfl
  · rw [Int.neg_emod_eq_sub_emod, Int.emod_eq_of_lt (by omega) (by omega), legendreWord_p_sub_one]; rfl

theorem toInt_ofInt_of_sign {l : Int} (h : l = 0 ∨ l = 1 ∨ l = -1) : (BitVec.ofInt 32 l).toInt = l :=
  BitVec.toInt_ofInt_eq_self (by decide) (by omega) (by omega)

/-- Being a square modulo p, said of integers, is being a square in Z/p. -/
theorem exists_sq_emod_iff_isSquare (s : State) (a : Slot) :
    (∃ y : Int, y ^ 2 % s.pInt = s.valAt a) ↔ IsSquare (s.valAt a : ZMod s.modulus.p) := by
  have key (y : Int) : y ^ 2 % s.pInt = s.valAt a ↔ (s.valAt a : ZMod s.modulus.p) = (y : ZMod s.modulus.p) ^ 2 := by
    rw [← Int.cast_pow, ZMod.intCast_eq_intCast_iff', ← State.pInt, valAt_emod, eq_comm]
  simp only [key, isSquare_iff_exists_sq, (ZMod.intCast_surjective (n := s.modulus.p)).exists]

/-- Settles O44: RESULT is the Legendre symbol, whose three values Mathlib tells apart by zero, square and non-square. -/
theorem legIsTheLegendreSymbol : Obligations.LegIsTheLegendreSymbol := by
  intro s d a hs hr ha hp
  have : Fact s.modulus.p.Prime := ⟨hp⟩
  have hsign : legendreSym s.modulus.p (s.valAt a) = 0 ∨ legendreSym s.modulus.p (s.valAt a) = 1 ∨
      legendreSym s.modulus.p (s.valAt a) = -1 := quadraticChar_isQuadratic _ _
  have hzero : (s.valAt a : ZMod s.modulus.p) = 0 ↔ s.valAt a = 0 :=
    (ZMod.intCast_zmod_eq_zero_iff_dvd _ _).trans (dvd_valAt_iff s a)
  obtain ⟨r, hrun, hcanon⟩ := exists_runs_leg hs hr d ha
  rw [eulerAt_eq_legendreSym, State.pInt, legendreWord_emod _ hsign] at hrun
  rw [eulerAt_eq_legendreSym] at hcanon
  refine ⟨r, _, hrun, fun h => ?zero, fun h hsq => ?square, fun h hsq => ?nonsquare, ?value⟩
  case zero => rw [(legendreSym.eq_zero_iff _ _).2 (hzero.2 h)]; rfl
  case square => rw [(legendreSym.eq_one_iff _ (mt hzero.1 h)).2 ((exists_sq_emod_iff_isSquare s a).1 hsq)]; rfl
  case nonsquare => rw [(legendreSym.eq_neg_one_iff _).2 (mt (exists_sq_emod_iff_isSquare s a).2 hsq)]; rfl
  case value => rwa [toInt_ofInt_of_sign hsign]

/-! ### SQRT (R128 to R130) -/

theorem hasSqrt_iff_mod_eight (m : ModulusId) : m.hasSqrt = true ↔ m.p % 8 = 5 := beq_iff_eq

/-- The vector SQRT normalizes, its choice made by the value of x^((p−1)/4) (R129). -/
def sqrtCandidate (m : ModulusId) (x : List Int) : List Int :=
  if val m x ^ quarticExponent m % (m.p : Int) = 1 then exp m x (sqrtExponent m)
  else fieldMul m (exp m x (sqrtExponent m)) (split m (sqrtConstant m))

theorem fieldSqrt_eq_normalize {m : ModulusId} {x : List Int} (hx : lazyForm m x = true) :
    fieldSqrt m x = normalize m (sqrtCandidate m x) := by
  simp only [fieldSqrt, sqrtCandidate, vInt_normalize (lazyForm_exp hx _), val_exp, apply_ite (normalize m)]

theorem lazyForm_sqrtCandidate {m : ModulusId} {x : List Int} (hx : lazyForm m x = true) :
    lazyForm m (sqrtCandidate m x) = true := by
  obtain ⟨hI0, hI1⟩ := sqrtConstant_bounds m
  rw [sqrtCandidate]
  split
  · exact lazyForm_exp hx _
  · exact lazyForm_fieldMul (lazyForm_exp hx _) (lazyForm_split_of_lt_pow hI0 hI1)

theorem val_sqrtCandidate (m : ModulusId) (x : List Int) :
    val m (sqrtCandidate m x) = if val m x ^ quarticExponent m % (m.p : Int) = 1 then val m x ^ sqrtExponent m % (m.p : Int)
      else val m x ^ sqrtExponent m * sqrtConstant m % (m.p : Int) := by
  rw [sqrtCandidate, apply_ite (val m), val_exp, val_fieldMul, val_exp, val_split, ← Int.mul_emod]

/-- Settles O45: without SQRT the first check fails; with it, SQRT's one pending write is the canonical vector of its candidate. -/
theorem sqrtResult : Obligations.SqrtResult := by
  intro s d a hs hr
  refine ⟨fun h8 => ?unsupported, fun h8 ha => ?supported⟩
  case unsupported =>
    have hcheck : exec (.sqrt d a) s = issue (.sqrt d a) (some .unsupported)
        { dests := writeField d (fieldSqrt s.modulus (s.ints a)) } s :=
      congrArg (issue _ · _ s) (if_neg (mt (hasSqrt_iff_mod_eight _).1 h8))
    rw [hcheck, issue_rejected hr]
    rfl
  case supported =>
    have hla := hs.lazyForm_ints ha
    have hcheck : exec (.sqrt d a) s = issue (.sqrt d a) (operandError [.field a] s)
        { dests := writeField d (fieldSqrt s.modulus (s.ints a)) } s :=
      congrArg (issue _ · _ s) (if_pos ((hasSqrt_iff_mod_eight _).2 h8))
    refine ⟨_, runs_writeReg hr hcheck (List.forall_mem_singleton.2 ha), ?_⟩
    rw [fieldSqrt_eq_normalize hla]
    exact val_sqrtCandidate s.modulus (s.ints a) ▸ holdsCanonical_normalize (lazyForm_sqrtCandidate hla)

/-- The candidate root squares to x·x^((p−1)/4) (R130). -/
theorem pow_sqrtExponent_sq {p : Nat} (h8 : p % 8 = 5) (x : Int) : (x ^ ((p + 3) / 8)) ^ 2 = x * x ^ ((p - 1) / 4) := by
  have he : (p + 3) / 8 * 2 = (p - 1) / 4 + 1 := by omega
  rw [← pow_mul, he, pow_succ']

/-- I² = −1 modulo p, as integers (R128). -/
theorem sqrtConstant_sq_modEq {m : ModulusId} (h : m.hasSqrt = true) : (sqrtConstant m : Int) ^ 2 ≡ -1 [ZMOD m.p] := by
  have hdvd : (m.p : Int) ∣ (sqrtConstant m : Int) ^ 2 + 1 := by
    exact_mod_cast Nat.dvd_of_mod_eq_zero (sqrtConstant_sq_add_one m h)
  exact (Int.modEq_iff_dvd.2 (by rwa [sub_neg_eq_add])).symm

/-- The value SQRT writes, squared modulo p, in the three cases of R130. -/
theorem sqrtCandidate_sq {p : Nat} {x I : Int} (h2 : 2 < p) (h8 : p % 8 = 5) (hI : I ^ 2 ≡ -1 [ZMOD p])
    (h : x ^ ((p - 1) / 4) % p = 1 ∨ x ^ ((p - 1) / 4) % p = p - 1 ∨ x = 0) :
    (if x ^ ((p - 1) / 4) % p = 1 then x ^ ((p + 3) / 8) % p else x ^ ((p + 3) / 8) * I % p) ^ 2 ≡ x [ZMOD p] := by
  have hbeta := pow_sqrtExponent_sq h8 x
  obtain h | h | rfl := h
  case inl =>
    have hq : x ^ ((p - 1) / 4) ≡ 1 [ZMOD p] := (Int.mod_modEq _ _).symm.trans (by rw [h])
    rw [if_pos h]
    calc (x ^ ((p + 3) / 8) % p) ^ 2 ≡ (x ^ ((p + 3) / 8)) ^ 2 [ZMOD p] := (Int.mod_modEq _ _).pow 2
      _ = x * x ^ ((p - 1) / 4) := hbeta
      _ ≡ x * 1 [ZMOD p] := hq.mul_left x
      _ = x := mul_one x
  case inr.inl =>
    have hq : x ^ ((p - 1) / 4) ≡ -1 [ZMOD p] :=
      (Int.mod_modEq _ _).symm.trans (by rw [h]; exact Int.modEq_iff_dvd.2 ⟨-1, by ring⟩)
    rw [if_neg (by omega)]
    calc (x ^ ((p + 3) / 8) * I % p) ^ 2 ≡ (x ^ ((p + 3) / 8) * I) ^ 2 [ZMOD p] := (Int.mod_modEq _ _).pow 2
      _ = x * x ^ ((p - 1) / 4) * I ^ 2 := by rw [mul_pow, hbeta]
      _ ≡ x * -1 * -1 [ZMOD p] := (hq.mul_left x).mul hI
      _ = x := by ring
  case inr.inr =>
    have hquartic : (p - 1) / 4 ≠ 0 := by omega
    have hroot : (p + 3) / 8 ≠ 0 := by omega
    simp [hquartic, hroot]

/-- Settles O46: the value of `sqrtResult` squares back to x by `sqrtCandidate_sq`. -/
theorem sqrtSquaresBack : Obligations.SqrtSquaresBack := by
  intro s d a hs hr h8 ha hcases
  obtain ⟨r, hrun, hcanon⟩ := (sqrtResult s d a hs hr).2 h8 ha
  have hI := sqrtConstant_sq_modEq ((hasSqrt_iff_mod_eight _).2 h8)
  exact ⟨r, _, hrun, hcanon, (sqrtCandidate_sq (two_lt_p _) h8 hI hcases).eq.trans (valAt_emod s a)⟩

end Sys2Proof.Machine
end

section
/-! PROOFS. Comparison, bits, masks and selection (44_compare_select.md R131 to R142): one canonical vector for each value, and
the bits of a canonical vector and the OR of two of them as those of the numbers they stand for. -/

namespace Sys2Proof.Machine

/-! ### Natural numbers and their limbs -/

theorem asr_natCast (x k : Nat) : asr x k = (x / 2 ^ k : Nat) := (Int.natCast_ediv _ _).symm

theorem lowBits_natCast (x k : Nat) : lowBits x k = (x % 2 ^ k : Nat) := (Int.natCast_emod _ _).symm

/-- bits(x)[i:i] of a natural number is its bit i (R13). -/
theorem bitOf_natCast_eq_one_iff (x i : Nat) : bitOf x i = 1 ↔ x.testBit i = true := by
  rw [bitOf, asr_natCast, Nat.testBit_eq_decide_div_mod_eq, decide_eq_true_iff]
  omega

theorem exists_limbCount_eq_succ (m : ModulusId) : ∃ k, m.limbCount = k + 1 :=
  Nat.exists_eq_add_one.2 (Nat.zero_lt_of_lt (limbCount_ge m))

/-! ### Values as natural numbers -/

/-- What a source is normalized to, as the split of a natural number. -/
theorem normalize_ints_eq_split {s : State} (hs : s.Inv) {a : Slot} (ha : s.FieldAt a) :
    normalize s.modulus (s.ints a) = split s.modulus (s.valAt a).toNat := by
  rw [State.valAt, Int.toNat_of_nonneg (val_nonneg _ _)]
  exact normalize_eq_split (hs.lazyForm_ints ha)

theorem toNat_valAt_lt (s : State) (a : Slot) : (s.valAt a).toNat < 2 ^ s.modulus.n := by
  have hval : (s.valAt a).toNat < s.modulus.p := (Int.toNat_lt (val_nonneg _ _)).2 (val_lt _ _)
  exact hval.trans_le (Nat.sub_le _ _)

/-! ### EQ (R133) -/

/-- Two lazy-form vectors normalize to one vector exactly when they have one value. -/
theorem normalize_eq_iff {m : ModulusId} {x y : List Int} (hx : lazyForm m x = true) (hy : lazyForm m y = true) :
    normalize m x = normalize m y ↔ val m x = val m y := by
  constructor
  · intro h
    rw [← vInt_normalize hx, ← vInt_normalize hy, h]
  · intro h
    exact AlikeVec.normalize_eq ⟨hx, hy, h⟩

/-- Settles O47: the normalized vectors EQ compares are equal exactly when the values are. -/
theorem eqResult : Obligations.EqResult := by
  intro s a b hs hr ha hb
  have hla := hs.lazyForm_ints ha
  have hlb := hs.lazyForm_ints hb
  have hrun := runs_of_usable (i := .eq a b) (sources := [.field a, .field b]) hr rfl
    (List.forall_mem_cons.2 ⟨ha, List.forall_mem_singleton.2 hb⟩)
  simp only [flagWord, beq_iff_eq, normalize_eq_iff hla hlb] at hrun
  exact ⟨_, _, hrun, holdsCanonical_normalize hla, holdsCanonical_normalize hlb⟩

/-! ### BIT (R135, R136) -/

/-- Bit i of limb j of the split of a number is the number's bit B·j + i. -/
theorem bitOf_getD_splitAt {B i : Nat} (hi : i < B) {k j : Nat} (hj : j ≤ k) (x : Nat) :
    bitOf ((splitAt B (k + 1) x).getD j 0) i = 1 ↔ x.testBit (B * j + i) = true := by
  induction k generalizing j x with
  | zero =>
    obtain rfl : j = 0 := by omega
    simpa [splitAt] using bitOf_natCast_eq_one_iff x i
  | succ k ih =>
    rw [splitAt, lowBits_natCast, asr_natCast]
    cases j with
    | zero => rw [List.getD_cons_zero, bitOf_natCast_eq_one_iff, Nat.testBit_mod_two_pow]; simp [hi]
    | succ j =>
      rw [List.getD_cons_succ, ih (by omega), Nat.testBit_div_two_pow, show B * j + i + B = B * (j + 1) + i by ring]

/-- The bit BIT picks from the split of a number is that number's bit (R135). -/
theorem limbBit_split {m : ModulusId} {idx : Nat} (h : idx < m.n) (x : Nat) :
    limbBit m (split m x) idx = 1 ↔ x.testBit idx = true := by
  obtain ⟨k, hk⟩ := exists_limbCount_eq_succ m
  have hn : m.n ≤ (k + 1) * m.limbWidth := hk ▸ (configuration_bounds m).limbsWideEnough
  have hB : 0 < m.limbWidth := by have := (configuration_bounds m).limbWidthChoice; omega
  have hj : idx / m.limbWidth ≤ k := Nat.le_of_lt_succ ((Nat.div_lt_iff_lt_mul hB).2 (h.trans_le hn))
  rw [limbBit, split, hk, bitOf_getD_splitAt (Nat.mod_lt _ hB) hj, Nat.div_add_mod]

/-- BIT with a usable source: its index check alone decides (R136). -/
theorem exec_bit_of_usable {s : State} {a : Slot} (ha : s.FieldAt a) :
    exec (.bit a) s = issue (.bit a) (if s.arg.toNat < s.modulus.n then none else some .arg)
      { writeBacks := writeField a (normalize s.modulus (s.ints a))
        result := some (flagWord (limbBit s.modulus (normalize s.modulus (s.ints a)) s.arg.toNat == 1)) } s := by
  have husable : operandError [.field a] s = none := operandError_eq_none_iff.2 (List.forall_mem_singleton.2 ha)
  rw [exec, execBit, husable]
  rfl

/-- Settles O48: behind the operand check BIT's index check decides, and the bit of the canonical vector is the value's. -/
theorem bitResult : Obligations.BitResult := by
  intro s a hs hr ha
  have hexec := exec_bit_of_usable ha
  refine ⟨fun hidx => ?below, fun hidx => ?above⟩
  case below =>
    have hbit : limbBit s.modulus (normalize s.modulus (s.ints a)) s.arg.toNat = 1 ↔
        (s.valAt a).toNat.testBit s.arg.toNat = true := by
      rw [normalize_ints_eq_split hs ha]
      exact limbBit_split hidx _
    rw [if_pos hidx] at hexec
    have hrun := runs_of_exec hr hexec
    simp only [flagWord, beq_iff_eq, hbit] at hrun
    exact ⟨_, hrun, holdsCanonical_normalize (hs.lazyForm_ints ha)⟩
  case above =>
    rw [hexec, if_neg (Nat.not_lt.2 hidx), issue_rejected hr]
    rfl

/-! ### FILL (R137) -/

theorem maskWord_eq (b : Bool) : maskWord b = if b then 0xFFFFFFFFFFFFFFFF else 0 := by cases b <;> rfl

/-- Settles O49: FILL's one pending write is the Mask of bit 0 of ARG. -/
theorem fillResult : Obligations.FillResult := by
  intro s d hr
  rw [← maskWord_eq]
  exact runs_writeReg (sources := []) hr rfl (List.forall_mem_nil _)

/-! ### ANDM and CSEL (R138, R140) -/

/-- A register written with the canonical vector of a number below p. -/
theorem holdsCanonical_split {m : ModulusId} {x : Int} (h0 : 0 ≤ x) (h1 : x < (m.p : Int)) :
    (fieldReg (split m x)).HoldsCanonical m x := by
  have hcanon := canonical_split m h0 h1
  refine ⟨rfl, rfl, ?_, ?_⟩ <;> rw [fieldReg_toInts (.refl (lazyForm_of_canonical m hcanon))]
  · exact hcanon
  · exact vInt_split m x

/-- Settles O50: against a Mask the AND keeps the canonical vector or clears it, and the blend is one of the two vectors. -/
theorem maskedSelectionResults : Obligations.MaskedSelectionResults := by
  intro s d a b k bit hs hr ha hb ⟨hvalid, htag, hlimbs⟩
  have hla := hs.lazyForm_ints ha
  have hlb := hs.lazyForm_ints hb
  have hca := holdsCanonical_normalize hla
  have hcb := holdsCanonical_normalize hlb
  have hmask : ∀ x ∈ [Source.mask k], x.Usable s := List.forall_mem_singleton.2 ⟨hvalid, htag⟩
  refine ⟨?andm, ?csel⟩
  case andm =>
    have hrun := runs_of_usable (i := .andm d a k) (sources := [.field a, .mask k]) hr rfl (List.forall_mem_cons.2 ⟨ha, hmask⟩)
    rw [hlimbs, andWords_mask (lazyForm_normalize hla)] at hrun
    refine ⟨_, _, hrun, hca, ?_⟩
    cases bit
    · exact holdsCanonical_split le_rfl (Int.natCast_pos.2 (p_pos _))
    · exact hca
  case csel =>
    have hrun := runs_of_usable (i := .csel d a b k) (sources := [.field a, .field b, .mask k]) hr rfl
      (List.forall_mem_cons.2 ⟨ha, List.forall_mem_cons.2 ⟨hb, hmask⟩⟩)
    rw [hlimbs, blendWords_mask (lazyForm_normalize hla) (lazyForm_normalize hlb)] at hrun
    refine ⟨_, _, _, hrun, hca, hcb, ?_⟩
    cases bit
    · exact hcb
    · exact hca

/-! ### ORM (R139, R142) -/

/-- The OR of two words that hold numbers below 2^63 is the OR of the numbers. -/
theorem toInt_or_ofInt_natCast {x y : Nat} (hx : x < 2 ^ 63) (hy : y < 2 ^ 63) :
    (BitVec.ofInt 64 x ||| BitVec.ofInt 64 y).toInt = (x ||| y : Nat) := by
  have hor : x ||| y < 2 ^ 63 := Nat.or_lt_two_pow hx hy
  rw [BitVec.ofInt_natCast, BitVec.ofInt_natCast, ← BitVec.ofNat_or, ← BitVec.ofInt_natCast]
  exact BitVec.toInt_ofInt_eq_self (by decide) (by omega) (by omega)

/-- The OR of the splits of two numbers is the split of their OR, where the lower limbs and the top limb fit a word. -/
theorem orWords_splitAt {B T : Nat} (hB : B ≤ 63) (hT : T ≤ 63) (k : Nat) {x y : Nat} (hx : x < 2 ^ (B * k + T))
    (hy : y < 2 ^ (B * k + T)) : orWords (splitAt B (k + 1) x) (splitAt B (k + 1) y) = splitAt B (k + 1) (x ||| y : Nat) := by
  induction k generalizing x y with
  | zero =>
    have hle : 2 ^ (B * 0 + T) ≤ 2 ^ 63 := Nat.pow_le_pow_right (by decide) (by omega)
    exact congrArg (fun z => [z]) (toInt_or_ofInt_natCast (hx.trans_le hle) (hy.trans_le hle))
  | succ k ih =>
    have hmod (z : Nat) : z % 2 ^ B < 2 ^ 63 :=
      (Nat.mod_lt _ (Nat.two_pow_pos B)).trans_le (Nat.pow_le_pow_right (by decide) hB)
    have hdiv {z : Nat} (hz : z < 2 ^ (B * (k + 1) + T)) : z / 2 ^ B < 2 ^ (B * k + T) :=
      Nat.div_lt_of_lt_mul (by rwa [← pow_add, show B + (B * k + T) = B * (k + 1) + T by ring])
    have hhead := toInt_or_ofInt_natCast (hmod x) (hmod y)
    have htail := ih (hdiv hx) (hdiv hy)
    rw [← Nat.or_mod_two_pow] at hhead
    rw [← Nat.or_div_two_pow] at htail
    simp only [splitAt, lowBits_natCast, asr_natCast]
    exact congrArg₂ List.cons hhead htail

/-- The OR of the splits of two numbers below 2^n is the split of their OR (R139). -/
theorem orWords_split {m : ModulusId} {x y : Nat} (hx : x < 2 ^ m.n) (hy : y < 2 ^ m.n) :
    orWords (split m x) (split m y) = split m (x ||| y : Nat) := by
  obtain ⟨k, hk⟩ := exists_limbCount_eq_succ m
  have hB : m.limbWidth ≤ 63 := by have := (configuration_bounds m).limbWidthChoice; omega
  have hT : m.topWidth ≤ 63 := (configuration_bounds m).topWidthAtMost.trans (by decide)
  rw [n_eq, hk, Nat.add_sub_cancel] at hx hy
  rw [split, split, split, hk]
  exact orWords_splitAt hB hT k hx hy

/-- Settles O51: what ORM writes is the split of the OR of the two values, which is below 2^n. -/
theorem ormResult : Obligations.OrmResult := by
  intro s d a b hs hr ha hb x
  have hlt : (x : Int) < pow2 s.modulus.n := Int.ofNat_lt.2 (Nat.or_lt_two_pow (toNat_valAt_lt s a) (toNat_valAt_lt s b))
  have hor : orWords (normalize s.modulus (s.ints a)) (normalize s.modulus (s.ints b)) = split s.modulus x := by
    rw [normalize_ints_eq_split hs ha, normalize_ints_eq_split hs hb]
    exact orWords_split (toNat_valAt_lt s a) (toNat_valAt_lt s b)
  have hlazy := lazyForm_split_of_lt_pow (Int.natCast_nonneg x) hlt
  have hholds := holds_fieldReg hlazy
  rw [val_split] at hholds
  have hrun := runs_of_usable (i := .orm d a b) (sources := [.field a, .field b]) hr rfl
    (List.forall_mem_cons.2 ⟨ha, List.forall_mem_singleton.2 hb⟩)
  rw [hor] at hrun
  refine ⟨_, _, _, hrun, holdsCanonical_normalize (hs.lazyForm_ints ha), holdsCanonical_normalize (hs.lazyForm_ints hb), ?_,
    hholds, ?_⟩ <;> rw [fieldReg_toInts (.refl hlazy)]
  · exact vInt_split _ _
  · exact topLimb_split_bounds (Int.natCast_nonneg x) hlt

end Sys2Proof.Machine
end

section
/-! PROOFS. The curve commands (45_curve.md R143 to R159): what the limb-level point formulas represent modulo p, and that the
registers each command writes hold it. -/

namespace Sys2Proof.Machine

/-! ### What a limb vector represents modulo p -/

/-- The class of V(w) modulo p. -/
def residue (m : ModulusId) (w : List Int) : ZMod m.p := (vInt m w : Int)

theorem intCast_val (m : ModulusId) (w : List Int) : (val m w : ZMod m.p) = residue m w := ZMod.intCast_mod _ _

@[simp] theorem residue_split (m : ModulusId) (R : Int) : residue m (split m R) = (R : ZMod m.p) := by rw [residue, vInt_split]

@[simp] theorem residue_fieldMul (m : ModulusId) (x y : List Int) : residue m (fieldMul m x y) = residue m x * residue m y := by
  rw [← intCast_val, val_fieldMul, ZMod.intCast_mod, Int.cast_mul, intCast_val, intCast_val]

theorem residue_fieldAdd {m : ModulusId} {x y : List Int} (hx : x.length = m.limbCount) (hy : y.length = m.limbCount) :
    residue m (fieldAdd m x y) = residue m x + residue m y := by
  rw [← intCast_val, val_fieldAdd m hx hy, ZMod.intCast_mod, Int.cast_add, intCast_val, intCast_val]

theorem residue_fieldSub {m : ModulusId} {x y : List Int} (hx : x.length = m.limbCount) (hy : y.length = m.limbCount) :
    residue m (fieldSub m x y) = residue m x - residue m y := by
  rw [← intCast_val, val_fieldSub m hx hy, ZMod.intCast_mod, Int.cast_sub, intCast_val, intCast_val]

theorem residue_normalize {m : ModulusId} {w : List Int} (h : lazyForm m w = true) : residue m (normalize m w) = residue m w := by
  rw [residue, vInt_normalize h, intCast_val]

theorem AlikeVec.length {m : ModulusId} {x : List Int} (h : AlikeVec m x x) : x.length = m.limbCount := length_of_lazyForm h.lazyLeft

/-! ### What a point represents modulo p -/

/-- The point over Z/p that four limb vectors represent. -/
def Point.residue (m : ModulusId) (P : Point) : RingPoint (ZMod m.p) :=
  { X := Machine.residue m P.X, Y := Machine.residue m P.Y, Z := Machine.residue m P.Z, T := Machine.residue m P.T }

theorem residue_identity (m : ModulusId) : (identityPoint m).residue m = ringIdentity := by
  simp [Point.residue, identityPoint, ringIdentity]

theorem residue_pointAdd {m : ModulusId} {P Q : Point} (ca cd : List Int) (hP : AlikePoint m P P) (hQ : AlikePoint m Q Q) :
    (pointAdd m ca cd P Q).residue m = ringAdd (residue m ca) (residue m cd) (P.residue m) (Q.residue m) := by
  simp only [pointAdd, productPoint, Point.residue, ringAdd, residue_fieldMul, residue_fieldAdd, residue_fieldSub, length_fieldMul,
    length_fieldSub, hP.X.length, hP.Y.length, hQ.X.length, hQ.Y.length, RingPoint.mk.injEq]
  refine ⟨?_, ?_, ?_, ?_⟩ <;> ring

theorem residue_pointDouble {m : ModulusId} {P : Point} (ca : List Int) (hP : AlikePoint m P P) :
    (pointDouble m ca P).residue m = ringDouble (residue m ca) (P.residue m) := by
  simp only [pointDouble, productPoint, Point.residue, ringDouble, residue_fieldMul, residue_fieldAdd, residue_fieldSub,
    length_fieldMul, length_fieldAdd, length_fieldSub, hP.X.length, hP.Y.length, RingPoint.mk.injEq]
  refine ⟨?_, ?_, ?_, ?_⟩ <;> ring

/-! ### The ladder (R154 to R159) -/

/-- Every coordinate normalized (R89). -/
def Point.normalize (m : ModulusId) (P : Point) : Point :=
  { X := Machine.normalize m P.X, Y := Machine.normalize m P.Y, Z := Machine.normalize m P.Z, T := Machine.normalize m P.T }

/-- csel by a Mask picks one point or the other, normalized (R155). -/
theorem pointCsel_mask {m : ModulusId} {P Q : Point} (hP : AlikePoint m P P) (hQ : AlikePoint m Q Q) (b : Bool) :
    pointCsel m P Q (List.replicate m.limbCount (maskWord b)) =
      if b then P.normalize m else Q.normalize m := by
  simp only [pointCsel, fieldCsel_mask hP.X.lazyLeft hQ.X.lazyLeft, fieldCsel_mask hP.Y.lazyLeft hQ.Y.lazyLeft,
    fieldCsel_mask hP.Z.lazyLeft hQ.Z.lazyLeft, fieldCsel_mask hP.T.lazyLeft hQ.T.lazyLeft]
  cases b <;> rfl

theorem residue_normalizePoint {m : ModulusId} {P : Point} (hP : AlikePoint m P P) :
    (P.normalize m).residue m = P.residue m := by
  simp only [Point.residue, Point.normalize, residue_normalize hP.X.lazyLeft, residue_normalize hP.Y.lazyLeft,
    residue_normalize hP.Z.lazyLeft, residue_normalize hP.T.lazyLeft]

theorem residue_pointCsel {m : ModulusId} {P Q : Point} (hP : AlikePoint m P P) (hQ : AlikePoint m Q Q) (b : Bool) :
    (pointCsel m P Q (List.replicate m.limbCount (maskWord b))).residue m = if b then P.residue m else Q.residue m := by
  rw [pointCsel_mask hP hQ]
  cases b
  · exact residue_normalizePoint hQ
  · exact residue_normalizePoint hP

/-- Every coordinate is canonical (R29). -/
structure CanonicalPoint (m : ModulusId) (P : Point) : Prop where
  X : canonical m P.X = true
  Y : canonical m P.Y = true
  Z : canonical m P.Z = true
  T : canonical m P.T = true

theorem canonicalPoint_normalize {m : ModulusId} {P : Point} (hP : AlikePoint m P P) : CanonicalPoint m (P.normalize m) :=
  ⟨canonical_normalize hP.X.lazyLeft, canonical_normalize hP.Y.lazyLeft, canonical_normalize hP.Z.lazyLeft,
    canonical_normalize hP.T.lazyLeft⟩

theorem canonicalPoint_csel {m : ModulusId} {P Q : Point} (hP : AlikePoint m P P) (hQ : AlikePoint m Q Q) (b : Bool) :
    CanonicalPoint m (pointCsel m P Q (List.replicate m.limbCount (maskWord b))) := by
  rw [pointCsel_mask hP hQ]
  cases b
  · exact canonicalPoint_normalize hQ
  · exact canonicalPoint_normalize hP

theorem one_lt_p (m : ModulusId) : (1 : Int) < m.p := by exact_mod_cast Nat.lt_of_succ_lt (two_lt_p m)

theorem canonicalPoint_identity (m : ModulusId) : CanonicalPoint m (identityPoint m) :=
  have h0 := canonical_split m le_rfl (one_pos.trans (one_lt_p m))
  have h1 := canonical_split m zero_le_one (one_lt_p m)
  ⟨h0, h1, h1, h0⟩

section

variable {m : ModulusId} {ca cd : List Int} (ha : AlikeVec m ca ca) (hd : AlikeVec m cd cd)
include ha hd

/-- The pair a ladder step answers represents the pair of the ladder over Z/p (R155). -/
theorem residue_ladderStep (b : Bool) {r : Point × Point} (h0 : AlikePoint m r.1 r.1) (h1 : AlikePoint m r.2 r.2) :
    ((ladderStep m ca cd (List.replicate m.limbCount (maskWord b)) r).1.residue m,
        (ladderStep m ca cd (List.replicate m.limbCount (maskWord b)) r).2.residue m) =
      if b then
        (ringAdd (residue m ca) (residue m cd) (r.1.residue m) (r.2.residue m), ringDouble (residue m ca) (r.2.residue m))
      else
        (ringDouble (residue m ca) (r.1.residue m), ringAdd (residue m ca) (residue m cd) (r.1.residue m) (r.2.residue m)) := by
  have hsum := alikePoint_add ha hd h0 h1
  simp only [ladderStep, residue_pointCsel hsum (alikePoint_double ha h0),
    residue_pointCsel (alikePoint_double ha h1) hsum, residue_pointAdd ca cd h0 h1, residue_pointDouble ca h0,
    residue_pointDouble ca h1]
  cases b <;> rfl

/-- The ladder steps follow the ladder over Z/p bit by bit of the scalar. -/
theorem residue_ladderSteps (K i : Nat) {r : Point × Point} (h0 : AlikePoint m r.1 r.1) (h1 : AlikePoint m r.2 r.2) :
    (ladderSteps m ca cd K i r).1.residue m =
      (ringLadder (residue m ca) (residue m cd) K i (r.1.residue m, r.2.residue m)).1 := by
  induction i generalizing r with
  | zero => rfl
  | succ i ih =>
    have hbit : (bitOf K i == 1) = K.testBit i := Bool.eq_iff_iff.2 (beq_iff_eq.trans (bitOf_natCast_eq_one_iff K i))
    obtain ⟨h0', h1'⟩ := alikePoint_ladderStep ha hd (K.testBit i) h0 h1
    rw [ladderSteps, ringLadder, hbit, ih h0' h1', ← residue_ladderStep ha hd (K.testBit i) h0 h1]

theorem canonicalPoint_ladderSteps (K : Int) (i : Nat) {r : Point × Point} (h0 : AlikePoint m r.1 r.1) (h1 : AlikePoint m r.2 r.2)
    (hc : CanonicalPoint m r.1) : CanonicalPoint m (ladderSteps m ca cd K i r).1 := by
  induction i generalizing r with
  | zero => exact hc
  | succ i ih =>
    obtain ⟨h0', h1'⟩ := alikePoint_ladderStep ha hd (bitOf K i == 1) h0 h1
    exact ih h0' h1' (canonicalPoint_csel (alikePoint_add ha hd h0 h1) (alikePoint_double ha h0) _)

theorem residue_ladder (K : Nat) {P : Point} (hP : AlikePoint m P P) :
    (ladder m ca cd K P).residue m = (ringLadder (residue m ca) (residue m cd) K m.n (ringIdentity, P.residue m)).1 := by
  rw [← residue_identity]
  exact residue_ladderSteps ha hd K m.n alikePoint_identity hP

theorem canonicalPoint_ladder (K : Int) {P : Point} (hP : AlikePoint m P P) : CanonicalPoint m (ladder m ca cd K P) :=
  canonicalPoint_ladderSteps ha hd K m.n alikePoint_identity hP (canonicalPoint_identity m)

end

/-! ### Doubling and the unified sum (R151) -/

/-- With a·X² + Y² = Z² + d·T² the double is minus the sum of the point with itself: of the four factors E, F, G
and H, the two formulas have E and G in common and F and H with opposite signs. -/
theorem ringDouble_eq_neg_ringAdd_self {R : Type} [CommRing R] {a d : R} {P : RingPoint R}
    (h : a * P.X ^ 2 + P.Y ^ 2 = P.Z ^ 2 + d * P.T ^ 2) :
    ringDouble a P =
      { X := -(ringAdd a d P P).X, Y := -(ringAdd a d P P).Y, Z := -(ringAdd a d P P).Z, T := -(ringAdd a d P P).T } := by
  simp only [ringDouble, ringAdd, h, RingPoint.mk.injEq]
  refine ⟨?_, ?_, ?_, ?_⟩ <;> ring

/-! ### Registers and runs -/

/-- The sources of a point command in a state that satisfies the invariant. -/
theorem State.Inv.alikePoint {s : State} (hs : s.Inv) {k : Slot} (hk : s.PointAt k) :
    AlikePoint s.modulus (s.point k) (s.point k) := (SameValues.refl s).alikePoint hs hs hk

theorem State.Inv.alikeCurve {s : State} (hs : s.Inv) (hc : s.CurveSet) :
    AlikeVec s.modulus s.caInts s.caInts ∧ AlikeVec s.modulus s.cdInts s.cdInts :=
  ⟨(SameValues.refl s).alikeCa hs hs hc, (SameValues.refl s).alikeCd hs hs hc⟩

theorem holdsMod_fieldReg {m : ModulusId} {w : List Int} (h : AlikeVec m w w) : (fieldReg w).HoldsMod m (residue m w) := by
  refine ⟨rfl, rfl, ?_, ?_⟩ <;> rw [fieldReg_toInts h]
  · exact h.lazyLeft
  · rfl

/-- The four registers a lazy-form point is written to hold what it represents. -/
theorem pointHolds_fieldReg {m : ModulusId} {Q : Point} (h : AlikePoint m Q Q) :
    PointHolds m (fieldReg Q.X) (fieldReg Q.Y) (fieldReg Q.Z) (fieldReg Q.T) (Q.residue m) :=
  ⟨holdsMod_fieldReg h.X, holdsMod_fieldReg h.Y, holdsMod_fieldReg h.Z, holdsMod_fieldReg h.T⟩

theorem isCanonical_fieldReg {m : ModulusId} {w : List Int} (h : canonical m w = true) : (fieldReg w).IsCanonical m := by
  rw [FieldReg.IsCanonical, fieldReg_toInts (.refl (lazyForm_of_canonical m h))]
  exact h

/-- A valid FIELD register is the record written with its own limbs. -/
theorem fieldReg_ints {s : State} {a : Slot} (ha : s.FieldAt a) : fieldReg (s.ints a) = s.reg a := by
  obtain ⟨hvalid, htag⟩ := ha
  rw [fieldReg, State.ints, toLimbs_toInts, ← hvalid, ← htag]

/-- A command whose pending writes are the four registers of a point. -/
theorem runs_writePoint {i : Instr} {sources : List Source} {s : State} {d : Slot} {Q : Point} (hr : s.Ready)
    (hx : exec i s = issue i (operandError sources s) { dests := writePoint d Q } s) (h : ∀ x ∈ sources, x.Usable s) :
    Runs i s ((s.setPoint d (fieldReg Q.X) (fieldReg Q.Y) (fieldReg Q.Z) (fieldReg Q.T)).setDone true) :=
  runs_of_usable hr hx h

/-- A command whose pending writes are a lazy-form point that represents q. -/
theorem exists_runs_pointHolds {i : Instr} {sources : List Source} {s : State} {d : Slot} {Q : Point}
    {q : RingPoint (ZMod s.modulus.p)} (hr : s.Ready)
    (hx : exec i s = issue i (operandError sources s) { dests := writePoint d Q } s) (h : ∀ x ∈ sources, x.Usable s)
    (hQ : AlikePoint s.modulus Q Q) (hq : Q.residue s.modulus = q) :
    ∃ x y z t : FieldReg, Runs i s ((s.setPoint d x y z t).setDone true) ∧ PointHolds s.modulus x y z t q :=
  ⟨_, _, _, _, runs_writePoint hr hx h, hq ▸ pointHolds_fieldReg hQ⟩

/-! ### SETA, SETD, PZERO and PINIT (R144 to R147) -/

/-- Settles O52: each command's one pending write is CA or CD with the register's limbs. -/
theorem setaSetdResults : Obligations.SetaSetdResults := by
  intro s a hr ha
  have hsrc : ∀ x ∈ [Source.field a], x.Usable s := List.forall_mem_singleton.2 ha
  exact ⟨runs_of_usable (r := { ca := some (curveReg (s.reg a).limbs) }) hr rfl hsrc,
    runs_of_usable (r := { cd := some (curveReg (s.reg a).limbs) }) hr rfl hsrc⟩

/-- Settles O53: the constants are canonical vectors of 0 and 1, and a source copied limb by limb is the register it came from. -/
theorem pzeroPinitResults : Obligations.PzeroPinitResults := by
  intro s hr
  have h0 := holdsCanonical_split (m := s.modulus) le_rfl (one_pos.trans (one_lt_p _))
  have h1 := holdsCanonical_split zero_le_one (one_lt_p s.modulus)
  refine ⟨fun d => ?pzero, fun d a b hs ha hb => ?pinit⟩
  case pzero =>
    have hrun : Runs (.pzero d) s _ :=
      runs_writePoint (sources := []) (d := d) (Q := identityPoint s.modulus) hr rfl (List.forall_mem_nil _)
    exact ⟨_, _, _, _, hrun, h0, h1, h1, h0⟩
  case pinit =>
    have hrun : Runs (.pinit d a b) s _ :=
      runs_writePoint (sources := [.field a, .field b]) (d := d) (Q := liftPoint s.modulus (s.ints a) (s.ints b)) hr rfl
        (List.forall_mem_cons.2 ⟨ha, List.forall_mem_singleton.2 hb⟩)
    simp only [liftPoint, fieldReg_ints ha, fieldReg_ints hb] at hrun
    exact ⟨_, _, hrun, h1, holds_fieldMul (hs.lazyForm_ints ha) (hs.lazyForm_ints hb)⟩

/-! ### PADD, PDBL and PTPL (R148 to R153) -/

/-- Settles O54: the limb-level formulas keep the lazy form and represent the laws over Z/p. -/
theorem pointArithmeticResults : Obligations.PointArithmeticResults := by
  intro s d a b hs hr hc ha hb
  obtain ⟨hca, hcd⟩ := hs.alikeCurve hc
  have hP := hs.alikePoint ha
  have hQ := hs.alikePoint hb
  have hdbl := alikePoint_double hca hP
  have hone : ∀ x ∈ [Source.point a, Source.curve], x.Usable s := List.forall_mem_cons.2 ⟨ha, List.forall_mem_singleton.2 hc⟩
  have htwo : ∀ x ∈ [Source.point a, Source.point b, Source.curve], x.Usable s :=
    List.forall_mem_cons.2 ⟨ha, List.forall_mem_cons.2 ⟨hb, List.forall_mem_singleton.2 hc⟩⟩
  refine ⟨?padd, ?pdbl, ?ptpl⟩
  case padd => exact exists_runs_pointHolds hr rfl htwo (alikePoint_add hca hcd hP hQ) (residue_pointAdd _ _ hP hQ)
  case pdbl => exact exists_runs_pointHolds hr rfl hone hdbl (residue_pointDouble _ hP)
  case ptpl =>
    refine exists_runs_pointHolds hr rfl hone (alikePoint_add hca hcd hdbl hP) ?_
    rw [residue_pointAdd _ _ hdbl hP, residue_pointDouble _ hP]
    rfl

/-- Settles O57: the two results of O54, of which one law is minus the other on the curve. -/
theorem doublingIsMinusTheUnifiedSum : Obligations.DoublingIsMinusTheUnifiedSum := by
  intro s d a hs hr hc ha hcurve
  obtain ⟨⟨x, y, z, t, hadd, hsum⟩, ⟨x', y', z', t', hdbl, hdouble⟩, -⟩ := pointArithmeticResults s d a a hs hr hc ha ha
  rw [ringDouble_eq_neg_ringAdd_self hcurve] at hdouble
  exact ⟨x, y, z, t, x', y', z', t', _, hadd, hsum, hdbl, hdouble⟩

/-! ### PMUL (R159) -/

/-- Settles O55: the normalized scalar is its value, whose bits drive the limb-level ladder as they drive the ladder over Z/p. -/
theorem pmulResult : Obligations.PmulResult := by
  intro s d a b hs hr hc ha hb
  obtain ⟨hca, hcd⟩ := hs.alikeCurve hc
  have hP := hs.alikePoint ha
  have hlb := hs.lazyForm_ints hb
  have hscalar : vInt s.modulus (normalize s.modulus (s.ints b)) = (s.valAt b).toNat :=
    (vInt_normalize hlb).trans (Int.toNat_of_nonneg (val_nonneg _ _)).symm
  have hrun := runs_of_usable (i := .pmul d a b) (sources := [.point a, .field b, .curve]) hr rfl
    (List.forall_mem_cons.2 ⟨ha, List.forall_mem_cons.2 ⟨hb, List.forall_mem_singleton.2 hc⟩⟩)
  rw [hscalar] at hrun
  have hcanon := canonicalPoint_ladder hca hcd (s.valAt b).toNat hP
  have hholds := pointHolds_fieldReg (alikePoint_ladder hca hcd (s.valAt b).toNat hP)
  rw [residue_ladder hca hcd _ hP] at hholds
  exact ⟨_, _, _, _, _, hrun, holdsCanonical_normalize hlb, isCanonical_fieldReg hcanon.X, isCanonical_fieldReg hcanon.Y,
    isCanonical_fieldReg hcanon.Z, isCanonical_fieldReg hcanon.T, hholds⟩

end Sys2Proof.Machine
end

section
/-! PROOFS. Noninterference (60_exceptions.md R161, 70_reset_and_hazards.md R197): every operation and every turn takes two states
that agree on what is public to two states that again do. -/

namespace Sys2Proof.Machine

/-! ### The public part of a command's results -/

/-- What is public of pending register writes: the slots, and the valid bit and tag of what is written. -/
def publicWrites (l : List (Slot × FieldReg)) : List (Slot × Bool × Tag) := l.map fun w => (w.1, w.2.valid, w.2.tag)

@[simp] theorem publicWrites_nil : publicWrites [] = [] := rfl

@[simp] theorem publicWrites_append (l l' : List (Slot × FieldReg)) :
    publicWrites (l ++ l') = publicWrites l ++ publicWrites l' := List.map_append

@[simp] theorem publicWrites_writeField (d : Slot) (w : List Int) : publicWrites (writeField d w) = [(d, true, .field)] := rfl

@[simp] theorem publicWrites_writePoint (d : Slot) (Q : Point) :
    publicWrites (writePoint d Q) = (coordSlots d).map fun i => (i, true, .field) := rfl

theorem samePublicWrites_of_eq {l l' : List (Slot × FieldReg)} (h : publicWrites l = publicWrites l') :
    List.Forall₂ (fun w w' => w.1 = w'.1 ∧ SamePublicReg w.2 w'.2) l l' := by
  rw [publicWrites, publicWrites, ← List.forall₂_eq_eq_eq, List.forall₂_map_left_iff, List.forall₂_map_right_iff] at h
  simpa [SamePublicReg] using h

theorem samePublicCurve_of_eq {c c' : Option CurveReg} (h : c.map CurveReg.valid = c'.map CurveReg.valid) :
    Option.Rel (fun c c' => c.valid = c'.valid) c c' := by
  cases c <;> cases c' <;> simp_all

/-- What is public of a command's results: what they write, not the values written. -/
structure PublicResults (a b : Results) : Prop where
  writeBacks : publicWrites a.writeBacks = publicWrites b.writeBacks := by simp
  dests : publicWrites a.dests = publicWrites b.dests := by simp
  ca : a.ca.map CurveReg.valid = b.ca.map CurveReg.valid := by rfl
  cd : a.cd.map CurveReg.valid = b.cd.map CurveReg.valid := by rfl

theorem PublicResults.samePublicResults {a b : Results} (h : PublicResults a b) : SamePublicResults a b :=
  ⟨samePublicWrites_of_eq h.writeBacks, samePublicWrites_of_eq h.dests, samePublicCurve_of_eq h.ca, samePublicCurve_of_eq h.cd⟩

/-- The command fails the same check in both states, or passes all of them; its results have the same public part. -/
def ExecPublic (i : Instr) (s t : State) : Prop :=
  ∃ f r r', exec i s = issue i f r s ∧ exec i t = issue i f r' t ∧ PublicResults r r'

theorem ExecPublic.intro {i : Instr} {s t : State} {f : State → Option ErrorCode} {R : State → Results}
    (hx : ∀ u, exec i u = issue i (f u) (R u) u) (hf : f s = f t) (hR : PublicResults (R s) (R t)) : ExecPublic i s t :=
  ⟨f s, R s, R t, hx s, hf ▸ hx t, hR⟩

namespace SamePublic

variable {s t : State} (h : SamePublic s t)
include h

/-! ### The checks of a command (R163) -/

theorem modulus : s.modulus = t.modulus := congrArg Params.modulus h.params

theorem valid (i : Slot) : (s.reg i).valid = (t.reg i).valid := (h.regs i).1

theorem tag (i : Slot) : (s.reg i).tag = (t.reg i).tag := (h.regs i).2

/-- The operand checks look at valid bits and tags alone. -/
theorem operandError (sources : List Source) : operandError sources s = operandError sources t := by
  have hvalid (x : Source) : x.valid s = x.valid t := by cases x <;> simp only [Source.valid, h.valid, h.ca, h.cd]
  have htyped (x : Source) : x.typed s = x.typed t := by cases x <;> simp only [Source.typed, h.tag]
  simp only [Machine.operandError, funext hvalid, funext htyped]

/-- Operand checks alone, on the sources listed. -/
theorem ofSources {i : Instr} (sources : List Source) {R : State → Results}
    (hx : ∀ u, exec i u = issue i (Machine.operandError sources u) (R u) u) (hR : PublicResults (R s) (R t)) : ExecPublic i s t :=
  .intro hx (h.operandError sources) hR

/-- No command's checks, nor the public part of its results, depend on data: SQRT's first check reads the configuration, BIT's last
one whether ARG is below n, and MOV copies a tag. -/
theorem execPublic (i : Instr) : ExecPublic i s t := by
  cases i with
  | fill d => exact .intro (f := fun _ => none) (fun _ => rfl) rfl { dests := rfl }
  | nop | ldc d k | unpack d | pzero d => exact .intro (f := fun _ => none) (fun _ => rfl) rfl {}
  | mov d a => exact h.ofSources [.any a] (fun _ => rfl) { dests := by simp [publicWrites, h.valid, h.tag] }
  | norm d => exact h.ofSources [.field d] (fun _ => rfl) {}
  | pack a | seta a | setd a => exact h.ofSources [.field a] (fun _ => rfl) {}
  | neg d a | sadd d a | ssub d a | smul d a | sqr d a | inv d a | leg d a => exact h.ofSources [.field a] (fun _ => rfl) {}
  | add d a b | sub d a b | mul d a b | div d a b | orm d a b | pinit d a b =>
    exact h.ofSources [.field a, .field b] (fun _ => rfl) {}
  | eq a b => exact h.ofSources [.field a, .field b] (fun _ => rfl) {}
  | andm d a k => exact h.ofSources [.field a, .mask k] (fun _ => rfl) {}
  | csel d a b k => exact h.ofSources [.field a, .field b, .mask k] (fun _ => rfl) {}
  | padd d a b => exact h.ofSources [.point a, .point b, .curve] (fun _ => rfl) {}
  | pdbl d a | ptpl d a => exact h.ofSources [.point a, .curve] (fun _ => rfl) {}
  | pmul d a b => exact h.ofSources [.point a, .field b, .curve] (fun _ => rfl) {}
  | sqrt d a =>
    refine .intro (f := fun u => if u.modulus.hasSqrt then Machine.operandError [.field a] u else some .unsupported)
      (fun _ => rfl) ?_ {}
    rw [h.modulus, h.operandError]
  | bit a =>
    refine .intro (f := fun u => (Machine.operandError [.field a] u).or (if u.bitIndex < u.modulus.n then none else some .arg))
      (fun _ => rfl) ?_ {}
    simp only [h.operandError, State.bitIndex, h.index, ← h.modulus]

/-! ### Errors, the gate and reset -/

theorem busy : s.busy = t.busy := isSome_of_rel h.inflight

theorem setError (b : Bool) (c : BitVec 4) : SamePublic (s.setError b c) (t.setError b c) := { h with err := rfl, ecode := rfl }

theorem raiseError (e : ErrorCode) : SamePublic (raiseError e s) (raiseError e t) := by
  unfold Machine.raiseError
  rw [← h.err]
  split
  · exact h
  · exact h.setError true e.code

theorem gate {u v : State} (huv : SamePublic u v) : SamePublic (gate s u) (gate t v) := by
  unfold Machine.gate
  rw [← h.err, ← h.busy]
  split
  · exact h
  · split
    · exact h.raiseError .busy
    · exact huv

theorem unlessBusy {u v : State} (huv : SamePublic u v) : SamePublic (unlessBusy s u) (unlessBusy t v) := by
  unfold Machine.unlessBusy
  rw [← h.busy]
  split
  · exact h.raiseError .busy
  · exact huv

theorem resetFapu : SamePublic (resetFapu s) (resetFapu t) where
  params := h.params
  regs i := by rw [resetFapu_reg, resetFapu_reg]; exact ⟨rfl, rfl⟩
  ca := rfl
  cd := rfl
  index := by rw [State.modulus, resetFapu_params, h.params]; rfl
  done := rfl
  err := rfl
  ecode := rfl
  ie := rfl
  inflight := .none
  agenda := h.agenda

/-! ### Issue and completion -/

theorem exec (i : Instr) : SameOutcome SamePublic (exec i s) (exec i t) := by
  obtain ⟨f, r, r', hs, ht, hr⟩ := h.execPublic i
  rw [hs, ht]
  refine h.gate ?_
  cases f with
  | none => exact { h with inflight := .some ⟨rfl, hr.samePublicResults⟩ }
  | some e => exact h.raiseError e

theorem setRegs {l l' : List (Slot × FieldReg)} (hl : List.Forall₂ (fun w w' => w.1 = w'.1 ∧ SamePublicReg w.2 w'.2) l l')
    (i : Slot) : SamePublicReg ((s.setRegs l).reg i) ((t.setRegs l').reg i) := by
  induction hl generalizing s t with
  | nil => exact h.regs i
  | @cons w w' l l' hw _ ih =>
    obtain ⟨hi, hr⟩ := hw
    refine ih (s := s.setReg w.1 w.2) (t := t.setReg w'.1 w'.2) { h with regs := fun j => ?_ }
    rw [setReg_reg, setReg_reg, hi]
    split
    · exact hr
    · exact h.regs j

theorem complete : SamePublic (complete s) (complete t) := by
  have hf := h.inflight
  unfold Machine.complete
  generalize s.inflight = a at hf
  generalize t.inflight = b at hf
  cases hf with
  | none => exact h
  | @some f g hfg =>
    obtain ⟨-, hback, hdest, hca, hcd⟩ := hfg
    exact
      { params := by simpa using h.params
        regs := fun i => by simpa [apply_reg] using h.setRegs (List.rel_append hback hdest) i
        ca := by simpa using getD_of_rel hca h.ca
        cd := by simpa using getD_of_rel hcd h.cd
        index := by simpa using h.index
        done := rfl
        err := by simpa using h.err
        ecode := by simpa using h.ecode
        ie := by simpa using h.ie
        inflight := .none
        agenda := by simpa using h.agenda }

/-! ### Host accesses -/

theorem hostAccess (addr bytes : Nat) {effect effect' : Nat → Outcome}
    (heffect : ∀ off, SameOutcome SamePublic (effect off) (effect' off)) :
    SameOutcome SamePublic (hostAccess addr bytes s effect) (hostAccess addr bytes t effect') := by
  unfold Machine.hostAccess inWindow
  rw [← h.params]
  split
  · split
    · exact heffect _
    · rfl
  · rfl

/-- What the host reads is not public. -/
theorem setReadData (v v' : Word) : SamePublic (s.setReadData v) (t.setReadData v') := { h with }

theorem writeCtrl (v : Word) : SamePublic (writeCtrl v s) (writeCtrl v t) := by
  unfold Machine.writeCtrl
  split
  · exact h.resetFapu
  · split
    · exact { h.setError false 0 with ie := rfl }
    · exact { h with ie := rfl }

theorem writeStatus (v : Word) : SamePublic (writeStatus v s) (writeStatus v t) := by
  unfold Machine.writeStatus
  split
  · exact { h with done := rfl }
  · exact h

theorem writeCmd (v : Word) : SameOutcome SamePublic (writeCmd v s) (writeCmd v t) := by
  unfold Machine.writeCmd
  split
  · exact h.exec _
  · exact h.gate (h.raiseError .illegal)

/-- Two ARG writes of which only "below n" agrees (R161). -/
theorem writeArg {v v' : Word} (hv : v.toNat < s.modulus.n ↔ v'.toNat < s.modulus.n) : SamePublic (writeArg v s) (writeArg v' t) :=
  h.unlessBusy { h with index := hv }

/-- Two DATA writes of any values. -/
theorem writeData (w : Nat) (v v' : Word) : SamePublic (writeData w v s) (writeData w v' t) := h.unlessBusy { h with }

theorem writeWindow (off : Nat) (v : Word) : SameOutcome SamePublic (writeWindow off v s) (writeWindow off v t) := by
  unfold Machine.writeWindow
  split
  · exact h.writeCtrl v
  split
  · exact h.writeStatus v
  split
  · exact h.writeCmd v
  split
  · exact h.writeArg Iff.rfl
  split
  · exact h.writeData _ v v
  · exact h

theorem takeTurn {a a' : Turn} (ha : SamePublicTurn s.params a a') : SameOutcome SamePublic (takeTurn a s) (takeTurn a' t) := by
  obtain rfl | ⟨v, v', rfl, rfl, hv⟩ | ⟨w, v, v', hw, rfl, rfl⟩ := ha
  · cases a with
    | read addr bytes =>
      simp only [Machine.takeTurn, busRead]
      exact h.hostAccess addr bytes fun off => h.setReadData (readWindow off s) (readWindow off t)
    | write addr bytes v => exact h.hostAccess addr bytes fun off => h.writeWindow off v
    | complete => exact h.complete
    | hardReset => exact h.resetFapu
  · rw [takeTurn_write (by decide) (by decide), h.params, takeTurn_write (by decide) (by decide)]
    exact h.writeArg hv
  · rw [Nat.add_assoc, takeTurn_write (by omega) (by omega), h.params, takeTurn_write (by omega) (by omega),
      writeWindow_data (by omega), writeWindow_data (by omega)]
    exact h.writeData w v v'

theorem step : SameOutcome SamePublic (step s) (step t) := by
  have hagenda := h.agenda
  generalize hs : s.agenda = l, ht : t.agenda = l' at hagenda
  cases hagenda with
  | nil =>
    rw [step_of_empty hs, step_of_empty ht]
    exact h.complete
  | @cons a a' rest rest' ha hrest =>
    rw [step_of_turn hs, step_of_turn ht]
    have hset : SamePublic (s.setAgenda rest) (t.setAgenda rest') := { h with agenda := hrest }
    exact hset.takeTurn ha

/-! ### What the host sees without reading data (R37, R53) -/

theorem statusWord : s.statusWord = t.statusWord := by simp only [State.statusWord, h.busy, h.done, h.err, h.ecode]

theorem irq : s.irq = t.irq := by simp only [State.irq, h.ie, h.done, h.err]

end SamePublic

theorem SameOutcome.mono {rel rel' : State → State → Prop} (hrel : ∀ u v, rel u v → rel' u v) {a b : Outcome}
    (h : SameOutcome rel a b) : SameOutcome rel' a b := by
  cases a <;> cases b
  case next.next u v => exact hrel u v h
  all_goals exact h

/-- Settles O59: `SamePublic.step` keeps the agreement, of which the STATUS word and irq are functions. -/
theorem statusAndIrqDependOnPublicData : Obligations.StatusAndIrqDependOnPublicData :=
  fun _ _ h => h.step.mono fun _ _ huv => ⟨huv, huv.statusWord, huv.irq⟩

end Sys2Proof.Machine
end

section
/-! PROOFS. The error model (60_exceptions.md R163 to R172): every CMD write is an issue, ERR and ECODE have no influence on a
completion, and each window write either keeps ERR, records an error or clears it. -/

namespace Sys2Proof.Machine

/-! ### A CMD write is an issue (R164, R186) -/

theorem takeTurn_writeCmd (s : State) (w : Word) : takeTurn (s.writeAt 0x00C w) s = writeCmd w s := by
  rw [takeTurn_writeAt rfl (by decide), writeWindow_cmd]

/-- A word that matches no row issues as a command that fails with E_ILLEGAL. -/
theorem writeCmd_eq_issue (w : Word) (s : State) :
    ∃ i f r, writeCmd w s = issue i f r s ∧ (f = none → decode w = .ok i) := by
  cases h : decode w with
  | ok i =>
    obtain ⟨f, r, hx⟩ := exec_eq_issue i s
    exact ⟨i, f, r, (writeCmd_of_decode h s).trans hx, fun _ => rfl⟩
  | error e => exact ⟨.nop, some .illegal, {}, by simp only [writeCmd, h]; rfl, by simp⟩

/-- So it passes the gate first. -/
theorem writeCmd_eq_gate (w : Word) (s : State) : ∃ rest, writeCmd w s = .next (gate s rest) := by
  obtain ⟨i, f, r, hx, -⟩ := writeCmd_eq_issue w s
  exact ⟨_, hx⟩

theorem writeCmd_of_err {s : State} (h : s.err = true) (w : Word) : writeCmd w s = .next s := by
  obtain ⟨rest, hx⟩ := writeCmd_eq_gate w s
  rw [hx, gate_of_err h]

/-- With a command in flight the gate records E_BUSY, if nothing is recorded yet. -/
theorem gate_of_inflight {s : State} (h : s.inflight ≠ none) (rest : State) : gate s rest = raiseError .busy s := by
  have hbusy : s.busy = true := Option.isSome_iff_ne_none.2 h
  cases he : s.err with
  | true => rw [gate_of_err he, raiseError_of_err he]
  | false => rw [gate_of_busy he hbusy, raiseError_of_clear he]

theorem writeCmd_of_inflight {s : State} (h : s.inflight ≠ none) (w : Word) : writeCmd w s = .next (raiseError .busy s) := by
  obtain ⟨rest, hx⟩ := writeCmd_eq_gate w s
  rw [hx, gate_of_inflight h]

/-! ### The completion does not look at ERR and ECODE (R165, R171) -/

theorem setRegs_setError (s : State) (b : Bool) (c : BitVec 4) (l : List (Slot × FieldReg)) :
    (s.setError b c).setRegs l = (s.setRegs l).setError b c := by
  induction l generalizing s with
  | nil => rfl
  | cons w l ih => exact ih (s.setReg w.1 w.2)

theorem apply_setError (r : Results) (s : State) (b : Bool) (c : BitVec 4) :
    r.apply (s.setError b c) = (r.apply s).setError b c := by
  rcases r with ⟨wb, ds, ca, cd, res, data⟩
  cases ca <;> cases cd <;> cases res <;> cases data <;> simp only [Results.apply, writeIf, setRegs_setError] <;> rfl

theorem complete_setError (s : State) (b : Bool) (c : BitVec 4) : complete (s.setError b c) = (complete s).setError b c := by
  cases h : s.inflight with
  | none => rw [complete_of_idle h, complete_of_idle (s := s.setError b c) h]
  | some f => rw [complete_of_inflight h, complete_of_inflight (s := s.setError b c) h, apply_setError]; rfl

theorem complete_err (s : State) : (complete s).err = s.err := by
  cases h : s.inflight with
  | none => rw [complete_of_idle h]
  | some f => simp [complete_of_inflight h]

/-! ### What each window write does to ERR (R165, R171, R172) -/

/-- CTRL clears ERR with SRST or ERRCLR, and never sets it. -/
theorem writeCtrl_err (v : Word) (s : State) : (writeCtrl v s).err = (s.err && !(v.getLsbD 0 || v.getLsbD 1)) := by
  cases h0 : v.getLsbD 0 with
  | true => rw [writeCtrl, if_pos h0, (atReset_resetFapu s).err]; simp
  | false => rw [writeCtrl_of_no_srst h0]; cases v.getLsbD 1 <;> simp

theorem writeStatus_err (v : Word) (s : State) : (writeStatus v s).err = s.err := by rw [writeStatus_eq]

/-- An ARG or DATA write keeps ERR or records E_BUSY: it never clears it. -/
theorem unlessBusy_err {s u : State} (hu : u.err = s.err) (h : s.err = true) : (unlessBusy s u).err = true := by
  unfold unlessBusy
  split
  · exact raiseError_err .busy s
  · exact hu.trans h

/-- Only a CTRL write with SRST or ERRCLR clears ERR. -/
theorem ctrl_of_writeWindow_clears {off : Nat} {v : Word} {s u : State} (h : writeWindow off v s = .next u) (hs : s.err = true)
    (hu : u.err = false) : off = 0x004 ∧ (v.getLsbD 0 = true ∨ v.getLsbD 1 = true) := by
  have keeps {P : Prop} (herr : u.err = true) : P := by rw [hu] at herr; cases herr
  obtain ⟨rfl, rfl⟩ | ⟨-, rfl⟩ | ⟨rfl, -⟩ | ⟨rfl, -⟩ | ⟨-, rfl⟩ | ⟨-, -, rfl⟩ | rfl := writeWindow_cases h
  · rw [writeCtrl_err, hs] at hu
    rw [Bool.true_and, Bool.not_eq_false', Bool.or_eq_true] at hu
    exact ⟨rfl, hu⟩
  · exact keeps ((writeStatus_err v s).trans hs)
  · rw [writeWindow_cmd, writeCmd_of_err hs] at h
    cases h; exact keeps hs
  · rw [writeWindow_cmd, writeCmd_of_err hs] at h
    cases h; exact keeps hs
  · exact keeps (unlessBusy_err rfl hs)
  · exact keeps (unlessBusy_err rfl hs)
  · exact keeps hs

/-- A write to an offset that is not guarded records no error. -/
theorem err_of_writeWindow_unguarded {off : Nat} {v : Word} {s u : State} (h4 : off % 4 = 0) (hg : ¬ GuardedOffset off)
    (h : writeWindow off v s = .next u) (hu : u.err = true) : s.err = true := by
  obtain ⟨-, rfl⟩ | ⟨-, rfl⟩ | ⟨ho, -⟩ | ⟨ho, -⟩ | ⟨ho, -⟩ | ⟨hlo, hhi, -⟩ | rfl := writeWindow_cases h
  · rw [writeCtrl_err, Bool.and_eq_true] at hu
    exact hu.1
  · exact (writeStatus_err v s).symm.trans hu
  · exact (hg (.inl ho)).elim
  · exact (hg (.inl ho)).elim
  · exact (hg (.inr (.inl ho))).elim
  · exact (hg (.inr (.inr ⟨(off - 0x040) / 4, by omega, by omega⟩))).elim
  · exact hu

/-- Every write of the window answers a next state. -/
theorem exists_writeWindow (off : Nat) (v : Word) (s : State) : ∃ u, writeWindow off v s = .next u := by
  unfold writeWindow
  split
  · exact ⟨_, rfl⟩
  split
  · exact ⟨_, rfl⟩
  split
  · obtain ⟨rest, hx⟩ := writeCmd_eq_gate v s
    exact ⟨_, hx⟩
  split
  · exact ⟨_, rfl⟩
  split <;> exact ⟨_, rfl⟩

/-- With a command in flight a write to CMD, ARG or DATA is discarded. -/
theorem takeTurn_writeAt_guarded {s : State} (hf : s.inflight ≠ none) {off : Nat} (hg : GuardedOffset off) (v : Word) :
    takeTurn (s.writeAt off v) s = .next (raiseError .busy s) := by
  obtain rfl | rfl | ⟨w, hw, rfl⟩ := hg
  · rw [takeTurn_writeCmd, writeCmd_of_inflight hf]
  · rw [takeTurn_writeArg, unlessBusy_of_inflight hf]
  · rw [takeTurn_writeData s hw, unlessBusy_of_inflight hf]

/-- Settles O17: each guarded write only records E_BUSY, which the completion does not look at. -/
theorem writesWhileBusyAreDiscarded : Obligations.WritesWhileBusyAreDiscarded := by
  intro s off v hf h4 hle
  refine ⟨fun hg => ⟨_, takeTurn_writeAt_guarded hf hg v, rfl, ?_, ?_⟩, fun hg => ?_, ⟨_, takeTurn_readAt h4 hle s, rfl, rfl⟩⟩
  · obtain ⟨b, c, hu⟩ := raiseError_eq_setError .busy s
    rw [hu, complete_setError]; rfl
  · refine complete_done_of_inflight ?_
    rwa [raiseError_keeps State.inflight (fun _ _ _ => rfl)]
  · obtain ⟨u, hu⟩ := exists_writeWindow off v s
    exact ⟨u, (takeTurn_writeAt h4 hle v s).trans hu, err_of_writeWindow_unguarded h4 hg hu⟩

/-- Settles O19: the three ways of a CMD write are the cases of the issue it is. -/
theorem anErrorIsRecordedAndNothingElse : Obligations.AnErrorIsRecordedAndNothingElse := by
  refine ⟨fun _ _ => rfl, fun s w => ?_, fun s off v hf ho => takeTurn_writeAt_guarded hf (.inr ho) v⟩
  obtain ⟨i, f, r, hx, hdecode⟩ := writeCmd_eq_issue w s
  refine ⟨_, (takeTurn_writeCmd s w).trans hx, ?_⟩
  obtain ⟨-, hu⟩ | ⟨herr, -, hu⟩ | ⟨hr, e, -, hu⟩ | ⟨hr, hf, hu⟩ := issue_cases (op := i) (failed := f) (r := r) (s := s) rfl
  · exact .inl hu
  · exact .inr (.inl ⟨herr, .busy, hu⟩)
  · exact .inr (.inl ⟨hr.1, e, hu⟩)
  · exact .inr (.inr ⟨i, hdecode hf, hr, r, hu⟩)

/-- Settles O22: of the turns, only the hardware reset and, by `ctrl_of_writeWindow_clears`, a CTRL write can clear ERR. -/
theorem onlyErrclrAndResetClearErr : Obligations.OnlyErrclrAndResetClearErr := by
  refine ⟨fun s v h0 h1 => ?_, fun s => ⟨_, rfl, rfl, rfl, fun v hv => takeTurn_ctrl_srst s hv⟩, fun s u h hs hu => ?_⟩
  · rw [takeTurn_writeAt rfl (by decide), writeWindow_ctrl, writeCtrl_of_no_srst h0, h1]; rfl
  have keeps {P : Prop} (herr : u.err = true) : P := by rw [hu] at herr; cases herr
  obtain ⟨-, rfl⟩ | ⟨t, rest, ha, ht⟩ := step_cases h
  · exact keeps ((complete_err s).trans hs)
  refine ⟨t, rest, ha, ?_⟩
  cases t with
  | hardReset => exact .inl rfl
  | complete => cases ht; exact keeps ((complete_err (s.setAgenda rest)).trans hs)
  | read addr bytes =>
    simp only [takeTurn, busRead] at ht
    obtain ⟨-, off, -, -, -, ht⟩ := hostAccess_next ht
    cases ht; exact keeps hs
  | write addr bytes v =>
    simp only [takeTurn, busWrite] at ht
    obtain ⟨rfl, off, -, -, rfl, hwrite⟩ := hostAccess_next ht
    obtain ⟨rfl, hv⟩ := ctrl_of_writeWindow_clears hwrite hs hu
    exact .inr ⟨v, rfl, hv⟩

/-- A register other than STATUS reads the same whatever ERR and ECODE are. -/
theorem readWindow_setError {off : Nat} (h : off ≠ 0x008) (s : State) (b : Bool) (c : BitVec 4) :
    readWindow off (s.setError b c) = readWindow off s := by
  unfold readWindow
  rw [if_neg h, if_neg h]
  rfl

/-- Settles O21: each access by its own equation; the completion by `complete_setError`. -/
theorem anErrorBlocksCommandsAlone : Obligations.AnErrorBlocksCommandsAlone := by
  intro s hs
  refine ⟨fun w => ?_, fun hf => ⟨fun v => ?_, fun w v hw => ?_⟩, fun off h4 hle => ⟨_, takeTurn_readAt h4 hle s, fun ho => ?_⟩,
    fun v => ?_, fun v hv => ⟨_, takeTurn_ctrl_srst s hv, atReset_resetFapu s, resetFapu_params s⟩, fun v hv => ?_, ?_⟩
  · rw [takeTurn_writeCmd, writeCmd_of_err hs]
  · rw [takeTurn_writeArg, unlessBusy_of_idle hf]; rfl
  · rw [takeTurn_writeData s hw, unlessBusy_of_idle hf]; rfl
  · rw [← readWindow_setError ho s false 0]
    exact takeTurn_readAt h4 hle (s.setError false 0)
  · exact (statusRegister s v).1
  · exact (ctrlRegister s v).2.1 hv
  · have heq : s = (s.setError false 0).setError true s.ecode := by rw [← hs]; rfl
    rw [← complete_setError, ← heq]

/-! ### The checks of a command, in the order of R163 -/

/-- The sources of a command: what it reads from its F, P, M and R slots, and CA and CD (R168). -/
def sourcesOf (i : Instr) : List Source :=
  i.fieldReads.map .field ++ i.maskReads.map .mask ++ i.anyReads.map .any ++ if i.readsCurve then [.curve] else []

/-- SQRT's check of the configuration (R167). -/
def supportError (i : Instr) (s : State) : Option ErrorCode :=
  match i with
  | .sqrt _ _ => if s.modulus.hasSqrt then none else some .unsupported
  | _ => none

/-- BIT's check of its index (R170). -/
def indexError (i : Instr) (s : State) : Option ErrorCode :=
  match i with
  | .bit _ => if s.bitIndex < s.modulus.n then none else some .arg
  | _ => none

/-- The check the command fails first. -/
def failedCheck (i : Instr) (s : State) : Option ErrorCode :=
  (supportError i s).or ((operandError (sourcesOf i) s).or (indexError i s))

theorem failedCheck_of_operands {i : Instr} {s : State} (hsup : supportError i s = none) (hidx : indexError i s = none) :
    failedCheck i s = operandError (sourcesOf i) s := by
  rw [failedCheck, hsup, hidx, Option.none_or, Option.or_none]

/-- A command with operand checks alone. -/
theorem exec_checks_operands {i : Instr} {s : State} {r : Results} (sources : List Source)
    (hx : exec i s = issue i (operandError sources s) r s)
    (hsources : operandError sources s = operandError (sourcesOf i) s := by rfl) (hsup : supportError i s = none := by rfl)
    (hidx : indexError i s = none := by rfl) : ∃ r, exec i s = issue i (failedCheck i s) r s :=
  ⟨r, by rw [failedCheck_of_operands hsup hidx, ← hsources, hx]⟩

/-- A P source is checked as the four F sources of the point's coordinates (R26). -/
theorem operandError_point (l l' : List Source) (k : Slot) (s : State) :
    operandError (l ++ .point k :: l') s = operandError (l ++ (coordSlots k).map .field ++ l') s := by
  simp [operandError, Source.valid, Source.typed, Function.comp_def]

/-- The issue procedure of every command fails with the command's first failing check. -/
theorem exec_checks (i : Instr) (s : State) : ∃ r, exec i s = issue i (failedCheck i s) r s := by
  cases i with
  | nop | ldc d k | unpack d | fill d | pzero d => exact exec_checks_operands [] rfl
  | mov d a => exact exec_checks_operands [.any a] rfl
  | norm d => exact exec_checks_operands [.field d] rfl
  | pack a | seta a | setd a => exact exec_checks_operands [.field a] rfl
  | neg d a | sadd d a | ssub d a | smul d a | sqr d a | inv d a | leg d a => exact exec_checks_operands [.field a] rfl
  | add d a b | sub d a b | mul d a b | div d a b | orm d a b | pinit d a b => exact exec_checks_operands [.field a, .field b] rfl
  | eq a b => exact exec_checks_operands [.field a, .field b] rfl
  | andm d a k => exact exec_checks_operands [.field a, .mask k] rfl
  | csel d a b k => exact exec_checks_operands [.field a, .field b, .mask k] rfl
  | padd d a b =>
    exact exec_checks_operands [.point a, .point b, .curve] rfl
      ((operandError_point [] [.point b, .curve] a s).trans (operandError_point ((coordSlots a).map .field) [.curve] b s))
  | pdbl d a | ptpl d a => exact exec_checks_operands [.point a, .curve] rfl (operandError_point [] [.curve] a s)
  | pmul d a b => exact exec_checks_operands [.point a, .field b, .curve] rfl (operandError_point [] [.field b, .curve] a s)
  | sqrt d a =>
    have hfailed : failedCheck (.sqrt d a) s = if s.modulus.hasSqrt then operandError [.field a] s else some .unsupported := by
      simp only [failedCheck, supportError, indexError, Option.or_none]
      split <;> rfl
    exact ⟨_, by rw [hfailed]; rfl⟩
  | bit a => exact ⟨_, rfl⟩

theorem sources_valid_iff (i : Instr) (s : State) : (sourcesOf i).all (Source.valid s) = true ↔ ¬ ReadsInvalid i s := by
  have hregs : (i.fieldReads.map Source.field ++ i.maskReads.map Source.mask ++ i.anyReads.map Source.any).all (Source.valid s) =
      true ↔ ¬ ∃ j ∈ i.fieldReads ++ i.maskReads ++ i.anyReads, (s.reg j).valid = false := by
    simp [Source.valid, or_imp, forall_and]
  have hcurve : (if i.readsCurve then [Source.curve] else []).all (Source.valid s) = true ↔
      ¬ (i.readsCurve = true ∧ (s.ca.valid = false ∨ s.cd.valid = false)) := by
    simp [Source.valid]
  rw [sourcesOf, List.all_append, Bool.and_eq_true, hregs, hcurve, ReadsInvalid, not_or]

theorem tag_ne_mask_iff (t : Tag) : ¬ t = .mask ↔ t = .field := by cases t <;> decide

theorem tag_ne_field_iff (t : Tag) : ¬ t = .field ↔ t = .mask := by cases t <;> decide

theorem sources_typed_iff (i : Instr) (s : State) : (sourcesOf i).all (Source.typed s) = true ↔ ¬ ReadsMistyped i s := by
  simp [sourcesOf, ReadsMistyped, Source.typed, tag_ne_mask_iff, tag_ne_field_iff]

/-! `Unsupported`, `ReadsInvalid`, `ReadsMistyped` and `IndexTooLarge` are propositions without a test of their own, so the choices
below are classical. -/

open Classical in
theorem supportError_eq (i : Instr) (s : State) : supportError i s = if Unsupported i s then some .unsupported else none := by
  unfold supportError Unsupported
  split
  · simp [hasSqrt_iff_mod_eight]
  · next h => rw [if_neg fun ⟨⟨d, a, hi⟩, _⟩ => h d a hi]

open Classical in
theorem operandError_eq (i : Instr) (s : State) : operandError (sourcesOf i) s =
    if ReadsInvalid i s then some .uninit else if ReadsMistyped i s then some .type else none := by
  simp only [operandError, sources_valid_iff, sources_typed_iff, ite_not]

open Classical in
theorem indexError_eq (i : Instr) (s : State) : indexError i s = if IndexTooLarge i s then some .arg else none := by
  unfold indexError IndexTooLarge
  split
  · next a =>
    have hlarge : (∃ a', Instr.bit a = .bit a') ∧ s.modulus.n ≤ s.arg.toNat ↔ ¬ s.bitIndex < s.modulus.n := by
      simp [State.bitIndex]
    simp only [hlarge, ite_not]
  · next h => rw [if_neg fun ⟨⟨a, hi⟩, _⟩ => h a hi]

open Classical in
/-- The order of R163. -/
theorem failedCheck_eq (i : Instr) (s : State) : failedCheck i s =
    if Unsupported i s then some .unsupported else if ReadsInvalid i s then some .uninit
    else if ReadsMistyped i s then some .type else if IndexTooLarge i s then some .arg else none := by
  rw [failedCheck, supportError_eq, operandError_eq, indexError_eq]
  split_ifs <;> rfl

/-- Settles O20: the gate decides first, then the decoder, then the command's checks in the order of `failedCheck_eq`. -/
theorem theFirstFailingCheckIsReported : Obligations.TheFirstFailingCheckIsReported := by
  intro s w
  rw [takeTurn_writeCmd]
  refine ⟨fun he => writeCmd_of_err he w, fun he hf => ?_, fun hr hno => ?_, fun i hr hdecode => ?_⟩
  · rw [writeCmd_of_inflight hf, raiseError_of_clear he]; rfl
  · obtain ⟨e, he⟩ := (exists_error_iff_forall_selects w).2 hno
    exact writeCmd_of_error he hr
  obtain ⟨r, hx⟩ := exec_checks i s
  rw [writeCmd_of_decode hdecode, hx, failedCheck_eq]
  refine ⟨fun h0 => ?_, fun h0 h1 => ?_, fun h0 h1 h2 => ?_, fun h0 h1 h2 h3 => ?_, fun h0 h1 h2 h3 => ?_⟩
  · rw [if_pos h0, issue_rejected hr]; rfl
  · rw [if_neg h0, if_pos h1, issue_rejected hr]; rfl
  · rw [if_neg h0, if_neg h1, if_pos h2, issue_rejected hr]; rfl
  · rw [if_neg h0, if_neg h1, if_neg h2, if_pos h3, issue_rejected hr]; rfl
  · rw [if_neg h0, if_neg h1, if_neg h2, if_neg h3, issue_accepted hr]
    refine ⟨_, rfl, rfl, ⟨r, rfl⟩, ?_⟩
    rw [complete_err]; exact hr.1

end Sys2Proof.Machine
end

section
/-! PROOFS. Issue, completion and the step (70_reset_and_hazards.md R186 to R194): what an issue and a host turn leave unchanged, what a
completion applies, the operands an issue depends on, and runs over the turns to come. -/

namespace Sys2Proof.Machine

/-! ### Issue (R186, R192) -/

/-- Settles O25: of the four ways an issue ends, two record an error and one puts the command in flight. -/
theorem nothingIsWrittenBeforeCompletion : Obligations.NothingIsWrittenBeforeCompletion := by
  intro i s t h
  obtain ⟨f, r, hx⟩ := exec_eq_issue i s
  obtain ⟨-, rfl⟩ | ⟨-, -, rfl⟩ | ⟨-, e, -, rfl⟩ | ⟨-, -, rfl⟩ := issue_cases (hx.symm.trans h)
  · exact ⟨rfl, fun _ => ⟨rfl, rfl⟩⟩
  · exact ⟨rfl, fun hne => (hne rfl).elim⟩
  · exact ⟨rfl, fun hne => (hne rfl).elim⟩
  · exact ⟨rfl, fun _ => ⟨rfl, rfl⟩⟩

/-! ### Host turns with a command in flight (R188, R198) -/

/-- The turn is a reset: the hardware reset input, or a CTRL write with SRST (R181). -/
def IsReset (s : State) (t : Turn) : Prop := t = .hardReset ∨ ∃ v : Word, t = s.writeAt 0x004 v ∧ v.getLsbD 0 = true

theorem not_isReset_iff {s : State} {t : Turn} :
    ¬ IsReset s t ↔ t ≠ .hardReset ∧ ∀ v : Word, t = s.writeAt 0x004 v → v.getLsbD 0 = false := by
  simp [IsReset]

/-- The two states differ at most in the flags of STATUS and CTRL and in what the host has read. -/
def SameButFlags (s u : State) : Prop :=
  ∃ done err ecode ie readData, u = { s with done := done, err := err, ecode := ecode, ie := ie, readData := readData }

theorem sameButFlags_raiseError (e : ErrorCode) (s : State) : SameButFlags s (raiseError e s) := by
  obtain ⟨b, c, h⟩ := raiseError_eq_setError e s
  exact ⟨_, _, _, _, _, h⟩

/-- With a command in flight a window write changes flags alone, unless it is SRST: the writes of CMD, ARG and DATA are discarded. -/
theorem sameButFlags_writeWindow {off : Nat} {v : Word} {s u : State} (hf : s.inflight ≠ none)
    (hv : off = 0x004 → v.getLsbD 0 = false) (h : writeWindow off v s = .next u) : SameButFlags s u := by
  obtain ⟨ho, rfl⟩ | ⟨-, rfl⟩ | ⟨rfl, -⟩ | ⟨rfl, -⟩ | ⟨-, rfl⟩ | ⟨-, -, rfl⟩ | rfl := writeWindow_cases h
  · rw [writeCtrl_of_no_srst (hv ho)]; exact ⟨_, _, _, _, _, rfl⟩
  · rw [writeStatus_eq]; exact ⟨_, _, _, _, _, rfl⟩
  · rw [writeWindow_cmd, writeCmd_of_inflight hf] at h
    cases h; exact sameButFlags_raiseError .busy s
  · rw [writeWindow_cmd, writeCmd_of_inflight hf] at h
    cases h; exact sameButFlags_raiseError .busy s
  · rw [writeArg, unlessBusy_of_inflight hf]; exact sameButFlags_raiseError .busy s
  · rw [writeData, unlessBusy_of_inflight hf]; exact sameButFlags_raiseError .busy s
  · exact ⟨_, _, _, _, _, rfl⟩

/-- With a command in flight every turn but the completion and a reset changes flags alone. -/
theorem sameButFlags_takeTurn {t : Turn} {s u : State} (hf : s.inflight ≠ none) (hc : t ≠ .complete) (hr : ¬ IsReset s t)
    (h : takeTurn t s = .next u) : SameButFlags s u := by
  cases t with
  | complete => exact (hc rfl).elim
  | hardReset => exact (hr (.inl rfl)).elim
  | read addr bytes =>
    simp only [takeTurn, busRead] at h
    obtain ⟨-, off, -, -, -, h⟩ := hostAccess_next h
    cases h; exact ⟨_, _, _, _, _, rfl⟩
  | write addr bytes v =>
    simp only [takeTurn, busWrite] at h
    obtain ⟨rfl, off, -, -, rfl, hwrite⟩ := hostAccess_next h
    refine sameButFlags_writeWindow hf (fun ho => ?_) hwrite
    subst ho
    exact (not_isReset_iff.1 hr).2 v rfl

/-- Settles O26: the turns that are left change flags alone. -/
theorem hostAccessesKeepTheSnapshot : Obligations.HostAccessesKeepTheSnapshot := by
  intro s u t hf h hc hhard hsoft
  obtain ⟨_, _, _, _, _, rfl⟩ := sameButFlags_takeTurn hf hc (not_isReset_iff.2 ⟨hhard, hsoft⟩) h
  exact ⟨rfl, rfl, rfl, rfl, rfl, rfl, rfl⟩

/-! ### Completion (R189, R190) -/

/-- A register after a list of writes holds the last write to it, or its old contents. -/
theorem setRegs_reg_eq_find (s : State) (l : List (Slot × FieldReg)) (i : Slot) :
    (s.setRegs l).reg i = ((l.reverse.find? (fun w => w.1 == i)).map Prod.snd).getD (s.reg i) := by
  induction l generalizing s with
  | nil => rfl
  | cons w l ih =>
    rw [State.setRegs, ih, setReg_reg, List.reverse_cons, List.find?_append]
    cases hlater : l.reverse.find? (fun w => w.1 == i) with
    | some w' => rfl
    | none => by_cases hw : w.1 = i <;> simp [hw]

/-- After the whole DATA window is written, it holds the bytes written. -/
theorem Memory.read_writeBytes_all {d : Memory} (hd : d.wf = true) {bs : List Byte} (hlen : bs.length = dataSize) (j : Nat) :
    (d.writeBytes 0 bs).read j = bs.getD j 0 := by
  rw [Memory.read_writeBytes hd (by omega)]
  by_cases hj : j < dataSize
  · rw [if_pos (by omega), Nat.sub_zero]
  · rw [if_neg (by omega), Memory.read_of_ge hd (by omega), List.getD_eq_default _ _ (by omega)]

theorem nodup_coordSlots (k : Slot) : (coordSlots k).Nodup := by simp [coordSlots, coordSlot_inj]

/-- No command names a destination register twice. -/
theorem nodup_destinations (i : Instr) : i.destinations.Nodup := by
  cases i with
  | nop | pack | eq | bit | seta | setd => exact List.nodup_nil
  | pzero | pinit | padd | pdbl | ptpl | pmul => exact nodup_coordSlots _
  | _ => exact List.nodup_singleton _

/-- Two write-backs to one register are its one canonical vector. -/
theorem WritesOnly.writeBacks_inj {i : Instr} {s : State} {r : Results} (hw : WritesOnly i s r) :
    ∀ w ∈ r.writeBacks, ∀ w' ∈ r.writeBacks, w.1 = w'.1 → w = w' := by
  intro w hmem w' hmem' he
  refine Prod.ext he ?_
  rw [(hw.writeBack_eq hmem).2, (hw.writeBack_eq hmem').2, he]

/-- Two destination writes to one register are the same entry of the list. -/
theorem WritesOnly.dests_inj {i : Instr} {s : State} {r : Results} (hw : WritesOnly i s r) :
    ∀ w ∈ r.dests, ∀ w' ∈ r.dests, w.1 = w'.1 → w = w' := by
  have hnodup : (r.dests.map Prod.fst).Nodup := hw.dests ▸ nodup_destinations i
  exact fun w hmem w' hmem' => List.inj_on_of_nodup_map hnodup hmem hmem'

/-- Settles O27: field by field from `apply_eq`'s equations; the writes of a command to one register are equal since
`exec_writesOnly` gives both lists. -/
theorem completionAppliesThePendingWrites : Obligations.CompletionAppliesThePendingWrites := by
  refine ⟨fun s => complete_of_idle, fun s f hs hf => ?_, fun i s t f hidle hx hf => ?_⟩
  · have hfl := hs.inflight
    rw [hf, Option.all_some, Bool.and_eq_true, Results.ok_iff] at hfl
    obtain ⟨-, -, -, -, hlen⟩ := hfl
    rw [complete_of_inflight hf]
    refine ⟨fun i => ?_, apply_ca _ _, apply_cd _ _, apply_result _ _, fun bs j hbs => ?_, fun hnone => ?_, rfl, rfl, rfl,
      apply_params _ _, apply_arg _ _, apply_err _ _, apply_ecode _ _, apply_ie _ _, apply_agenda _ _, apply_readData _ _⟩
    · rw [setDone_reg, setInflight_reg, apply_reg, setRegs_reg_eq_find]
    · rw [setDone_data, setInflight_data, apply_data, hbs]
      exact Memory.read_writeBytes_all hs.data (hlen bs hbs) j
    · rw [setDone_data, setInflight_data, apply_data, hnone]; rfl
  · obtain ⟨e, r, hi, hw, -⟩ := exec_writesOnly i s
    obtain ⟨-, rfl⟩ | ⟨-, -, rfl⟩ | ⟨-, e, -, rfl⟩ | ⟨-, -, rfl⟩ := issue_cases (hi.symm.trans hx)
    · rw [hidle] at hf; cases hf
    · rw [setError_inflight, hidle] at hf; cases hf
    · rw [setError_inflight, hidle] at hf; cases hf
    · cases hf
      exact ⟨hw.writeBacks_inj, hw.dests_inj⟩

/-! ### What an issue depends on (R188, R198) -/

/-- The states agree on the configuration and on everything a command may read. -/
structure SameSnapshot (s t : State) : Prop where
  params : s.params = t.params
  regs : s.regs = t.regs
  ca : s.ca = t.ca
  cd : s.cd = t.cd
  arg : s.arg = t.arg
  data : s.data = t.data

/-- A command's checks and results are those of every state with the same snapshot: its meaning reads no other field. -/
theorem exec_of_sameSnapshot (i : Instr) {s t : State} (h : SameSnapshot s t) :
    ∃ f r, exec i s = issue i f r s ∧ exec i t = issue i f r t := by
  obtain ⟨hparams, hregs, hca, hcd, harg, hdata⟩ := h
  cases s
  cases t
  subst hparams hregs hca hcd harg hdata
  cases i with
  | nop | ldc d k | unpack d | fill d | pzero d => exact ⟨none, _, rfl, rfl⟩
  | _ => exact ⟨_, _, rfl, rfl⟩

theorem State.Inv.ecode_of_clear {s : State} (hs : s.Inv) (h : s.err = false) : s.ecode = 0 := by simpa [h] using hs.ecode

/-- Settles O30: both states fail the same check or pass all with the same results. -/
theorem resultsDependOnTheSnapshotAlone : Obligations.ResultsDependOnTheSnapshotAlone := by
  intro i s t s' t' hs ht hrs hrt hparams hregs hca hcd harg hdata hxs hxt
  obtain ⟨f, r, his, hit⟩ := exec_of_sameSnapshot i ⟨hparams, hregs, hca, hcd, harg, hdata⟩
  rw [his] at hxs
  rw [hit] at hxt
  cases f with
  | some e =>
    rw [issue_rejected hrs] at hxs
    rw [issue_rejected hrt] at hxt
    cases hxs; cases hxt
    exact ⟨hrs.2.trans hrt.2.symm, rfl, rfl⟩
  | none =>
    rw [issue_accepted hrs] at hxs
    rw [issue_accepted hrt] at hxt
    cases hxs; cases hxt
    exact ⟨rfl, hrs.1.trans hrt.1.symm, (hs.ecode_of_clear hrs.1).trans (ht.ecode_of_clear hrt.1).symm⟩

/-! ### Runs over the turns to come (R194) -/

theorem run_succ_of_step {M : Host.Core} {s s' : M.State} (h : M.step s = .next s') (k : Nat) : M.run (k + 1) s = M.run k s' := by
  rw [Host.Core.run, h]

/-- A run of one step more that answers a next state has stepped first. -/
theorem exists_step_of_run_succ {M : Host.Core} {k : Nat} {s u : M.State} (h : M.run (k + 1) s = .next u) :
    ∃ s', M.step s = .next s' ∧ M.run k s' = .next u := by
  rw [Host.Core.run] at h
  cases hstep : M.step s with
  | next s' => rw [hstep] at h; exact ⟨s', rfl, h⟩
  | fault r => rw [hstep] at h; cases h
  | refused r => rw [hstep] at h; cases h

theorem complete_agenda (s : State) : (complete s).agenda = s.agenda := by
  cases h : s.inflight with
  | none => rw [complete_of_idle h]
  | some f => simp [complete_of_inflight h]

/-- No turn changes the turns to come after it. -/
theorem takeTurn_agenda {t : Turn} {s u : State} (h : takeTurn t s = .next u) : u.agenda = s.agenda := by
  obtain ⟨v, rfl⟩ | rfl | rfl | ⟨i, -, hx⟩ | rfl | ⟨b, rfl⟩ | ⟨b, rfl⟩ | rfl | ⟨v, rfl⟩ | ⟨w, v, -, rfl⟩ | rfl :=
    takeTurn_cases h
  · rfl
  · exact complete_agenda s
  · rfl
  · exact exec_keeps State.agenda (fun _ _ _ => rfl) (fun _ _ => rfl) hx
  · exact gate_illegal_keeps State.agenda (fun _ _ _ => rfl) s
  · rfl
  · rfl
  · rfl
  · exact unlessBusy_keeps State.agenda (fun _ _ _ => rfl) rfl
  · exact unlessBusy_keeps State.agenda (fun _ _ _ => rfl) rfl
  · rfl

/-- A step takes one turn off the agenda. -/
theorem agenda_of_step {s u : State} (h : step s = .next u) : u.agenda = s.agenda.tail := by
  obtain ⟨ha, rfl⟩ | ⟨t, rest, ha, ht⟩ := step_cases h
  · rw [complete_agenda, ha]; rfl
  · rw [takeTurn_agenda ht, ha]; rfl

/-- Settles O29: induction on the turns to come; the step after the last one is the completion. -/
theorem nothingIsInFlightAfterTheLastTurn : Obligations.NothingIsInFlightAfterTheLastTurn := by
  intro s u h
  induction hl : s.agenda generalizing s with
  | nil =>
    obtain ⟨s', (hstep : step s = .next s'), hrun⟩ := exists_step_of_run_succ h
    rw [step_of_empty hl] at hstep
    rw [hl] at hrun
    cases hstep; cases hrun
    exact ⟨complete_inflight s, (complete_agenda s).trans hl⟩
  | cons t rest ih =>
    obtain ⟨s', (hstep : step s = .next s'), hrun⟩ := exists_step_of_run_succ h
    have ha : s'.agenda = rest := by rw [agenda_of_step hstep, hl]; rfl
    rw [hl, ← ha] at hrun
    exact ih s' hrun ha

/-- Settles O60: induction on the turns to come. A turn that is the completion ends the wait; every other one keeps the command in
flight (`sameButFlags_takeTurn`). -/
theorem aCommandInFlightCompletesUnlessReset : Obligations.ACommandInFlightCompletesUnlessReset := by
  intro s u hf h hturns
  induction hl : s.agenda generalizing s with
  | nil =>
    refine ⟨0, s, le_rfl, rfl, rfl, ?_⟩
    have htail : s.agenda.tail = s.agenda := by rw [hl]; rfl
    rw [step_of_empty hl, htail]; rfl
  | cons t rest ih =>
    by_cases hc : t = .complete
    · refine ⟨0, s, Nat.zero_le _, rfl, rfl, ?_⟩
      rw [step_of_turn hl, hc, hl]; rfl
    · obtain ⟨s', (hstep : step s = .next s'), hrun⟩ := exists_step_of_run_succ h
      have ha : s'.agenda = rest := by rw [agenda_of_step hstep, hl]; rfl
      rw [hl, List.length_cons, ← ha] at hrun
      rw [step_of_turn hl] at hstep
      obtain ⟨_, _, _, _, _, rfl⟩ :=
        sameButFlags_takeTurn (s := s.setAgenda rest) hf hc (not_isReset_iff.2 (hturns t (by rw [hl]; exact .head _))) hstep
      obtain ⟨k, v, hk, hrunv, hv, hdone⟩ := ih _ (by exact hf) hrun (fun t' ht' => hturns t' (by rw [hl]; exact .tail _ ht')) rfl
      exact ⟨k + 1, v, Nat.succ_le_succ hk, (run_succ_of_step ((step_of_turn hl).trans hstep) k).trans hrunv, hv, hdone⟩

end Sys2Proof.Machine
end
